-- ==== Sys2Proof/Word.lean ====
section
/-! DEFINITION. The value types of the spec's notation (spec/00_scope.md R17 to R19): bytes, byte strings, 64-bit
values, and byte strings of one fixed length. -/

namespace Sys2Proof

/-- An 8-bit byte (R18). -/
abbrev Byte := BitVec 8

/-- A byte string: a finite sequence of bytes (R18). -/
abbrev Bytes := List Byte

/-- `u64` of R19: an unsigned 64-bit value, read with `toNat`. -/
abbrev U64 := BitVec 64

/-- `i64` of R19: a signed two's-complement 64-bit value, read with `toInt`. -/
abbrev I64 := BitVec 64

/-- The 12-bit address of a control and status register (R42). -/
abbrev CsrAddr := BitVec 12

/-- A byte string of exactly `n` bytes. -/
structure FixedBytes (n : Nat) where
  val : Bytes
  size : val.length = n
deriving DecidableEq, Repr

/-- A 20-byte SHA-1 value (R30, R66, R67). -/
abbrev Digest := FixedBytes 20

/-- A 64-byte sector-cipher key or master secret (R10). -/
abbrev Key := FixedBytes 64

/-- `b` as a byte string of exactly `n` bytes, where it has that length. -/
def FixedBytes.ofBytes (n : Nat) (b : Bytes) : Option (FixedBytes n) :=
  if h : b.length = n then some ⟨b, h⟩ else none

/-- `n` zero bytes as a fixed-length string. -/
def FixedBytes.zero (n : Nat) : FixedBytes n := ⟨List.replicate n 0, by simp⟩

end Sys2Proof
end

