-- ==== Sys2Proof/Syntax.lean ====
section
/-! DEFINITION. The commands of the opcode map (spec/30_encoding.md R142), one constructor a row; the operand forms
(R145); the names of the control and status registers (spec/10_state.md R43 to R63); and the header records, which are
the operands of FR.SER.* and the data model of the container (R65 to R68). -/

namespace Sys2Proof

/-- The 15 commands (R142). A word carries no operand but the CSR address of CSR.RD and CSR.WR (R146, R147); every
other operand travels beside the word in the transaction (R141). -/
inductive Instr where
  | nop
  | csrRd (csra : CsrAddr)
  | csrWr (csra : CsrAddr)
  | scEnc
  | scDec
  | frSerFirst
  | frSerBlock
  | frSerFinal
  | frParse
  | encInit
  | encWrite
  | encFinal
  | decInit
  | decFeed
  | decFinal
deriving DecidableEq, Repr

/-- The operand forms (R145). -/
inductive Form where
  /-- no operand -/
  | N
  /-- `value` -/
  | V
  /-- `key`, `sector`, `data` -/
  | K
  /-- `hdr` -/
  | H
  /-- `data` -/
  | D
deriving DecidableEq, Repr

/-- The mapped control and status registers (R43 to R63). -/
inductive Csr where
  | version
  | ctrl
  | cmdStatus
  | opt
  | parallelism
  | flags
  | keepaliveMs
  | sizeHint
  | encState
  | encSrcBytes
  | encOutBytes
  | encChunks
  | encElided
  | decState
  | decErrors
  | decWarnings
  | decTotalBytes
  | decCursor
  | decOutLen
  | decBuffered
  | decFinalSeen
deriving DecidableEq, Repr

/-- The access types of R42. -/
inductive CsrAccess where
  | ro
  | rw
  | warl
  | w1s
deriving DecidableEq, Repr

/-- A FirstHeader record (R65). -/
structure FirstHeader where
  version : I64
  encrypted : Bool
  compressed : Bool
  saltedPassword : Bytes
  wrappedMasterKey : Bytes
  sourceSizeHint : I64
  timestamp : I64
  hostname : Bytes
deriving DecidableEq, Repr

/-- A BlockHeader record (R66). -/
structure BlockHeader where
  chunkIndex : I64
  destDataSize : I64
  destDataSizeWithoutPadding : I64
  srcDataPosition : I64
  srcDataLength : I64
  srcSha1 : Digest
  destSha1 : Digest
  isAllZero : Bool
  isEoF : Bool
  timestamp : I64
deriving DecidableEq, Repr

/-- A FinalHeader record (R67). -/
structure FinalHeader where
  chunkCount : I64
  totalSourceSize : I64
  destContentSize : I64
  destPhysicalSize : I64
  sourceSha1 : Digest
  destSha1 : Digest
  timestamp : I64
  firstHeader : FirstHeader
deriving DecidableEq, Repr

/-- The header kinds (R68). -/
inductive Kind where
  | first
  | block
  | final
deriving DecidableEq, Repr

/-- The record type of a kind: one record type per kind (R68, R230). -/
abbrev Kind.Record : Kind → Type
  | .first => FirstHeader
  | .block => BlockHeader
  | .final => FinalHeader

/-- A header: a kind together with a record of that kind (R68). -/
inductive Header where
  | first (h : FirstHeader)
  | block (h : BlockHeader)
  | final (h : FinalHeader)
deriving DecidableEq, Repr

end Sys2Proof
end

