-- ==== Sys2Proof/Config.lean ====
section
/-! DEFINITION. The implementation parameters (spec/00_scope.md R7 to R16): the fixed sizes, the OPEN parameters as one
structure `Params` with the laws the spec states of them (`Params.Lawful`), and the one unknown choice of them this
machine runs with (`Config.params`). The free inputs RAND and NOW (R31, R38) are functions of a draw number. -/

namespace Sys2Proof

/-- `FRAME_SIZE` (R7). -/
def frameSize : Nat := 4096

/-- `PAD_ALIGN` (R9). -/
def padAlign : Nat := 4096

/-- `KEY_LEN` (R10). -/
def keyLen : Nat := 64

/-- `FORMAT_VERSION` (R12). -/
def formatVersion : I64 := 1

/-- `CHUNK_SIZE`, 1 MiB = 2^20 bytes (R8). -/
def defaultChunkSize : Nat := 1048576

/-- The OPEN parameters of the spec (R8, R13 to R16, R30 to R35, R162, R200) and the draws (R31, R38). -/
structure Params where
  /-- `CHUNK_SIZE`: R8 asks for a parameter with default 2^20, which `Config.params` takes. -/
  chunkSize : Nat
  /-- `PAR_MAX` (R13). -/
  parMax : Nat
  /-- `SIG_FIRST`, `SIG_BLOCK`, `SIG_FINAL` (R14). -/
  sig : Kind → Bytes
  /-- `HOSTNAME` (R15). -/
  hostname : Bytes
  /-- `BODY_SER` (R162). -/
  bodySer : (k : Kind) → k.Record → Bytes
  /-- `BODY_PARSE` (R162); `none` is `fail`. -/
  bodyParse : (k : Kind) → Bytes → Option k.Record
  /-- Membership in `TC_DOMAIN` (R200). -/
  tcDomain : Nat → Bool
  /-- `TC_ENC` (R200); its value outside `TC_DOMAIN` is never used. -/
  tcEnc : Key → U64 → Bytes → Bytes
  /-- `TC_DEC` (R200); its value outside `TC_DOMAIN` is never used. -/
  tcDec : Key → U64 → Bytes → Bytes
  /-- `COMP_LEVELS`: the compressor level of an OPT.COMP_LEVEL value (R16). -/
  compLevels : BitVec 4 → Nat
  /-- `COMPRESS` (R34); `none` is `fail`. -/
  compress : Nat → Bytes → Option Bytes
  /-- `DECOMPRESS` (R34); `none` is `fail`. -/
  decompress : Bytes → Option Bytes
  /-- `SEAL_RND`: how many random bytes SEAL draws (R35). -/
  sealRnd : Nat
  /-- `PW_SALT`: how many random bytes PW_TOKEN draws (R35). -/
  pwSalt : Nat
  /-- `SEAL` of key, password and draw (R35). -/
  pwSeal : Key → Bytes → Bytes → Bytes
  /-- `UNSEAL` of sealed key and password (R35). -/
  pwUnseal : Bytes → Bytes → Option Bytes
  /-- `PW_TOKEN` of password and draw (R35). -/
  pwToken : Bytes → Bytes → Bytes
  /-- `PW_VERIFY` of token and password (R35). -/
  pwVerify : Bytes → Bytes → Bool
  /-- `SHA1` (R30). -/
  sha1 : Bytes → Digest
  /-- Draw number `n` of the NOW input, a free i64 (R38). -/
  now : Nat → I64
  /-- Draw number `n` of the RNG input, a free byte (R31). -/
  rand : Nat → Byte
  /-- DESIGN CHOICE (log entry 3): what an i64 field holds when the exact value the rule gives lies outside i64, which
  the spec does not state. -/
  i64Open : Int → I64

/-- `SIG_LEN`: the common length of the signatures (R14). -/
def Params.sigLen (P : Params) : Nat := (P.sig .first).length

/-- The laws the spec states of the parameters. Nothing else is assumed of them. -/
structure Params.Lawful (P : Params) : Prop where
  /-- A chunk is not empty (R8). -/
  chunkSize_pos : 0 < P.chunkSize
  /-- PAR_MAX ≥ 1 (R13). -/
  parMax_pos : 1 ≤ P.parMax
  /-- The signatures have one common length (R14). -/
  sig_length : ∀ k, (P.sig k).length = P.sigLen
  /-- The signatures are pairwise distinct (R14). -/
  sig_distinct : ∀ k k', P.sig k = P.sig k' → k = k'
  /-- Every signature byte is in 0x20..0x7E (R14). -/
  sig_ascii : ∀ k, ∀ x ∈ P.sig k, 0x20 ≤ x.toNat ∧ x.toNat ≤ 0x7E
  /-- SIG_LEN ≤ 4000 (R14). -/
  sig_short : P.sigLen ≤ 4000
  /-- B1 (R162). -/
  body_roundtrip : ∀ k (h : k.Record), P.bodyParse k (P.bodySer k h) = some h
  /-- B2 (R162). -/
  body_no_cr : ∀ k (h : k.Record), 0x0D ∉ P.bodySer k h
  /-- T1 for TC_ENC (R200). -/
  tcEnc_length : ∀ k s d, P.tcDomain d.length = true → (P.tcEnc k s d).length = d.length
  /-- T1 for TC_DEC (R200). -/
  tcDec_length : ∀ k s d, P.tcDomain d.length = true → (P.tcDec k s d).length = d.length
  /-- T2 (R200). -/
  tcDec_tcEnc : ∀ k s d, P.tcDomain d.length = true → P.tcDec k s (P.tcEnc k s d) = d
  /-- T3 (R200): every multiple of 4096 is in TC_DOMAIN. -/
  tcDomain_padAlign : ∀ n, n % padAlign = 0 → P.tcDomain n = true
  /-- C1 (R34). -/
  decompress_compress : ∀ l b c, P.compress l b = some c → P.decompress c = some b
  /-- P1 (R35). -/
  pwUnseal_pwSeal : ∀ k p r, P.pwUnseal (P.pwSeal k p r) p = some k.val
  /-- P2 (R35). -/
  pwVerify_pwToken : ∀ p r, P.pwVerify (P.pwToken p r) p = true

/-! A header record as nested pairs of numbers, booleans and lists, and back: only used to exhibit parameters that meet
the laws. -/

/-- The shape of a FirstHeader's contents. -/
abbrev FirstTuple := Nat × Bool × Bool × List Nat × List Nat × Nat × Nat × List Nat

/-- The shape of a BlockHeader's contents. -/
abbrev BlockTuple := Nat × Nat × Nat × Nat × Nat × List Nat × List Nat × Bool × Bool × Nat

/-- The shape of a FinalHeader's contents. -/
abbrev FinalTuple := Nat × Nat × Nat × Nat × List Nat × List Nat × Nat × FirstTuple

/-- The numbers of a byte string. -/
def bytesToNats (b : Bytes) : List Nat := b.map (·.toNat)

/-- The byte string of a list of numbers. -/
def natsToBytes (l : List Nat) : Bytes := l.map (BitVec.ofNat 8)

/-- The contents of a FirstHeader. -/
def FirstHeader.toTuple (h : FirstHeader) : FirstTuple :=
  (h.version.toNat, h.encrypted, h.compressed, bytesToNats h.saltedPassword, bytesToNats h.wrappedMasterKey,
    h.sourceSizeHint.toNat, h.timestamp.toNat, bytesToNats h.hostname)

/-- The FirstHeader with these contents. -/
def FirstHeader.ofTuple : FirstTuple → FirstHeader
  | (v, e, c, p, w, z, t, n) =>
    ⟨BitVec.ofNat 64 v, e, c, natsToBytes p, natsToBytes w, BitVec.ofNat 64 z, BitVec.ofNat 64 t, natsToBytes n⟩

/-- The contents of a BlockHeader. -/
def BlockHeader.toTuple (h : BlockHeader) : BlockTuple :=
  (h.chunkIndex.toNat, h.destDataSize.toNat, h.destDataSizeWithoutPadding.toNat, h.srcDataPosition.toNat,
    h.srcDataLength.toNat, bytesToNats h.srcSha1.val, bytesToNats h.destSha1.val, h.isAllZero, h.isEoF,
    h.timestamp.toNat)

/-- The BlockHeader with these contents, where the hashes have their length. -/
def BlockHeader.ofTuple : BlockTuple → Option BlockHeader
  | (i, d, w, p, l, s1, s2, z, e, t) =>
    match FixedBytes.ofBytes 20 (natsToBytes s1), FixedBytes.ofBytes 20 (natsToBytes s2) with
    | some s1, some s2 =>
      some ⟨BitVec.ofNat 64 i, BitVec.ofNat 64 d, BitVec.ofNat 64 w, BitVec.ofNat 64 p, BitVec.ofNat 64 l, s1, s2, z, e,
        BitVec.ofNat 64 t⟩
    | _, _ => none

/-- The contents of a FinalHeader. -/
def FinalHeader.toTuple (h : FinalHeader) : FinalTuple :=
  (h.chunkCount.toNat, h.totalSourceSize.toNat, h.destContentSize.toNat, h.destPhysicalSize.toNat,
    bytesToNats h.sourceSha1.val, bytesToNats h.destSha1.val, h.timestamp.toNat, h.firstHeader.toTuple)

/-- The FinalHeader with these contents, where the hashes have their length. -/
def FinalHeader.ofTuple : FinalTuple → Option FinalHeader
  | (c, z, d, p, s1, s2, t, f) =>
    match FixedBytes.ofBytes 20 (natsToBytes s1), FixedBytes.ofBytes 20 (natsToBytes s2) with
    | some s1, some s2 =>
      some ⟨BitVec.ofNat 64 c, BitVec.ofNat 64 z, BitVec.ofNat 64 d, BitVec.ofNat 64 p, s1, s2, BitVec.ofNat 64 t,
        FirstHeader.ofTuple f⟩
    | _, _ => none

/-- A number for a record. -/
def recordCode : (k : Kind) → k.Record → Nat
  | .first, h => Encodable.encode (FirstHeader.toTuple h)
  | .block, h => Encodable.encode (BlockHeader.toTuple h)
  | .final, h => Encodable.encode (FinalHeader.toTuple h)

/-- The record of a number. -/
def recordOfCode : (k : Kind) → Nat → Option k.Record
  | .first, n => (Encodable.decode (α := FirstTuple) n).map FirstHeader.ofTuple
  | .block, n => (Encodable.decode (α := BlockTuple) n).bind BlockHeader.ofTuple
  | .final, n => (Encodable.decode (α := FinalTuple) n).bind FinalHeader.ofTuple

theorem natsToBytes_bytesToNats (b : Bytes) : natsToBytes (bytesToNats b) = b := by
  simp [natsToBytes, bytesToNats, Function.comp_def]

theorem fixedBytes_ofBytes_val {n : Nat} (b : FixedBytes n) : FixedBytes.ofBytes n b.val = some b := by
  obtain ⟨v, hv⟩ := b
  simp [FixedBytes.ofBytes, hv]

theorem firstHeader_ofTuple_toTuple (h : FirstHeader) : FirstHeader.ofTuple h.toTuple = h := by
  simp [FirstHeader.ofTuple, FirstHeader.toTuple, natsToBytes_bytesToNats]

theorem recordOfCode_recordCode (k : Kind) (h : k.Record) : recordOfCode k (recordCode k h) = some h := by
  cases k with
  | first => simp [recordOfCode, recordCode, firstHeader_ofTuple_toTuple]
  | block =>
    simp [recordOfCode, recordCode, BlockHeader.ofTuple, BlockHeader.toTuple, natsToBytes_bytesToNats,
      fixedBytes_ofBytes_val]
  | final =>
    simp [recordOfCode, recordCode, FinalHeader.ofTuple, FinalHeader.toTuple, natsToBytes_bytesToNats,
      fixedBytes_ofBytes_val, firstHeader_ofTuple_toTuple]

/-- Parameters that meet every law, so that the laws do not contradict each other. NOTHING of the model runs with them:
the signatures are one letter, the body is a number in unary, and the cipher and the compressor do nothing. -/
def Config.sample : Params where
  chunkSize := defaultChunkSize
  parMax := 1
  sig := fun | .first => [0x41] | .block => [0x42] | .final => [0x43]
  hostname := []
  bodySer := fun k h => List.replicate (recordCode k h) 0x20
  bodyParse := fun k b => recordOfCode k b.length
  tcDomain := fun _ => true
  tcEnc := fun _ _ d => d
  tcDec := fun _ _ d => d
  compLevels := fun l => l.toNat
  compress := fun _ b => some b
  decompress := fun b => some b
  sealRnd := 0
  pwSalt := 0
  pwSeal := fun k _ _ => k.val
  pwUnseal := fun b _ => some b
  pwToken := fun _ _ => []
  pwVerify := fun _ _ => true
  sha1 := fun _ => FixedBytes.zero 20
  now := fun _ => 0
  rand := fun _ => 0
  i64Open := fun _ => 0

theorem Config.sample_lawful : Config.sample.Lawful where
  chunkSize_pos := by decide
  parMax_pos := by decide
  sig_length := by intro k; cases k <;> rfl
  sig_distinct := by intro k k'; cases k <;> cases k' <;> simp [Config.sample]
  sig_ascii := by intro k; cases k <;> simp [Config.sample]
  sig_short := by decide
  body_roundtrip := by intro k h; simp [Config.sample, recordOfCode_recordCode]
  body_no_cr := by intro k h; simp [Config.sample, List.mem_replicate]
  tcEnc_length := by intros; rfl
  tcDec_length := by intros; rfl
  tcDec_tcEnc := by intros; rfl
  tcDomain_padAlign := by intros; rfl
  decompress_compress := by intro l b c h; simpa [Config.sample] using h.symm
  pwUnseal_pwSeal := by intros; rfl
  pwVerify_pwToken := by intros; rfl

/-- The parameters of one SCW, under the laws and nothing else. The constant has no body: no proof can learn any value
of it. (The argument only shows Lean that such parameters exist.) -/
opaque Config.chosen [Inhabited { P : Params // P.Lawful }] : { P : Params // P.Lawful }

/-- The parameters this machine runs with: unknown but for the laws, with CHUNK_SIZE at its default (R8, R16). -/
def Config.params : Params :=
  { (@Config.chosen ⟨⟨Config.sample, Config.sample_lawful⟩⟩).val with chunkSize := defaultChunkSize }

/-- The machine's parameters meet the laws. -/
theorem Config.lawful : Config.params.Lawful :=
  let h := (@Config.chosen ⟨⟨Config.sample, Config.sample_lawful⟩⟩).property
  { chunkSize_pos := by decide
    parMax_pos := h.parMax_pos
    sig_length := h.sig_length
    sig_distinct := h.sig_distinct
    sig_ascii := h.sig_ascii
    sig_short := h.sig_short
    body_roundtrip := h.body_roundtrip
    body_no_cr := h.body_no_cr
    tcEnc_length := h.tcEnc_length
    tcDec_length := h.tcDec_length
    tcDec_tcEnc := h.tcDec_tcEnc
    tcDomain_padAlign := h.tcDomain_padAlign
    decompress_compress := h.decompress_compress
    pwUnseal_pwSeal := h.pwUnseal_pwSeal
    pwVerify_pwToken := h.pwVerify_pwToken }

/-- CHUNK_SIZE is 2^20 (R8). -/
@[simp] theorem Config.params_chunkSize : Config.params.chunkSize = 1048576 := rfl

end Sys2Proof
end

