-- ==== Sys2Proof/Machine/State.lean ====
section
/-! DEFINITION. The architectural state of SCW (spec/10_state.md), the ports (spec/20_memory.md R100, R101), the command
transaction and its response (spec/30_encoding.md R141), the reasons a step can stop, and power-on reset (R77 to R79). -/

namespace Sys2Proof.Machine

/-- Why the machine stops with a fault. -/
inductive Fault where
  /-- A write to or a read from SINK that leaves its addresses 0 .. 2^63 − 1 (R101, R104). Raised by the sink operations
  inside DEC.FEED and DEC.FINAL. SAFE: the spec gives no such address an effect, and in a state that meets the decoder's
  invariant no command reaches it, because only sane headers are batched (R105, R309). -/
  | sinkOutOfRange
deriving DecidableEq, Repr

/-- Why a step is refused. -/
inductive Refusal where
  /-- An instruction that has no meaning in this model. Raised by `exec` alone, for none of SCW's 15 commands. SAFE: the
  machine stops where the hardware goes on. -/
  | notModelled (mnemonic : String)
deriving DecidableEq, Repr

/-- The command statuses (R400). -/
inductive Status where
  | ok
  | illegalCmd
  | badState
  | badOperand
  | fatal
  | serOverflow
deriving DecidableEq, Repr

/-- The fatal codes of ENC (R411). -/
inductive EncFatal where
  | primitiveFail
  | hdrOverflow
deriving DecidableEq, Repr

/-- The fatal codes of DEC (R411). -/
inductive DecFatal where
  | noFirstHeader
  | badVersion
  | badPassword
  | unwrapFail
  | truncated
deriving DecidableEq, Repr

/-- The soft event causes of DEC (R413). -/
inductive SoftCause where
  | corruptFrame
  | insaneHeader
  | payloadBounds
  | transformFail
  | lengthMismatch
  | incompletePayload
  | incompleteTail
  | finalHashMismatch
  | destHashMismatch
  | srcHashMismatch
deriving DecidableEq, Repr

/-- The severity of a soft event (R413). -/
inductive Severity where
  | error
  | warning
deriving DecidableEq, Repr

/-- One entry of DEC.trace: a cause and the IN offset it is charged to (R414). -/
structure SoftEvent where
  cause : SoftCause
  offset : Nat
deriving DecidableEq, Repr

/-- The life cycle of ENC (R51, R250). -/
inductive EncState where
  | idle
  | active
  | finalized
  | failed
deriving DecidableEq, Repr

/-- The life cycle of DEC (R56, R301). -/
inductive DecState where
  | idle
  | awaitFirst
  | streaming
  | finalized
  | failed
deriving DecidableEq, Repr

/-- ENC.cfg: the options copied at ENC.INIT (R70, R75). -/
structure EncCfg where
  encrypt : Bool
  compress : Bool
  level : BitVec 4
  par : Nat
  keepAlive : I64
  sizeHint : I64
deriving DecidableEq, Repr

/-- The state of unit ENC (R70). `none` is the spec's ⊥. -/
structure Enc where
  state : EncState
  fatal : Option EncFatal
  cfg : EncCfg
  key : Option Key
  first : Option FirstHeader
  firstEmitted : Bool
  inBuf : Bytes
  srcLog : Bytes
  outLog : Bytes
  srcPos : I64
  nextIdx : I64
  destContent : I64
  prevAllZero : Bool
  lastFrameTime : I64
  elided : Nat
  final : Option FinalHeader
deriving DecidableEq, Repr

/-- A chunk waiting in DEC.batch: its header, its raw payload and the IN offset of its header frame (R72). -/
structure BatchEntry where
  hdr : BlockHeader
  payload : Bytes
  offset : Nat
deriving DecidableEq, Repr

/-- The state of unit DEC (R72). `none` is the spec's ⊥. -/
structure Dec where
  state : DecState
  fatal : Option DecFatal
  par : Nat
  password : Bytes
  first : Option FirstHeader
  key : Option Key
  final : Option FinalHeader
  inBuf : Bytes
  cursor : Nat
  batch : List BatchEntry
  errors : Nat
  warnings : Nat
  totalBytes : Nat
  outLen : Nat
  trace : List SoftEvent
deriving DecidableEq, Repr

/-- The CSRs that store a value (R45 to R50). VERSION and CTRL read as constants (R43, R44) and the others of the CSR
space are computed from the units (R51 to R63): `readCsr` gives them. -/
structure Csrs where
  cmdStatus : Status
  opt : U64
  parallelism : U64
  flags : U64
  keepaliveMs : U64
  sizeHint : U64
deriving DecidableEq, Repr

/-- Everything a transaction may carry beside its word (R141, R145). A command takes what its form names and ignores the
rest; a header record travels with its kind (R68), so that one of the wrong kind can be sent (R230). -/
structure Operands where
  value : U64
  key : Bytes
  sector : U64
  data : Bytes
  hdr : Option Header
deriving DecidableEq, Repr

/-- A command transaction `(word, operands)` (R141). -/
structure Command where
  word : BitVec 32
  ops : Operands
deriving DecidableEq, Repr

/-- The response record (R141). -/
structure Response where
  status : Status
  value : U64
  data : Bytes
  kind : BitVec 8
  hdr : Option Header
deriving DecidableEq, Repr

/-- SINK, as the list of its bytes that are not 0x00, addresses strictly rising (R104: a byte not yet written holds
0x00). -/
abbrev Sink := List Host.Cell

/-- The whole machine: the CSRs, the two sequencer units (SCU and FCU hold no state, R69), the OUT, IN and SINK ports'
contents, the command port and the response port, and how many draws of RAND and NOW have been taken. -/
structure State where
  /-- the CSRs that store a value (R45 to R50) -/
  csr : Csrs
  /-- unit ENC (R70) -/
  enc : Enc
  /-- unit DEC (R72) -/
  dec : Dec
  /-- every byte appended to the OUT stream, unit resets included (R102) -/
  out : Bytes
  /-- the IN stream: every byte taken by DEC.FEED since DEC.INIT (R103) -/
  input : Bytes
  /-- SINK (R104) -/
  sink : Sink
  /-- MODEL's own: how many NOW draws have been taken (R38) -/
  nowDraws : Nat
  /-- MODEL's own: how many RAND bytes have been drawn (R31) -/
  randDraws : Nat
  /-- the CMD port: the commands the host has yet to issue, in issue order (R100, R119) -/
  cmds : List Command
  /-- the operands of the command being carried out (R141) -/
  ops : Operands
  /-- the RSP port: the response to the last command, none before the first (R141) -/
  rsp : Option Response
deriving DecidableEq, Repr

/-- The operands of a command that is given none. -/
def Operands.none : Operands := ⟨0, [], 0, [], Option.none⟩

/-- The reset state of ENC (R78). -/
def Enc.reset : Enc where
  state := .idle
  fatal := none
  cfg := ⟨false, false, 0, 1, 0, -1⟩
  key := none
  first := none
  firstEmitted := false
  inBuf := []
  srcLog := []
  outLog := []
  srcPos := 0
  nextIdx := 0
  destContent := 0
  prevAllZero := false
  lastFrameTime := 0
  elided := 0
  final := none

/-- The reset state of DEC (R79). -/
def Dec.reset : Dec where
  state := .idle
  fatal := none
  par := 1
  password := []
  first := none
  key := none
  final := none
  inBuf := []
  cursor := 0
  batch := []
  errors := 0
  warnings := 0
  totalBytes := 0
  outLen := 0
  trace := []

/-- The power-on reset values of the CSRs that store a value (R77). -/
def Csrs.reset : Csrs where
  cmdStatus := .ok
  opt := 0
  parallelism := 1
  flags := 0
  keepaliveMs := 0
  sizeHint := 0xFFFFFFFFFFFFFFFF

/-- The machine right after power-on reset (R450, R77 to R79), with an empty OUT and IN stream, a SINK that reads 0x00
everywhere (R104, R455), no command issued yet and no draw taken. -/
def State.reset : State where
  csr := Csrs.reset
  enc := Enc.reset
  dec := Dec.reset
  out := []
  input := []
  sink := []
  nowDraws := 0
  randDraws := 0
  cmds := []
  ops := Operands.none
  rsp := none

end Sys2Proof.Machine
end

