-- ==== Sys2Proof/Machine/Flags.lean ====
section
/-! DEFINITION. The codes a host reads: statuses (spec/60_exceptions.md R400), unit states (spec/45_control.md R363),
fatal codes (R411), soft event causes and severities (R413), and the soft event accounting of DEC (R413, R414). SCW has
no condition flags: these are all the status bits it computes. -/

namespace Sys2Proof.Machine

/-- The status codes (R400). -/
def statusCode : Status → BitVec 8
  | .ok => 0x00
  | .illegalCmd => 0x01
  | .badState => 0x02
  | .badOperand => 0x03
  | .fatal => 0x04
  | .serOverflow => 0x05

/-- The state codes of ENC (R363, R51). -/
def encStateCode : EncState → U64
  | .idle => 0
  | .active => 1
  | .finalized => 2
  | .failed => 3

/-- The state codes of DEC (R363, R56). -/
def decStateCode : DecState → U64
  | .idle => 0
  | .awaitFirst => 1
  | .streaming => 2
  | .finalized => 3
  | .failed => 4

/-- The fatal codes of ENC, 0 for none (R411). -/
def encFatalCode : Option EncFatal → BitVec 8
  | none => 0x00
  | some .primitiveFail => 0x10
  | some .hdrOverflow => 0x11

/-- The fatal codes of DEC, 0 for none (R411). -/
def decFatalCode : Option DecFatal → BitVec 8
  | none => 0x00
  | some .noFirstHeader => 0x01
  | some .badVersion => 0x02
  | some .badPassword => 0x03
  | some .unwrapFail => 0x04
  | some .truncated => 0x05

/-- STATE and FATAL as ENC_STATE and DEC_STATE hold them: `code OR (fatal << 8)` (R51, R56, R361). -/
def stateWord (code : U64) (fatal : BitVec 8) : U64 := code ||| (fatal.zeroExtend 64 <<< 8)

/-- The soft event cause codes (R413). -/
def softCauseCode : SoftCause → BitVec 8
  | .corruptFrame => 0x21
  | .insaneHeader => 0x22
  | .payloadBounds => 0x23
  | .transformFail => 0x24
  | .lengthMismatch => 0x25
  | .incompletePayload => 0x26
  | .incompleteTail => 0x27
  | .finalHashMismatch => 0x28
  | .destHashMismatch => 0x31
  | .srcHashMismatch => 0x32

/-- The severity of each soft event cause (R413). -/
def severity : SoftCause → Severity
  | .corruptFrame => .error
  | .insaneHeader => .error
  | .payloadBounds => .error
  | .transformFail => .error
  | .lengthMismatch => .error
  | .incompletePayload => .error
  | .incompleteTail => .error
  | .finalHashMismatch => .error
  | .destHashMismatch => .warning
  | .srcHashMismatch => .warning

/-- `error(cause, at)` and `warn(cause, at)`: one soft event is counted by its severity and joins the trace (R21, R413,
R414). -/
def recordEvent (c : SoftCause) (offset : Nat) (d : Dec) : Dec :=
  match severity c with
  | .error => { d with errors := d.errors + 1, trace := d.trace ++ [⟨c, offset⟩] }
  | .warning => { d with warnings := d.warnings + 1, trace := d.trace ++ [⟨c, offset⟩] }

/-- The events of one chunk, recorded in order at the chunk's header offset (R315, R415). -/
def recordEvents (cs : List SoftCause) (offset : Nat) (d : Dec) : Dec :=
  cs.foldl (fun d c => recordEvent c offset d) d

/-- How many entries of a trace have a severity (R414). -/
def countSeverity (sev : Severity) (t : List SoftEvent) : Nat :=
  t.countP fun e => severity e.cause == sev

end Sys2Proof.Machine
end

