-- ==== Sys2Proof/Machine/Ops.lean ====
section
/-! DEFINITION. The named operations: byte strings and integers (spec/00_scope.md R17 to R19, R36, R37), SINK
(spec/20_memory.md R104 to R106), the OUT stream (R102), the draws (R31, R38), the CSR file (spec/10_state.md R42 to R63),
the answer to a command (spec/45_control.md R355), entering a fatal state and leaving it (spec/60_exceptions.md R410,
R412; spec/70_reset_and_hazards.md R452), and power-on reset (R450). -/

namespace Sys2Proof.Machine

/-! ### Byte strings and integers -/

/-- `CRLF` (R18). -/
def crlf : Bytes := [0x0D, 0x0A]

/-- `zeros(n)` (R18). -/
def zeros (n : Nat) : Bytes := List.replicate n 0

/-- `b[lo:hi]`, the bytes at offsets lo ≤ i < hi (R18). -/
def slice (b : Bytes) (lo hi : Nat) : Bytes := (b.drop lo).take (hi - lo)

/-- `ALLZERO(b)` (R37). -/
def allZero (b : Bytes) : Bool := b.all fun x => x == 0

/-- `roundup(n, m)`, the least multiple of m that is ≥ n (R19). -/
def roundup (n m : Nat) : Nat := (n + m - 1) / m * m

/-- `ceil(n / m)` (R260). -/
def ceilDiv (n m : Nat) : Nat := (n + m - 1) / m

/-- The i64 value of an exact integer. Outside i64 the spec states no value for the field: the free value
`Params.i64Open` stands there (log entry 3). -/
def toI64 (P : Params) (n : Int) : I64 :=
  if -2 ^ 63 ≤ n ∧ n < 2 ^ 63 then BitVec.ofInt 64 n else P.i64Open n

/-- The low 64 bits of a count, as the CSRs show it (R52 to R62). -/
def low64 (n : Nat) : U64 := BitVec.ofNat 64 n

/-- Bytes of the RNG input: `n` draws from draw number `k` on (R31). -/
def randBytes (P : Params) (k n : Nat) : Bytes := (List.range n).map fun i => P.rand (k + i)

theorem randBytes_length (P : Params) (k n : Nat) : (randBytes P k n).length = n := by simp [randBytes]

/-- `RAND(64)` as a key (R251). -/
def randKey (P : Params) (k : Nat) : Key := ⟨randBytes P k 64, randBytes_length P k 64⟩

/-! ### SINK (R104 to R106) -/

/-- How many addresses SINK has: 0 .. 2^63 − 1 (R101, R104). -/
def sinkSize : Nat := 2 ^ 63

/-- One byte of SINK; a byte not listed reads 0x00 (R104). -/
def Memory.get : Sink → Nat → Byte
  | [], _ => 0
  | (a, b) :: m, at_ => if at_ = a then b else Memory.get m at_

/-- SINK with one byte written, in canonical form. -/
def Memory.set : Sink → Nat → Byte → Sink
  | [], a, b => if b = 0 then [] else [(a, b)]
  | (a', b') :: m, a, b =>
    if a < a' then (if b = 0 then (a', b') :: m else (a, b) :: (a', b') :: m)
    else if a = a' then (if b = 0 then m else (a, b) :: m)
    else (a', b') :: Memory.set m a b

/-- The canonical form: addresses strictly rising, no byte listed that an unlisted address reads as. -/
def Memory.wf : Sink → Bool
  | [] => true
  | (a, b) :: m => b != 0 && m.all (fun c => decide (a < c.1)) && Memory.wf m

/-- Every listed address is an address of SINK (R101). -/
def Memory.inRange (m : Sink) : Bool := m.all fun c => decide (c.1 < sinkSize)

/-- The bytes of `v` written from address `a` on, in order (R105). -/
def Memory.writeBytes : Sink → Nat → Bytes → Sink
  | m, _, [] => m
  | m, a, x :: v => Memory.writeBytes (Memory.set m a x) (a + 1) v

/-- The `n` bytes from address `a` on (R106). -/
def Memory.readBytes (m : Sink) (a n : Nat) : Bytes := (List.range n).map fun i => Memory.get m (a + i)

/-- `SinkWrite(pos, v)` (R105), none where it leaves SINK. A write of zero bytes changes nothing. -/
def sinkWrite (m : Sink) (pos : Int) (v : Bytes) : Option Sink :=
  if v.isEmpty then some m
  else if 0 ≤ pos ∧ pos + v.length ≤ sinkSize then some (Memory.writeBytes m pos.toNat v)
  else none

/-- `SinkRead(pos, n)` (R106), none where it leaves SINK. -/
def sinkRead (m : Sink) (pos n : Nat) : Option Bytes :=
  if pos + n ≤ sinkSize then some (Memory.readBytes m pos n) else none

/-! ### Procedures that a fatal condition may end -/

/-- How an internal procedure ends: with a result, or stopped by a reason; either way with the state it leaves, since a
fatal condition keeps what was done before it (R402). -/
inductive Run (ε σ α : Type) where
  | ok (a : α) (s : σ)
  | stop (e : ε) (s : σ)
deriving DecidableEq, Repr

/-- One procedure after another. -/
def Run.bind {ε σ α β : Type} (r : Run ε σ α) (f : α → σ → Run ε σ β) : Run ε σ β :=
  match r with
  | .ok a s => f a s
  | .stop e s => .stop e s

/-- The part of the machine the encode procedures act on: ENC, the OUT port and the draws. -/
structure EncPart where
  enc : Enc
  out : Bytes
  nowDraws : Nat
  randDraws : Nat
deriving DecidableEq, Repr

/-- The part of the machine the decode procedures act on: DEC and the SINK port. -/
structure DecPart where
  dec : Dec
  sink : Sink
deriving DecidableEq, Repr

/-- Why a decode procedure stops: a fatal condition (R313), or a SINK access outside SINK. -/
inductive DecStop where
  | fatal (c : DecFatal)
  | fault (f : Fault)
deriving DecidableEq, Repr

/-- The encode procedures' part of a state. -/
def encPart (s : State) : EncPart := ⟨s.enc, s.out, s.nowDraws, s.randDraws⟩

/-- A state with the encode procedures' part replaced. -/
def setEncPart (p : EncPart) (s : State) : State :=
  { s with enc := p.enc, out := p.out, nowDraws := p.nowDraws, randDraws := p.randDraws }

/-- The decode procedures' part of a state. -/
def decPart (s : State) : DecPart := ⟨s.dec, s.sink⟩

/-- A state with the decode procedures' part replaced. -/
def setDecPart (p : DecPart) (s : State) : State := { s with dec := p.dec, sink := p.sink }

/-- `OutAppend(b)` (R102): OUT and ENC.outLog both grow by `b`. -/
def outAppend (b : Bytes) (p : EncPart) : EncPart :=
  { p with out := p.out ++ b, enc := { p.enc with outLog := p.enc.outLog ++ b } }

/-- The part after one NOW draw (R38); `P.now p.nowDraws` is the value drawn. -/
def nowDrawn (p : EncPart) : EncPart := { p with nowDraws := p.nowDraws + 1 }

/-! ### Answering a command -/

/-- A response with a status and every other field at its default (R141). -/
def statusResponse (st : Status) : Response := ⟨st, 0, [], 0, none⟩

/-- The response is returned and CMD_STATUS is left as it is: NOP and CSR.RD (R355). -/
def answer (r : Response) (s : State) : State := { s with rsp := some r }

/-- The response is returned and its status stored in CMD_STATUS: every command but NOP and CSR.RD (R355). -/
def complete (r : Response) (s : State) : State :=
  { s with csr := { s.csr with cmdStatus := r.status }, rsp := some r }

/-- `raise Status(st)`: the command ends with a status, nothing else changed (R21). -/
def completeStatus (st : Status) (s : State) : State := complete (statusResponse st) s

/-! ### Fatal entry and unit reset -/

/-- `Fatal(ENC, code)` (R410): the code is recorded, ENC is FAILED, the command ends with status FATAL. -/
def enterFatalEnc (code : EncFatal) (s : State) : State :=
  completeStatus .fatal { s with enc := { s.enc with fatal := some code, state := .failed } }

/-- `Fatal(DEC, code)` (R410): the code is recorded, DEC is FAILED, the command ends with status FATAL. -/
def enterFatalDec (code : DecFatal) (s : State) : State :=
  completeStatus .fatal { s with dec := { s.dec with fatal := some code, state := .failed } }

/-- `ResetENC()` (R452), with power-on reset the only way out of FAILED (R412). -/
def resetEnc (s : State) : State := { s with enc := Enc.reset }

/-- `ResetDEC()` (R452), with power-on reset the only way out of FAILED (R412). -/
def resetDec (s : State) : State := { s with dec := Dec.reset }

/-- Power-on reset in the middle of a run (R450): CSRs and both units go to their reset values. OUT and SINK belong to
the host and keep their bytes, and so does the IN stream, which the next DEC.INIT starts anew; the draws go on. -/
def powerOnReset (s : State) : State :=
  { s with csr := Csrs.reset, enc := Enc.reset, dec := Dec.reset, rsp := none }

/-! ### The CSR file (R42 to R64, R361, R362) -/

/-- The addresses of the mapped CSRs (R43 to R63). -/
def csrAddress : Csr → CsrAddr
  | .version => 0x000
  | .ctrl => 0x001
  | .cmdStatus => 0x002
  | .opt => 0x010
  | .parallelism => 0x011
  | .flags => 0x012
  | .keepaliveMs => 0x013
  | .sizeHint => 0x014
  | .encState => 0x020
  | .encSrcBytes => 0x021
  | .encOutBytes => 0x022
  | .encChunks => 0x023
  | .encElided => 0x024
  | .decState => 0x030
  | .decErrors => 0x031
  | .decWarnings => 0x032
  | .decTotalBytes => 0x033
  | .decCursor => 0x034
  | .decOutLen => 0x035
  | .decBuffered => 0x036
  | .decFinalSeen => 0x037

/-- Every mapped CSR, in address order. -/
def mappedCsrs : List Csr := [
  .version, .ctrl, .cmdStatus, .opt, .parallelism, .flags, .keepaliveMs, .sizeHint, .encState, .encSrcBytes,
  .encOutBytes, .encChunks, .encElided, .decState, .decErrors, .decWarnings, .decTotalBytes, .decCursor, .decOutLen,
  .decBuffered, .decFinalSeen]

/-- The CSR mapped at an address, none where the address is unmapped (R64). -/
def csrAt (a : CsrAddr) : Option Csr := mappedCsrs.find? fun c => csrAddress c == a

/-- The access type of each CSR (R43 to R63). -/
def csrAccess : Csr → CsrAccess
  | .version => .ro
  | .ctrl => .w1s
  | .cmdStatus => .ro
  | .opt => .rw
  | .parallelism => .warl
  | .flags => .rw
  | .keepaliveMs => .rw
  | .sizeHint => .rw
  | .encState => .ro
  | .encSrcBytes => .ro
  | .encOutBytes => .ro
  | .encChunks => .ro
  | .encElided => .ro
  | .decState => .ro
  | .decErrors => .ro
  | .decWarnings => .ro
  | .decTotalBytes => .ro
  | .decCursor => .ro
  | .decOutLen => .ro
  | .decBuffered => .ro
  | .decFinalSeen => .ro

/-- `ReadCSR` (R361). -/
def readCsr (s : State) : Csr → U64
  | .version => formatVersion
  | .ctrl => 0
  | .cmdStatus => (statusCode s.csr.cmdStatus).zeroExtend 64
  | .opt => s.csr.opt
  | .parallelism => s.csr.parallelism
  | .flags => s.csr.flags
  | .keepaliveMs => s.csr.keepaliveMs
  | .sizeHint => s.csr.sizeHint
  | .encState => stateWord (encStateCode s.enc.state) (encFatalCode s.enc.fatal)
  | .encSrcBytes => low64 s.enc.srcLog.length
  | .encOutBytes => low64 s.enc.outLog.length
  | .encChunks => s.enc.nextIdx
  | .encElided => low64 s.enc.elided
  | .decState => stateWord (decStateCode s.dec.state) (decFatalCode s.dec.fatal)
  | .decErrors => low64 s.dec.errors
  | .decWarnings => low64 s.dec.warnings
  | .decTotalBytes => low64 s.dec.totalBytes
  | .decCursor => low64 s.dec.cursor
  | .decOutLen => low64 s.dec.outLen
  | .decBuffered => low64 s.dec.inBuf.length
  | .decFinalSeen => if s.dec.final.isSome then 1 else 0

/-- The OPT bits that are stored: ENCRYPT, COMPRESS and COMP_LEVEL (R46). -/
def optMask : U64 := 0x00000000000000F3

/-- OPT.ENCRYPT (R46). -/
def optEncrypt (opt : U64) : Bool := opt.getLsbD 0

/-- OPT.COMPRESS (R46). -/
def optCompress (opt : U64) : Bool := opt.getLsbD 1

/-- OPT.COMP_LEVEL, bits 7:4 (R46). -/
def optLevel (opt : U64) : BitVec 4 := opt.extractLsb' 4 4

/-- The value PARALLELISM stores for a write of `v`: max(1, min(i64(v), PAR_MAX)) (R47, R362). -/
def clampPar (P : Params) (v : U64) : U64 := BitVec.ofInt 64 (max 1 (min v.toInt P.parMax))

/-- A write to a CSR that may be written (R362). A write to CTRL resets ENC before DEC (R44). -/
def writeCsr (P : Params) (c : Csr) (v : U64) (s : State) : State :=
  match c with
  | .ctrl =>
    let s := if v.getLsbD 0 then resetEnc s else s
    if v.getLsbD 1 then resetDec s else s
  | .opt => { s with csr := { s.csr with opt := v &&& optMask } }
  | .parallelism => { s with csr := { s.csr with parallelism := clampPar P v } }
  | .flags => { s with csr := { s.csr with flags := v } }
  | .keepaliveMs => { s with csr := { s.csr with keepaliveMs := v } }
  | .sizeHint => { s with csr := { s.csr with sizeHint := v } }
  | .version => s
  | .cmdStatus => s
  | .encState => s
  | .encSrcBytes => s
  | .encOutBytes => s
  | .encChunks => s
  | .encElided => s
  | .decState => s
  | .decErrors => s
  | .decWarnings => s
  | .decTotalBytes => s
  | .decCursor => s
  | .decOutLen => s
  | .decBuffered => s
  | .decFinalSeen => s

end Sys2Proof.Machine
end

