-- ==== Sys2Proof/WellFormed.lean ====
section
/-! DEFINITION. The static checks: which command words keep their reserved fields (spec/30_encoding.md R140, R148), which operands
fit a command whatever the parameters are (R145, R203, R229, R230), which signatures are legal (spec/00_scope.md R14), and the invariant DOC gives for a
BlockHeader (spec/10_state.md R66). A term of `Instr` needs no check: the only operand in a word, the CSR address, is 12
bits wide by its type (R140, R146). -/

namespace Sys2Proof

/-- The RSV field of a command word is 0 (R140). -/
def wordRsvZero (w : BitVec 32) : Bool := w.extractLsb' 12 12 == 0

/-- The UNIT field of a command word is one of 0..4 (R140). -/
def wordUnitKnown (w : BitVec 32) : Bool := (w.extractLsb' 28 4).toNat ≤ 4

/-- The checks a word passes whatever its operation (R140, R148). -/
def wordWellFormed (w : BitVec 32) : Bool := wordRsvZero w && wordUnitKnown w

/-- A key operand fits a command of form K: 64 bytes (R203). -/
def keyFits (key : Bytes) : Bool := key.length == keyLen

/-- A frame operand fits FR.PARSE: 4096 bytes (R229). -/
def frameFits (data : Bytes) : Bool := data.length == frameSize

/-- A header operand fits the kind a FR.SER command names (R226, R230). -/
def recordFits : Kind → Option Header → Bool
  | .first, some (.first _) => true
  | .block, some (.block _) => true
  | .final, some (.final _) => true
  | _, _ => false

/-- The signature strings are legal: one length, at most 4000, pairwise distinct, printable ASCII (R14). -/
def signaturesWellFormed (first block final : Bytes) : Bool :=
  block.length == first.length && final.length == first.length && decide (first.length ≤ 4000) &&
    first != block && first != final && block != final &&
    (first ++ block ++ final).all fun x => decide (0x20 ≤ x.toNat) && decide (x.toNat ≤ 0x7E)

/-- DOC's BlockHeader invariant: all sizes and positions ≥ 0, and destDataSizeWithoutPadding ≤ destDataSize (R66). ENC
produces only records that meet it. DEC does not reject by it: its sanity check is another (R309). -/
def BlockHeader.wellFormed (h : BlockHeader) : Bool :=
  decide (0 ≤ h.chunkIndex.toInt) && decide (0 ≤ h.destDataSize.toInt) &&
    decide (0 ≤ h.destDataSizeWithoutPadding.toInt) && decide (0 ≤ h.srcDataPosition.toInt) &&
    decide (0 ≤ h.srcDataLength.toInt) && decide (h.destDataSizeWithoutPadding.toInt ≤ h.destDataSize.toInt)

end Sys2Proof
end

