-- ==== Sys2Proof/Machine/Operands.lean ====
section
/-! DEFINITION. The operand forms (spec/30_encoding.md R145, R146): which form each command has, and how a command takes
each operand from the transaction. Any operand the form does not name is ignored. -/

namespace Sys2Proof.Machine

/-- The operand form of each command (R142). -/
def formOf : Instr → Form
  | .nop => .N
  | .csrRd _ => .N
  | .csrWr _ => .V
  | .scEnc => .K
  | .scDec => .K
  | .frSerFirst => .H
  | .frSerBlock => .H
  | .frSerFinal => .H
  | .frParse => .D
  | .encInit => .D
  | .encWrite => .D
  | .encFinal => .N
  | .decInit => .D
  | .decFeed => .D
  | .decFinal => .N

/-- Form V: `value`, a u64 (R145). -/
def operandValue (o : Operands) : U64 := o.value

/-- Form K: `key`, where it is 64 bytes long (R145, R203). -/
def operandKey (o : Operands) : Option Key := FixedBytes.ofBytes 64 o.key

/-- Form K: `sector`, an unsigned 64-bit tweak (R145, R146). -/
def operandSector (o : Operands) : U64 := o.sector

/-- Forms K and D: `data` (R145). -/
def operandData (o : Operands) : Bytes := o.data

/-- Form H: `hdr`, where it is a record of the kind the opcode names (R145, R230). -/
def operandRecord (o : Operands) : (k : Kind) → Option k.Record
  | .first => match o.hdr with
    | some (.first h) => some h
    | _ => none
  | .block => match o.hdr with
    | some (.block h) => some h
    | _ => none
  | .final => match o.hdr with
    | some (.final h) => some h
    | _ => none

/-- The operands a command of this form does not name, put at their defaults: what such a command can see of a
transaction (R145). -/
def operandsOfForm : Form → Operands → Operands
  | .N, _ => Operands.none
  | .V, o => { Operands.none with value := o.value }
  | .K, o => { Operands.none with key := o.key, sector := o.sector, data := o.data }
  | .H, o => { Operands.none with hdr := o.hdr }
  | .D, o => { Operands.none with data := o.data }

end Sys2Proof.Machine
end

