-- ==== Sys2Proof/Machine/Cipher.lean ====
section
/-! DEFINITION. The Sector Cipher Unit (spec/41_sector_cipher.md): the primitive TC where it is defined (R200), and the
commands SC.ENC and SC.DEC. -/

namespace Sys2Proof.Machine

/-- `TC_ENC(key, sector, data)`, defined exactly when len(data) ∈ TC_DOMAIN (R200). -/
def tcEncrypt (P : Params) (k : Key) (sector : U64) (d : Bytes) : Option Bytes :=
  if P.tcDomain d.length then some (P.tcEnc k sector d) else none

/-- `TC_DEC(key, sector, data)`, defined exactly when len(data) ∈ TC_DOMAIN (R200). -/
def tcDecrypt (P : Params) (k : Key) (sector : U64) (d : Bytes) : Option Bytes :=
  if P.tcDomain d.length then some (P.tcDec k sector d) else none

/-- The answer of a cipher command: the buffer, or BAD_OPERAND where the primitive is not defined (R203, R204). -/
def cipherAnswer (r : Option Bytes) (s : State) : State :=
  match r with
  | none => completeStatus .badOperand s
  | some d => complete { statusResponse .ok with data := d } s

/-- SC.ENC with given parameters (R203). -/
def scEnc (P : Params) (s : State) : State :=
  match operandKey s.ops with
  | none => completeStatus .badOperand s
  | some k => cipherAnswer (tcEncrypt P k (operandSector s.ops) (operandData s.ops)) s

/-- SC.DEC with given parameters (R204). -/
def scDec (P : Params) (s : State) : State :=
  match operandKey s.ops with
  | none => completeStatus .badOperand s
  | some k => cipherAnswer (tcDecrypt P k (operandSector s.ops) (operandData s.ops)) s

/-- SC.ENC (R203). -/
def execScEnc (s : State) : Host.Outcome State Fault Refusal := .next (scEnc Config.params s)

/-- SC.DEC (R204). -/
def execScDec (s : State) : Host.Outcome State Fault Refusal := .next (scDec Config.params s)

end Sys2Proof.Machine
end

