-- ==== Sys2Proof/Machine/Control.lean ====
section
/-! DEFINITION. The control commands (spec/45_control.md): NOP, CSR.RD and CSR.WR. -/

namespace Sys2Proof.Machine

/-- NOP (R360): the response is OK and CMD_STATUS is not updated. -/
def execNop (s : State) : Host.Outcome State Fault Refusal := .next (answer (statusResponse .ok) s)

/-- CSR.RD (R361): CMD_STATUS is not updated, whatever the answer. -/
def execCsrRd (csra : CsrAddr) (s : State) : Host.Outcome State Fault Refusal :=
  match csrAt csra with
  | none => .next (answer (statusResponse .badOperand) s)
  | some c => .next (answer { statusResponse .ok with value := readCsr s c } s)

/-- CSR.WR with given parameters (R362): the unmapped check comes before the read-only check (R403). -/
def csrWr (P : Params) (csra : CsrAddr) (s : State) : State :=
  match csrAt csra with
  | none => completeStatus .badOperand s
  | some c =>
    if csrAccess c = .ro then completeStatus .badOperand s
    else completeStatus .ok (writeCsr P c (operandValue s.ops) s)

/-- CSR.WR (R362). -/
def execCsrWr (csra : CsrAddr) (s : State) : Host.Outcome State Fault Refusal := .next (csrWr Config.params csra s)

end Sys2Proof.Machine
end

