-- ==== Sys2Proof/Machine/Frame.lean ====
section
/-! DEFINITION. The Frame Codec Unit (spec/42_frame_codec.md): SerFrame, ParseFrame, and the commands FR.SER.FIRST,
FR.SER.BLOCK, FR.SER.FINAL and FR.PARSE. The frame layout is that of spec/30_encoding.md R161. -/

namespace Sys2Proof.Machine

/-- The code of a header kind (R68, R160). -/
def kindCode : Kind → BitVec 8
  | .first => 1
  | .block => 2
  | .final => 3

/-- The longest body that fits in a frame: 4088 − SIG_LEN (R172). -/
def maxBody (P : Params) : Nat := 4088 - P.sigLen

/-- `SerFrame(k, h)` (R220); none is OVERFLOW (R221). -/
def serFrame (P : Params) (k : Kind) (h : k.Record) : Option Bytes :=
  let body := P.bodySer k h
  if maxBody P < body.length then none
  else some (P.sig k ++ crlf ++ body ++ crlf ++ crlf ++ zeros (maxBody P - body.length) ++ crlf)

/-- What ParseFrame finds (R222, R223). -/
inductive Verdict where
  | unrecognized
  | first (h : FirstHeader)
  | block (h : BlockHeader)
  | final (h : FinalHeader)
  | invalid
deriving DecidableEq, Repr

/-- The verdict of a record that parsed. -/
def verdictOf : (k : Kind) → k.Record → Verdict
  | .first, h => .first h
  | .block, h => .block h
  | .final, h => .final h

/-- The kind codes of ParseFrame (R223). -/
def verdictCode : Verdict → BitVec 8
  | .unrecognized => 0
  | .first _ => 1
  | .block _ => 2
  | .final _ => 3
  | .invalid => 4

/-- The record of a verdict (R222). -/
def verdictHdr : Verdict → Option Header
  | .unrecognized => none
  | .first h => some (.first h)
  | .block h => some (.block h)
  | .final h => some (.final h)
  | .invalid => none

/-- The kind whose signature a frame starts with (R222). -/
def signatureKind (P : Params) (f : Bytes) : Option Kind :=
  [Kind.first, Kind.block, Kind.final].find? fun k => slice f 0 P.sigLen == P.sig k

/-- The offset of the first CR at or after `lo` and before 4094: min J of R222. -/
def firstCr (f : Bytes) (lo : Nat) : Option Nat :=
  ((slice f lo 4094).findIdx? fun x => x == 0x0D).map fun i => lo + i

/-- `ParseFrame(f)` (R222), the checks in the order written. -/
def parseFrame (P : Params) (f : Bytes) : Verdict :=
  match signatureKind P f with
  | none => .unrecognized
  | some k =>
    let bodyAt := P.sigLen + 2
    if slice f P.sigLen bodyAt ≠ crlf then .invalid
    else if slice f 4094 4096 ≠ crlf then .invalid
    else match firstCr f bodyAt with
      | none => .invalid
      | some j =>
        if 4094 < j + 4 then .invalid
        else if slice f j (j + 4) ≠ crlf ++ crlf then .invalid
        else if ¬ allZero (slice f (j + 4) 4094) then .invalid
        else match P.bodyParse k (slice f bodyAt j) with
          | none => .invalid
          | some h => verdictOf k h

/-- A FR.SER command of kind `k` (R226 to R228): the operand must be a record of that kind, and its body must fit. -/
def frSer (P : Params) (k : Kind) (s : State) : State :=
  match operandRecord s.ops k with
  | none => completeStatus .badOperand s
  | some h =>
    match serFrame P k h with
    | none => completeStatus .serOverflow s
    | some f => complete { statusResponse .ok with data := f } s

/-- FR.SER.FIRST (R226). -/
def execFrSerFirst (s : State) : Host.Outcome State Fault Refusal := .next (frSer Config.params .first s)

/-- FR.SER.BLOCK (R227). -/
def execFrSerBlock (s : State) : Host.Outcome State Fault Refusal := .next (frSer Config.params .block s)

/-- FR.SER.FINAL (R228). -/
def execFrSerFinal (s : State) : Host.Outcome State Fault Refusal := .next (frSer Config.params .final s)

/-- FR.PARSE with given parameters (R229). -/
def frParse (P : Params) (s : State) : State :=
  if (operandData s.ops).length ≠ frameSize then completeStatus .badOperand s
  else
    let v := parseFrame P (operandData s.ops)
    complete { statusResponse .ok with kind := verdictCode v, hdr := verdictHdr v } s

/-- FR.PARSE (R229). -/
def execFrParse (s : State) : Host.Outcome State Fault Refusal := .next (frParse Config.params s)

end Sys2Proof.Machine
end

