-- ==== Sys2Proof/Machine/Decoder.lean ====
section
/-! DEFINITION. The Decode and integrity-check Sequencer (spec/44_decoder.md): the internal procedures Consume,
ParseLoop, AcceptFirst, DecodeChunk and RunBatch, and the commands DEC.INIT, DEC.FEED and DEC.FINAL. -/

namespace Sys2Proof.Machine

/-! ### DEC.INIT (R300) -/

/-- DEC as DEC.INIT leaves it (R300). -/
def openDecode (par : Nat) (pw : Bytes) : Dec where
  state := .awaitFirst
  fatal := none
  par := par
  password := pw
  first := none
  key := none
  final := none
  inBuf := []
  cursor := 0
  batch := []
  errors := 0
  warnings := 0
  totalBytes := 0
  outLen := 0
  trace := []

/-- DEC.INIT (R300). The IN stream starts anew (R101: its offsets count from DEC.INIT). -/
def execDecInit (s : State) : Host.Outcome State Fault Refusal :=
  if s.dec.state ≠ .idle then .next (completeStatus .badState s)
  else
    .next (completeStatus .ok
      { s with dec := openDecode s.csr.parallelism.toNat (operandData s.ops), input := [] })

/-! ### Batch decode (R314 to R329) -/

/-- The options DecodeChunk reads: DEC.first.encrypted and DEC.first.compressed (R316). DEC.first is never ⊥ in
STREAMING (R73); were it, both would read false (log entry 4). -/
def archiveFlags (d : Dec) : Bool × Bool :=
  match d.first with
  | some f => (f.encrypted, f.compressed)
  | none => (false, false)

/-- `DecodeChunk(h, p)` (R316): the bytes to write, none for NONE, and the soft events in order. -/
def decodeChunk (P : Params) (encrypted compressed : Bool) (key : Option Key) (h : BlockHeader) (p : Bytes) :
    Option Bytes × List SoftCause :=
  let placeholder := zeros h.srcDataLength.toInt.toNat
  if h.isEoF then (none, [])
  else if h.isAllZero then (some placeholder, [])
  else
    let ev := if P.sha1 p ≠ h.destSha1 then [SoftCause.destHashMismatch] else []
    match if encrypted then key.bind fun k => tcDecrypt P k h.srcDataPosition p else some p with
    | none => (some placeholder, ev ++ [.transformFail])
    | some d =>
      if (d.length : Int) < h.destDataSizeWithoutPadding.toInt then (some placeholder, ev ++ [.payloadBounds])
      else
        let d := d.take h.destDataSizeWithoutPadding.toInt.toNat
        match if compressed then P.decompress d else some d with
        | none => (some placeholder, ev ++ [.transformFail])
        | some d =>
          if (d.length : Int) ≠ h.srcDataLength.toInt then (some placeholder, ev ++ [.lengthMismatch])
          else (some d, ev ++ if P.sha1 d ≠ h.srcSha1 then [.srcHashMismatch] else [])

/-- DecodeChunk of one chunk of the batch. -/
def decodeEntry (P : Params) (d : Dec) (b : BatchEntry) : Option Bytes × List SoftCause :=
  decodeChunk P (archiveFlags d).1 (archiveFlags d).2 d.key b.hdr b.payload

/-- One decoded chunk goes out: its events are recorded, then its bytes are written at its position and counted
(R315). -/
def writeChunk (b : BatchEntry) (r : Option Bytes × List SoftCause) (p : DecPart) : Run DecStop DecPart Unit :=
  let d := recordEvents r.2 b.offset p.dec
  match r.1 with
  | none => .ok () { p with dec := d }
  | some v =>
    match sinkWrite p.sink b.hdr.srcDataPosition.toInt v with
    | none => .stop (.fault .sinkOutOfRange) { p with dec := d }
    | some m => .ok () { dec := { d with totalBytes := d.totalBytes + v.length }, sink := m }

/-- The decoded chunks of a batch go out in stream order (R315, R317). -/
def writeAll : List (BatchEntry × (Option Bytes × List SoftCause)) → DecPart → Run DecStop DecPart Unit
  | [], p => .ok () p
  | c :: cs, p => (writeChunk c.1 c.2 p).bind fun _ p => writeAll cs p

/-- `RunBatch()` (R315): every chunk is decoded before any is written. -/
def runBatch (P : Params) (p : DecPart) : Run DecStop DecPart Unit :=
  (writeAll (p.dec.batch.map fun b => (b, decodeEntry P p.dec b)) p).bind fun _ p =>
    .ok () { p with dec := { p.dec with batch := [] } }

/-! ### The parse loop (R302 to R313) -/

/-- `Consume(n)` (R302). -/
def consume (n : Nat) (d : Dec) : Dec := { d with inBuf := d.inBuf.drop n, cursor := d.cursor + n }

/-- BlockHeader sanity (R309). -/
def sane (h : BlockHeader) : Bool :=
  decide (0 ≤ h.chunkIndex.toInt) && decide (0 ≤ h.destDataSize.toInt) &&
    decide (0 ≤ h.destDataSizeWithoutPadding.toInt) && decide (0 ≤ h.srcDataPosition.toInt) &&
    decide (0 ≤ h.srcDataLength.toInt) &&
    decide (h.srcDataPosition.toInt + h.srcDataLength.toInt ≤ 2 ^ 63 - 1)

/-- The password checks of AcceptFirst: the master secret, or the fatal condition (R305). An archive that is not
encrypted has none. -/
def unwrapKey (P : Params) (h : FirstHeader) (pw : Bytes) : Except DecFatal (Option Key) :=
  if h.encrypted then
    if ¬ P.pwVerify h.saltedPassword pw then .error .badPassword
    else match (P.pwUnseal h.wrappedMasterKey pw).bind (FixedBytes.ofBytes 64) with
      | none => .error .unwrapFail
      | some k => .ok (some k)
  else .ok none

/-- `AcceptFirst(k, h)` (R305), the checks in the order written. -/
def acceptFirst (P : Params) (v : Verdict) (d : Dec) : Except DecFatal Dec :=
  match v with
  | .first h =>
    if h.version ≠ formatVersion then .error .badVersion
    else match unwrapKey P h d.password with
      | .error c => .error c
      | .ok k =>
        .ok (consume frameSize { d with
          key := if h.encrypted then k else d.key
          first := some h
          state := .streaming })
  | .unrecognized => .error .noFirstHeader
  | .block _ => .error .noFirstHeader
  | .final _ => .error .noFirstHeader
  | .invalid => .error .noFirstHeader

/-- A frame-level error: recorded at the cursor, which moves past the frame (R306, R309, R331). -/
def skipFrame (c : SoftCause) (d : Dec) : Dec := consume frameSize (recordEvent c d.cursor d)

/-- The logical output length after a sane BlockHeader (R318). -/
def raiseOutLen (h : BlockHeader) (d : Dec) : Dec :=
  { d with outLen := max d.outLen (h.srcDataPosition.toInt + h.srcDataLength.toInt).toNat }

/-- A chunk joins the batch and the cursor moves past its payload (R311). -/
def enqueue (h : BlockHeader) (d : Dec) : Dec :=
  consume (frameSize + h.destDataSize.toInt.toNat)
    { d with batch := d.batch ++
      [⟨h, slice d.inBuf frameSize (frameSize + h.destDataSize.toInt.toNat), d.cursor⟩] }

/-- A BlockHeader frame in STREAMING (R304, R309 to R311, R314, R331): `true` asks for the next frame, `false` waits for
more input. -/
def parseBlock (P : Params) (final : Bool) (h : BlockHeader) (p : DecPart) : Run DecStop DecPart Bool :=
  if ¬ sane h then .ok true { p with dec := skipFrame .insaneHeader p.dec }
  else
    let d := raiseOutLen h p.dec
    if d.inBuf.length < frameSize + h.destDataSize.toInt.toNat then
      if ¬ final then .ok false { p with dec := d }
      else .ok true { p with dec := skipFrame .incompletePayload d }
    else
      let p := { p with dec := enqueue h d }
      if p.dec.batch.length = p.dec.par then (runBatch P p).bind fun _ p => .ok true p
      else .ok true p

/-- A frame in STREAMING (R304, R306 to R308). -/
def parseStreaming (P : Params) (final : Bool) (v : Verdict) (p : DecPart) : Run DecStop DecPart Bool :=
  match v with
  | .unrecognized => .ok true { p with dec := skipFrame .corruptFrame p.dec }
  | .invalid => .ok true { p with dec := skipFrame .corruptFrame p.dec }
  | .first _ => .ok true { p with dec := consume frameSize p.dec }
  | .final h =>
    .ok true { p with dec := consume frameSize { p.dec with final := some (p.dec.final.getD h) } }
  | .block h => parseBlock P final h p

/-- One turn of the parse loop, with a full frame buffered (R304). -/
def parseTurn (P : Params) (final : Bool) (p : DecPart) : Run DecStop DecPart Bool :=
  let v := parseFrame P (p.dec.inBuf.take frameSize)
  if p.dec.state = .awaitFirst then
    match acceptFirst P v p.dec with
    | .error c => .stop (.fatal c) p
    | .ok d => .ok true { p with dec := d }
  else parseStreaming P final v p

/-- At most `n` turns of the parse loop. -/
def parseTurns (P : Params) (final : Bool) : Nat → DecPart → Run DecStop DecPart Unit
  | 0, p => .ok () p
  | n + 1, p =>
    if p.dec.inBuf.length < frameSize then .ok () p
    else (parseTurn P final p).bind fun more p => if more then parseTurns P final n p else .ok () p

/-- `ParseLoop(final)` (R304). A turn that asks for another one consumes at least 4096 bytes (R471), so one turn more
than the buffer holds frames is enough. -/
def parseLoop (P : Params) (final : Bool) (p : DecPart) : Run DecStop DecPart Unit :=
  parseTurns P final (p.dec.inBuf.length / frameSize + 1) p

/-! ### DEC.FEED and DEC.FINAL -/

/-- Whether DEC takes input: AWAIT_FIRST or STREAMING (R303, R364). -/
def decRunning (d : Dec) : Bool := d.state == .awaitFirst || d.state == .streaming

/-- The end of a command of DEC whose procedures ran: OK, the fatal entry (R410), or the fault of a SINK access. -/
def decEnd (r : Run DecStop DecPart Unit) (s : State) : Host.Outcome State Fault Refusal :=
  match r with
  | .ok _ p => .next (completeStatus .ok (setDecPart p s))
  | .stop (.fatal c) p => .next (enterFatalDec c (setDecPart p s))
  | .stop (.fault f) _ => .fault f

/-- The fed bytes join the IN stream and the input buffer (R103, R303). -/
def takeInput (b : Bytes) (s : State) : State :=
  { s with input := s.input ++ b, dec := { s.dec with inBuf := s.dec.inBuf ++ b } }

/-- DEC.FEED with given parameters (R303). -/
def decFeed (P : Params) (s : State) : Host.Outcome State Fault Refusal :=
  if ¬ decRunning s.dec then .next (completeStatus .badState s)
  else
    let s := takeInput (operandData s.ops) s
    decEnd (parseLoop P false (decPart s)) s

/-- DEC.FEED (R303). -/
def execDecFeed (s : State) : Host.Outcome State Fault Refusal := decFeed Config.params s

/-- Leftover bytes below one frame are one error and are discarded; the cursor stays (R332). -/
def dropTail (d : Dec) : Dec :=
  if d.inBuf.isEmpty then d else { recordEvent .incompleteTail d.cursor d with inBuf := [] }

/-- The end of a decode (R330, R334, R335): the FinalHeader must have been seen, outLen is raised to totalSourceSize, and
the whole output's hash is compared. -/
def closeDecode (P : Params) (p : DecPart) : Run DecStop DecPart Unit :=
  match p.dec.final with
  | none => .stop (.fatal .truncated) p
  | some f =>
    let d := if 0 ≤ f.totalSourceSize.toInt then
      { p.dec with outLen := max p.dec.outLen f.totalSourceSize.toInt.toNat } else p.dec
    match sinkRead p.sink 0 d.outLen with
    | none => .stop (.fault .sinkOutOfRange) { p with dec := d }
    | some out =>
      let d := if P.sha1 out ≠ f.sourceSha1 then recordEvent .finalHashMismatch d.cursor d else d
      .ok () { p with dec := { d with state := .finalized } }

/-- DEC.FINAL after the parse loop (R330, R332, R333): the tail, the pending batch, the end. -/
def drainDecode (P : Params) (p : DecPart) : Run DecStop DecPart Unit :=
  if p.dec.state = .awaitFirst then .stop (.fatal .noFirstHeader) p
  else
    let p := { p with dec := dropTail p.dec }
    if p.dec.batch.isEmpty then closeDecode P p
    else (runBatch P p).bind fun _ p => closeDecode P p

/-- The procedure of DEC.FINAL in AWAIT_FIRST and STREAMING (R330). -/
def finishDecode (P : Params) (p : DecPart) : Run DecStop DecPart Unit :=
  (parseLoop P true p).bind fun _ p => drainDecode P p

/-- DEC.FINAL with given parameters (R330): in FINALIZED it returns OK and does nothing. -/
def decFinal (P : Params) (s : State) : Host.Outcome State Fault Refusal :=
  if s.dec.state = .finalized then .next (completeStatus .ok s)
  else if ¬ decRunning s.dec then .next (completeStatus .badState s)
  else decEnd (finishDecode P (decPart s)) s

/-- DEC.FINAL (R330). -/
def execDecFinal (s : State) : Host.Outcome State Fault Refusal := decFinal Config.params s

end Sys2Proof.Machine
end

