-- ==== Sys2Proof/Machine/Encoder.lean ====
section
/-! DEFINITION. The Encode Sequencer (spec/43_encoder.md): the internal procedures Slices, Transform, FrameChunk and
Flush, zero-run elision, and the commands ENC.INIT, ENC.WRITE and ENC.FINAL. -/

namespace Sys2Proof.Machine

/-! ### ENC.INIT (R251 to R254) -/

/-- The FirstHeader ENC.INIT builds (R251), from the NOW value, the password token and the wrapped key. -/
def buildFirst (P : Params) (cfg : EncCfg) (token wrapped : Bytes) (t : I64) : FirstHeader where
  version := formatVersion
  encrypted := cfg.encrypt
  compressed := cfg.compress
  saltedPassword := token
  wrappedMasterKey := wrapped
  sourceSizeHint := cfg.sizeHint
  timestamp := t
  hostname := P.hostname

/-- The options ENC.INIT copies from the CSRs (R251, R75). -/
def sampleOptions (c : Csrs) : EncCfg where
  encrypt := optEncrypt c.opt
  compress := optCompress c.opt
  level := optLevel c.opt
  par := c.parallelism.toNat
  keepAlive := c.keepaliveMs
  sizeHint := c.sizeHint

/-- Whether the options meet DOC's invariant: ENCRYPT or COMPRESS, and a level with COMPRESS (R251). -/
def optionsLegal (cfg : EncCfg) : Bool :=
  (cfg.encrypt || cfg.compress) && !(cfg.compress && cfg.level == 0)

/-- How many RAND bytes an ENC.INIT draws: the key, and with encryption the password primitives' draws (R251, R285). -/
def initDraws (P : Params) (cfg : EncCfg) : Nat := 64 + if cfg.encrypt then P.pwSalt + P.sealRnd else 0

/-- ENC as ENC.INIT leaves it (R251). The draws are taken in the order written: RAND(64) for the key, NOW, and with
encryption RAND(PW_SALT) and RAND(SEAL_RND). -/
def openArchive (P : Params) (cfg : EncCfg) (pw : Bytes) (p : EncPart) : EncPart :=
  let key := randKey P p.randDraws
  let t0 := P.now p.nowDraws
  let token := if cfg.encrypt then P.pwToken pw (randBytes P (p.randDraws + 64) P.pwSalt) else []
  let wrapped :=
    if cfg.encrypt then P.pwSeal key pw (randBytes P (p.randDraws + 64 + P.pwSalt) P.sealRnd) else []
  { p with
    enc := {
      state := .active
      fatal := none
      cfg := cfg
      key := some key
      first := some (buildFirst P cfg token wrapped t0)
      firstEmitted := false
      inBuf := []
      srcLog := []
      outLog := []
      srcPos := 0
      nextIdx := 0
      destContent := 0
      prevAllZero := false
      lastFrameTime := t0
      elided := 0
      final := none }
    nowDraws := p.nowDraws + 1
    randDraws := p.randDraws + initDraws P cfg }

/-- ENC.INIT with given parameters (R251). -/
def encInit (P : Params) (s : State) : State :=
  if s.enc.state ≠ .idle then completeStatus .badState s
  else if optionsLegal (sampleOptions s.csr) then
    completeStatus .ok (setEncPart (openArchive P (sampleOptions s.csr) (operandData s.ops) (encPart s)) s)
  else completeStatus .badOperand s

/-- ENC.INIT (R251). -/
def execEncInit (s : State) : Host.Outcome State Fault Refusal := .next (encInit Config.params s)

/-! ### Chunks (R260 to R267) -/

/-- `Slices(b)` (R260). -/
def slices (P : Params) (b : Bytes) : List Bytes :=
  (List.range (ceilDiv b.length P.chunkSize)).map fun i => slice b (i * P.chunkSize) ((i + 1) * P.chunkSize)

/-- `Transform(s, p, i)` (R266) with the options and key of ENC, drawing its pad from RAND byte `r` on: the header and
payload, none for `fail`, and the next RAND byte. The timestamp is set by FrameChunk. TC_ENC always has a result, since
the padded length is in TC_DOMAIN (R267); were there none, the transform fails (D31). -/
def transform (P : Params) (cfg : EncCfg) (key : Option Key) (s : Bytes) (pos idx : Int) (r : Nat) :
    Option (BlockHeader × Bytes) × Nat :=
  let h : BlockHeader := {
    chunkIndex := toI64 P idx
    destDataSize := 0
    destDataSizeWithoutPadding := 0
    srcDataPosition := toI64 P pos
    srcDataLength := toI64 P s.length
    srcSha1 := P.sha1 s
    destSha1 := P.sha1 []
    isAllZero := true
    isEoF := false
    timestamp := 0 }
  if allZero s then (some (h, []), r)
  else
    match if cfg.compress then P.compress (P.compLevels cfg.level) s else some s with
    | none => (none, r)
    | some c =>
      let n := roundup c.length padAlign - c.length
      let padded := c ++ if cfg.encrypt then randBytes P r n else zeros n
      let r := if cfg.encrypt then r + n else r
      match if cfg.encrypt then key.bind fun k => tcEncrypt P k h.srcDataPosition padded else some padded with
      | none => (none, r)
      | some d =>
        (some ({ h with
          isAllZero := false
          destDataSize := toI64 P d.length
          destDataSizeWithoutPadding := toI64 P c.length
          destSha1 := P.sha1 d }, d), r)

/-- Transform of every slice of a batch, in slice order: slice i at position pos + i × CHUNK_SIZE with index idx + i
(R258). -/
def transformAll (P : Params) (cfg : EncCfg) (key : Option Key) :
    List Bytes → Int → Int → Nat → List (Option (BlockHeader × Bytes)) × Nat
  | [], _, _, r => ([], r)
  | s :: ss, pos, idx, r =>
    let (c, r) := transform P cfg key s pos idx r
    let (cs, r) := transformAll P cfg key ss (pos + P.chunkSize) (idx + 1) r
    (c :: cs, r)

/-- Every result, or none if some of them failed (R258). -/
def collectSome {α : Type} : List (Option α) → Option (List α)
  | [] => some []
  | none :: _ => none
  | some a :: l => (collectSome l).map fun l => a :: l

/-! ### Framing and zero-run elision (R269 to R275) -/

/-- The elision predicate (R272), in exact integer arithmetic. -/
def elide (h : BlockHeader) (t : I64) (e : Enc) : Bool :=
  h.isAllZero && e.prevAllZero && decide (t.toInt - e.lastFrameTime.toInt < e.cfg.keepAlive.toInt)

/-- What ENC notes of every data chunk, framed or elided (R269). -/
def noteChunk (P : Params) (h : BlockHeader) (e : Enc) : Enc :=
  { e with
    prevAllZero := h.isAllZero
    destContent := toI64 P (e.destContent.toInt + h.destDataSizeWithoutPadding.toInt) }

/-- `FrameChunk(h, d)` (R269): the bytes the chunk puts on OUT, none of them where it is elided. -/
def frameChunk (P : Params) (h : BlockHeader) (d : Bytes) (p : EncPart) : Run EncFatal EncPart Bytes :=
  let t := P.now p.nowDraws
  let p := nowDrawn p
  if elide h t p.enc then
    .ok [] { p with enc := noteChunk P h { p.enc with elided := p.enc.elided + 1 } }
  else
    match serFrame P .block { h with timestamp := t } with
    | none => .stop .hdrOverflow p
    | some fb => .ok (fb ++ d) { p with enc := noteChunk P h { p.enc with lastFrameTime := t } }

/-- FrameChunk of every chunk of a batch in slice order, their output after `acc` (R258). -/
def frameAll (P : Params) : List (BlockHeader × Bytes) → Bytes → EncPart → Run EncFatal EncPart Bytes
  | [], acc, p => .ok acc p
  | c :: cs, acc, p => (frameChunk P c.1 c.2 p).bind fun out p => frameAll P cs (acc ++ out) p

/-! ### Flush (R258, R259, R268) -/

/-- The FirstHeader frames, twice, at the first Flush of an archive (R259). -/
def emitFirst (P : Params) (p : EncPart) : Run EncFatal EncPart Unit :=
  if p.enc.firstEmitted then .ok () p
  else
    match p.enc.first.bind fun h => serFrame P .first h with
    | none => .stop .hdrOverflow p
    | some ff =>
      let p := outAppend ff (outAppend ff p)
      .ok () { p with enc := { p.enc with firstEmitted := true } }

/-- The state after a batch: every buffered byte is cut into chunks (R258). -/
def batchDone (P : Params) (n : Nat) (p : EncPart) : EncPart :=
  { p with enc := { p.enc with
    srcPos := toI64 P (p.enc.srcPos.toInt + p.enc.inBuf.length)
    nextIdx := toI64 P (p.enc.nextIdx.toInt + n)
    inBuf := [] } }

/-- The block part of Flush: transform, frame, and append the batch only after every chunk is framed (R258, R268). -/
def flushBatch (P : Params) (p : EncPart) : Run EncFatal EncPart Unit :=
  let ss := slices P p.enc.inBuf
  let (rs, r) := transformAll P p.enc.cfg p.enc.key ss p.enc.srcPos.toInt p.enc.nextIdx.toInt p.randDraws
  let p := { p with randDraws := r }
  match collectSome rs with
  | none => .stop .primitiveFail p
  | some cs =>
    (frameAll P cs [] p).bind fun out p => .ok () (batchDone P ss.length (outAppend out p))

/-- `Flush()` (R258). -/
def flush (P : Params) (p : EncPart) : Run EncFatal EncPart Unit :=
  (emitFirst P p).bind fun _ p => flushBatch P p

/-! ### ENC.WRITE and ENC.FINAL -/

/-- One source byte is buffered and logged (R256). -/
def bufferByte (x : Byte) (p : EncPart) : EncPart :=
  { p with enc := { p.enc with inBuf := p.enc.inBuf ++ [x], srcLog := p.enc.srcLog ++ [x] } }

/-- The byte loop of ENC.WRITE: a Flush each time the buffer holds par × CHUNK_SIZE bytes (R256). -/
def acceptBytes (P : Params) : Bytes → EncPart → Run EncFatal EncPart Unit
  | [], p => .ok () p
  | x :: xs, p =>
    if (bufferByte x p).enc.inBuf.length = p.enc.cfg.par * P.chunkSize then
      (flush P (bufferByte x p)).bind fun _ p => acceptBytes P xs p
    else acceptBytes P xs (bufferByte x p)

/-- The most source bytes an archive may have: 2^63 − 1 (R256). -/
def maxSource : Nat := 2 ^ 63 - 1

/-- The end of a command of ENC whose procedures ran: its response, or the fatal entry (R21, R410). -/
def encEnd {α : Type} (r : Run EncFatal EncPart α) (f : α → Response) (s : State) : State :=
  match r with
  | .ok a p => complete (f a) (setEncPart p s)
  | .stop c p => enterFatalEnc c (setEncPart p s)

/-- ENC.WRITE with given parameters (R256). -/
def encWrite (P : Params) (s : State) : State :=
  if s.enc.state ≠ .active then completeStatus .badState s
  else if maxSource < s.enc.srcLog.length + (operandData s.ops).length then completeStatus .badOperand s
  else encEnd (acceptBytes P (operandData s.ops) (encPart s)) (fun _ => statusResponse .ok) s

/-- ENC.WRITE (R256). -/
def execEncWrite (s : State) : Host.Outcome State Fault Refusal := .next (encWrite Config.params s)

/-- The EoF header ENC.FINAL emits (R277). -/
def eofHeader (P : Params) (e : Enc) (t : I64) : BlockHeader where
  chunkIndex := e.nextIdx
  destDataSize := 0
  destDataSizeWithoutPadding := 0
  srcDataPosition := e.srcPos
  srcDataLength := 0
  srcSha1 := P.sha1 []
  destSha1 := P.sha1 []
  isAllZero := false
  isEoF := true
  timestamp := t

/-- The FinalHeader ENC.FINAL emits (R277, R279); `fe` is the EoF frame. -/
def finalHeader (P : Params) (e : Enc) (first : FirstHeader) (fe : Bytes) (t : I64) : FinalHeader where
  chunkCount := e.nextIdx
  totalSourceSize := e.srcPos
  destContentSize := e.destContent
  destPhysicalSize := toI64 P (e.outLog.length + frameSize)
  sourceSha1 := P.sha1 e.srcLog
  destSha1 := P.sha1 (e.outLog ++ fe)
  timestamp := t
  firstHeader := first

/-- ENC.FINAL after its Flush: the EoF frame and the FinalHeader frame twice (R277). -/
def closeArchive (P : Params) (p : EncPart) : Run EncFatal EncPart FinalHeader :=
  let t := P.now p.nowDraws
  let p := nowDrawn p
  match serFrame P .block (eofHeader P p.enc t), p.enc.first with
  | some fe, some first =>
    let fin := finalHeader P p.enc first fe t
    match serFrame P .final fin with
    | none => .stop .hdrOverflow p
    | some fz =>
      let p := outAppend fz (outAppend fz (outAppend fe p))
      .ok fin { p with enc := { p.enc with final := some fin, state := .finalized } }
  | _, _ => .stop .hdrOverflow p

/-- The procedure of ENC.FINAL in ACTIVE (R277). -/
def finishArchive (P : Params) (p : EncPart) : Run EncFatal EncPart FinalHeader :=
  (flush P p).bind fun _ p => closeArchive P p

/-- The response of an ENC.FINAL that is OK: the FinalHeader (R141, R277). -/
def finalResponse (h : Option FinalHeader) : Response :=
  { statusResponse .ok with hdr := h.map .final }

/-- ENC.FINAL with given parameters (R277): in FINALIZED it returns the FinalHeader again and emits nothing. -/
def encFinal (P : Params) (s : State) : State :=
  match s.enc.state with
  | .finalized => complete (finalResponse s.enc.final) s
  | .active => encEnd (finishArchive P (encPart s)) (fun h => finalResponse (some h)) s
  | .idle => completeStatus .badState s
  | .failed => completeStatus .badState s

/-- ENC.FINAL (R277). -/
def execEncFinal (s : State) : Host.Outcome State Fault Refusal := .next (encFinal Config.params s)

end Sys2Proof.Machine
end

