-- ==== Sys2Proof/Machine/Dispatch.lean ====
section
/-! DEFINITION. The meaning of each command, one arm a constructor. -/

namespace Sys2Proof.Machine

def exec (i : Instr) (s : State) : Host.Outcome State Fault Refusal :=
  match i with
  | .nop => Sys2Proof.Machine.execNop s
  | .csrRd csra => Sys2Proof.Machine.execCsrRd csra s
  | .csrWr csra => Sys2Proof.Machine.execCsrWr csra s
  | .scEnc => Sys2Proof.Machine.execScEnc s
  | .scDec => Sys2Proof.Machine.execScDec s
  | .frSerFirst => Sys2Proof.Machine.execFrSerFirst s
  | .frSerBlock => Sys2Proof.Machine.execFrSerBlock s
  | .frSerFinal => Sys2Proof.Machine.execFrSerFinal s
  | .frParse => Sys2Proof.Machine.execFrParse s
  | .encInit => Sys2Proof.Machine.execEncInit s
  | .encWrite => Sys2Proof.Machine.execEncWrite s
  | .encFinal => Sys2Proof.Machine.execEncFinal s
  | .decInit => Sys2Proof.Machine.execDecInit s
  | .decFeed => Sys2Proof.Machine.execDecFeed s
  | .decFinal => Sys2Proof.Machine.execDecFinal s

end Sys2Proof.Machine
end

