-- ==== Sys2Proof/Decode.lean ====
section
/-! DEFINITION. The command decoder (spec/30_encoding.md R142, R143, R148), total on every 32-bit word and refusing by
name, and after it the encoder. -/

namespace Sys2Proof

/-- Why a word is illegal (R148). Every reason ends the same way: the command completes with ILLEGAL_CMD. -/
inductive IllegalWord where
  /-- UNIT is one of 5..15. -/
  | reservedUnit
  /-- The OP is not assigned within UNIT 0..4. -/
  | unassignedOp
  /-- RSV ≠ 0. -/
  | rsvNotZero
  /-- CSRA ≠ 0 on a command other than CSR.RD and CSR.WR. -/
  | csraNotZero
deriving DecidableEq, Repr

/-- UNIT, bits 31..28 (R140). -/
def wordUnit (w : BitVec 32) : BitVec 4 := w.extractLsb' 28 4

/-- OP, bits 27..24 (R140). -/
def wordOp (w : BitVec 32) : BitVec 4 := w.extractLsb' 24 4

/-- RSV, bits 23..12 (R140). -/
def wordRsv (w : BitVec 32) : BitVec 12 := w.extractLsb' 12 12

/-- CSRA, bits 11..0 (R140, R146). -/
def wordCsra (w : BitVec 32) : CsrAddr := w.extractLsb' 0 12

/-- A row of the opcode map: the word, its mask, and the command it stands for with a CSR address in place. -/
structure OpcodeRow where
  word : BitVec 32
  mask : BitVec 32
  instr : CsrAddr → Instr

/-- The opcode map (R142), row by row. -/
def opcodeMap : List OpcodeRow := [
  ⟨0x00000000, 0xFFFFFFFF, fun _ => .nop⟩,
  ⟨0x01000000, 0xFFFFF000, .csrRd⟩,
  ⟨0x02000000, 0xFFFFF000, .csrWr⟩,
  ⟨0x11000000, 0xFFFFFFFF, fun _ => .scEnc⟩,
  ⟨0x12000000, 0xFFFFFFFF, fun _ => .scDec⟩,
  ⟨0x21000000, 0xFFFFFFFF, fun _ => .frSerFirst⟩,
  ⟨0x22000000, 0xFFFFFFFF, fun _ => .frSerBlock⟩,
  ⟨0x23000000, 0xFFFFFFFF, fun _ => .frSerFinal⟩,
  ⟨0x24000000, 0xFFFFFFFF, fun _ => .frParse⟩,
  ⟨0x31000000, 0xFFFFFFFF, fun _ => .encInit⟩,
  ⟨0x32000000, 0xFFFFFFFF, fun _ => .encWrite⟩,
  ⟨0x33000000, 0xFFFFFFFF, fun _ => .encFinal⟩,
  ⟨0x41000000, 0xFFFFFFFF, fun _ => .decInit⟩,
  ⟨0x42000000, 0xFFFFFFFF, fun _ => .decFeed⟩,
  ⟨0x43000000, 0xFFFFFFFF, fun _ => .decFinal⟩]

/-- The row matches the word: `(w AND r.mask) = r.word` (R143). -/
def OpcodeRow.hits (r : OpcodeRow) (w : BitVec 32) : Bool := w &&& r.mask == r.word

/-- Whether some command has this UNIT and OP (R142). -/
def opAssigned (w : BitVec 32) : Bool :=
  opcodeMap.any fun r => wordUnit r.word == wordUnit w && wordOp r.word == wordOp w

/-- The reason a word that matches no row is illegal, the first of R148's list that holds of it. -/
def illegalReason (w : BitVec 32) : IllegalWord :=
  if ¬ (wordUnit w).toNat ≤ 4 then .reservedUnit
  else if ¬ opAssigned w then .unassignedOp
  else if wordRsv w ≠ 0 then .rsvNotZero
  else .csraNotZero

/-- `Decode` of R143: the first row of the opcode map that matches. -/
def decode (w : BitVec 32) : Except IllegalWord Instr :=
  match opcodeMap.find? fun r => r.hits w with
  | some r => .ok (r.instr (wordCsra w))
  | none => .error (illegalReason w)

/-- The command word as the decoder reads it for the host: an instruction of `nbits` bits, `w`, is one 32-bit word
(R140, R144), the bits above `nbits` zero; more than 32 bits are no command word. -/
def decodeTableWord (nbits w : Nat) : Option Instr :=
  if nbits ≤ 32 then (decode (BitVec.ofNat 32 (w % 2 ^ nbits))).toOption else none

/-- The word of a command (R142). -/
def encode : Instr → BitVec 32
  | .nop => 0x00000000
  | .csrRd a => 0x01000000 ||| a.zeroExtend 32
  | .csrWr a => 0x02000000 ||| a.zeroExtend 32
  | .scEnc => 0x11000000
  | .scDec => 0x12000000
  | .frSerFirst => 0x21000000
  | .frSerBlock => 0x22000000
  | .frSerFinal => 0x23000000
  | .frParse => 0x24000000
  | .encInit => 0x31000000
  | .encWrite => 0x32000000
  | .encFinal => 0x33000000
  | .decInit => 0x41000000
  | .decFeed => 0x42000000
  | .decFinal => 0x43000000

end Sys2Proof
end

