-- ==== Sys2Proof/Machine/Fetch.lean ====
section
/-! DEFINITION. The command port (spec/20_memory.md R100, R119; spec/45_control.md R355): taking the next command of the
host, and the answer to an illegal word. -/

namespace Sys2Proof.Machine

/-- The command `c` is taken from the port: the commands after it remain, and its operands are the ones in use (R141). -/
def acceptCommand (c : Command) (rest : List Command) (s : State) : State := { s with cmds := rest, ops := c.ops }

/-- An illegal word (R148, R355): ILLEGAL_CMD, CMD_STATUS 0x01, no other state changed. -/
def illegalCommand (s : State) : State := completeStatus .illegalCmd s

/-- A command word with no operands beside it, from the low `nbits` bits of `w` (R140: a word is 32 bits). -/
def tableCommand (nbits w : Nat) : Command := ⟨BitVec.ofNat 32 (w % 2 ^ nbits), Operands.none⟩

end Sys2Proof.Machine
end

