-- ==== Sys2Proof/Machine/Step.lean ====
section
/-! DEFINITION. The step (spec/45_control.md R355): one command from the CMD port, its response. -/

namespace Sys2Proof.Machine

/-- `Step(w, ops)` of R355. With no command issued the machine waits: the step changes nothing (R450, R471). -/
def step (s : State) : Host.Outcome State Fault Refusal :=
  match s.cmds with
  | [] => .next s
  | c :: rest =>
    match decode c.word with
    | .error _ => .next (illegalCommand (acceptCommand c rest s))
    | .ok i => exec i (acceptCommand c rest s)

/-- `s` with the command of `nbits` bits, `w`, and no operands, at the head of the CMD port: the next command step
takes. -/
def State.withFetchWord (s : State) (nbits w : Nat) : State := { s with cmds := tableCommand nbits w :: s.cmds }

end Sys2Proof.Machine
end

