-- ==== Sys2Proof/Machine/Rc1.lean ====
section
/-! DEFINITION. RC1, the reference instance of BODY_CODEC (spec/30_encoding.md R163 to R170), with HEX and UNHEX
(spec/00_scope.md R36). The machine runs with the unknown BODY_CODEC of `Config.params`, of which RC1 is one instance. -/

namespace Sys2Proof.Machine

/-- The ASCII codes of a text (R110, R163). -/
def ascii (t : String) : Bytes := t.toList.map fun c => BitVec.ofNat 8 c.toNat

/-! ### HEX and UNHEX (R36) -/

/-- The lowercase hexadecimal character of a nibble. -/
def hexDigit (n : Nat) : Byte := BitVec.ofNat 8 (if n < 10 then 0x30 + n else 0x61 + (n - 10))

/-- The nibble of a lowercase hexadecimal character. -/
def hexValue (x : Byte) : Option Nat :=
  if 0x30 ≤ x.toNat ∧ x.toNat ≤ 0x39 then some (x.toNat - 0x30)
  else if 0x61 ≤ x.toNat ∧ x.toNat ≤ 0x66 then some (x.toNat - 0x61 + 10)
  else none

/-- The two characters of a byte, most significant nibble first. -/
def hexPair (x : Byte) : Bytes := [hexDigit (x.toNat / 16), hexDigit (x.toNat % 16)]

/-- `HEX(b)`. -/
def toHex (b : Bytes) : Bytes := b.flatMap hexPair

/-- The byte of two hexadecimal characters. -/
def hexByte (hi lo : Byte) : Option Byte :=
  match hexValue hi, hexValue lo with
  | some h, some l => some (BitVec.ofNat 8 (16 * h + l))
  | _, _ => none

/-- `UNHEX(t)`: none unless `t` has even length and only the sixteen lowercase characters. -/
def unHex : Bytes → Option Bytes
  | [] => some []
  | [_] => none
  | hi :: lo :: t =>
    match hexByte hi lo, unHex t with
    | some x, some b => some (x :: b)
    | _, _ => none

/-! ### Writing (R163 to R168) -/

/-- A decimal digit's character. -/
def digitChar (d : Nat) : Byte := BitVec.ofNat 8 (0x30 + d)

/-- The canonical decimal text of a natural number: no leading zeros (R164). -/
def decimalNat (n : Nat) : Bytes := if n = 0 then [0x30] else ((Nat.digits 10 n).map digitChar).reverse

/-- The decimal text of an i64 (R164). -/
def rc1Int (v : I64) : Bytes :=
  if v.toInt < 0 then 0x2D :: decimalNat v.toInt.natAbs else decimalNat v.toInt.natAbs

/-- A boolean (R165). -/
def rc1Bool (b : Bool) : Bytes := if b then ascii "true" else ascii "false"

/-- `"` text `"`. -/
def rc1Quote (b : Bytes) : Bytes := 0x22 :: b ++ [0x22]

/-- ESC of one byte (R166). -/
def rc1Escape (x : Byte) : Bytes :=
  if x = 0x22 then [0x5C, 0x22]
  else if x = 0x5C then [0x5C, 0x5C]
  else if 0x20 ≤ x.toNat ∧ x.toNat ≤ 0x7E then [x]
  else [0x5C, 0x75, 0x30, 0x30] ++ hexPair x

/-- A text string (R166). -/
def rc1Text (b : Bytes) : Bytes := rc1Quote (b.flatMap rc1Escape)

/-- A hex field (R167). -/
def rc1Hex (b : Bytes) : Bytes := rc1Quote (toHex b)

/-- A member's name and colon (R163). -/
def rc1Name (name : String) : Bytes := rc1Quote (ascii name) ++ [0x3A]

/-- `{`, the members separated by `,`, `}` (R163). -/
def rc1Object (members : List (String × Bytes)) : Bytes :=
  0x7B :: ((members.map fun m => rc1Name m.1 ++ m.2).intersperse [0x2C]).flatten ++ [0x7D]

/-- The RC1 body of a FirstHeader, its fields in the order of R65. -/
def rc1SerFirst (h : FirstHeader) : Bytes := rc1Object [
  ("version", rc1Int h.version),
  ("encrypted", rc1Bool h.encrypted),
  ("compressed", rc1Bool h.compressed),
  ("saltedPassword", rc1Hex h.saltedPassword),
  ("wrappedMasterKey", rc1Hex h.wrappedMasterKey),
  ("sourceSizeHint", rc1Int h.sourceSizeHint),
  ("timestamp", rc1Int h.timestamp),
  ("hostname", rc1Text h.hostname)]

/-- The RC1 body of a BlockHeader, its fields in the order of R66. -/
def rc1SerBlock (h : BlockHeader) : Bytes := rc1Object [
  ("chunkIndex", rc1Int h.chunkIndex),
  ("destDataSize", rc1Int h.destDataSize),
  ("destDataSizeWithoutPadding", rc1Int h.destDataSizeWithoutPadding),
  ("srcDataPosition", rc1Int h.srcDataPosition),
  ("srcDataLength", rc1Int h.srcDataLength),
  ("srcSha1", rc1Hex h.srcSha1.val),
  ("destSha1", rc1Hex h.destSha1.val),
  ("isAllZero", rc1Bool h.isAllZero),
  ("isEoF", rc1Bool h.isEoF),
  ("timestamp", rc1Int h.timestamp)]

/-- The RC1 body of a FinalHeader, its fields in the order of R67, the nested FirstHeader as its own body (R168). -/
def rc1SerFinal (h : FinalHeader) : Bytes := rc1Object [
  ("chunkCount", rc1Int h.chunkCount),
  ("totalSourceSize", rc1Int h.totalSourceSize),
  ("destContentSize", rc1Int h.destContentSize),
  ("destPhysicalSize", rc1Int h.destPhysicalSize),
  ("sourceSha1", rc1Hex h.sourceSha1.val),
  ("destSha1", rc1Hex h.destSha1.val),
  ("timestamp", rc1Int h.timestamp),
  ("firstHeader", rc1SerFirst h.firstHeader)]

/-- `BODY_SER_RC1`. -/
def rc1Ser : (k : Kind) → k.Record → Bytes
  | .first, h => rc1SerFirst h
  | .block, h => rc1SerBlock h
  | .final, h => rc1SerFinal h

/-! ### Reading (R169)

Each reader takes the field at the head of the text and answers its value and the text after it. The readers find the
one record a body can stand for; `rc1Parse` then accepts the body only if that record serialises to it, so what the
readers let through beyond the canonical form is refused there. -/

/-- The text after a given head, where it starts with it. -/
def eat : Bytes → Bytes → Option Bytes
  | [], b => some b
  | _ :: _, [] => none
  | x :: p, y :: b => if x = y then eat p b else none

/-- Whether a byte is a decimal digit's character. -/
def isDigitChar (x : Byte) : Bool := decide (0x30 ≤ x.toNat) && decide (x.toNat ≤ 0x39)

/-- The number a run of decimal digits stands for. -/
def digitsValue (b : Bytes) : Nat := b.foldl (fun n x => 10 * n + (x.toNat - 0x30)) 0

/-- An integer field. -/
def readInt (b : Bytes) : Option (I64 × Bytes) :=
  match eat [0x2D] b with
  | some r =>
    if (r.takeWhile isDigitChar).isEmpty then none
    else some (BitVec.ofInt 64 (-(digitsValue (r.takeWhile isDigitChar) : Int)), r.dropWhile isDigitChar)
  | none =>
    if (b.takeWhile isDigitChar).isEmpty then none
    else some (BitVec.ofInt 64 (digitsValue (b.takeWhile isDigitChar)), b.dropWhile isDigitChar)

/-- A boolean field. -/
def readBool (b : Bytes) : Option (Bool × Bytes) :=
  match eat (ascii "true") b with
  | some r => some (true, r)
  | none => match eat (ascii "false") b with
    | some r => some (false, r)
    | none => none

/-- A hex field. -/
def readHex (b : Bytes) : Option (Bytes × Bytes) := do
  let r ← eat [0x22] b
  let v ← unHex (r.takeWhile fun x => (hexValue x).isSome)
  let r ← eat [0x22] (r.dropWhile fun x => (hexValue x).isSome)
  some (v, r)

/-- A hash field: 40 hex characters (R167). -/
def readDigest (b : Bytes) : Option (Digest × Bytes) := do
  let (v, r) ← readHex b
  let d ← FixedBytes.ofBytes 20 v
  some (d, r)

/-- The bytes of a text up to its closing `"`, the escapes of R166 undone. -/
def readEscaped : Bytes → Option (Bytes × Bytes)
  | [] => none
  | x :: r =>
    if x = 0x22 then some ([], r)
    else if x = 0x5C then
      match r with
      | [] => none
      | y :: r =>
        if y = 0x22 ∨ y = 0x5C then (readEscaped r).map fun p => (y :: p.1, p.2)
        else
          match r with
          | z :: z' :: hi :: lo :: r =>
            if y = 0x75 ∧ z = 0x30 ∧ z' = 0x30 then
              match hexByte hi lo, readEscaped r with
              | some v, some p => some (v :: p.1, p.2)
              | _, _ => none
            else none
          | _ => none
    else (readEscaped r).map fun p => (x :: p.1, p.2)

/-- A text field. -/
def readText (b : Bytes) : Option (Bytes × Bytes) := do
  let r ← eat [0x22] b
  readEscaped r

/-- The head of an object: `{` and the first member's name (R163). -/
def openMember (name : String) : Bytes := 0x7B :: rc1Name name

/-- What stands between two members: `,` and the next one's name (R163). -/
def nextMember (name : String) : Bytes := 0x2C :: rc1Name name

/-- A FirstHeader object. -/
def readFirst (b : Bytes) : Option (FirstHeader × Bytes) := do
  let b ← eat (openMember "version") b
  let (version, b) ← readInt b
  let b ← eat (nextMember "encrypted") b
  let (encrypted, b) ← readBool b
  let b ← eat (nextMember "compressed") b
  let (compressed, b) ← readBool b
  let b ← eat (nextMember "saltedPassword") b
  let (saltedPassword, b) ← readHex b
  let b ← eat (nextMember "wrappedMasterKey") b
  let (wrappedMasterKey, b) ← readHex b
  let b ← eat (nextMember "sourceSizeHint") b
  let (sourceSizeHint, b) ← readInt b
  let b ← eat (nextMember "timestamp") b
  let (timestamp, b) ← readInt b
  let b ← eat (nextMember "hostname") b
  let (hostname, b) ← readText b
  let b ← eat [0x7D] b
  some (⟨version, encrypted, compressed, saltedPassword, wrappedMasterKey, sourceSizeHint, timestamp, hostname⟩, b)

/-- A BlockHeader object. -/
def readBlock (b : Bytes) : Option (BlockHeader × Bytes) := do
  let b ← eat (openMember "chunkIndex") b
  let (chunkIndex, b) ← readInt b
  let b ← eat (nextMember "destDataSize") b
  let (destDataSize, b) ← readInt b
  let b ← eat (nextMember "destDataSizeWithoutPadding") b
  let (destDataSizeWithoutPadding, b) ← readInt b
  let b ← eat (nextMember "srcDataPosition") b
  let (srcDataPosition, b) ← readInt b
  let b ← eat (nextMember "srcDataLength") b
  let (srcDataLength, b) ← readInt b
  let b ← eat (nextMember "srcSha1") b
  let (srcSha1, b) ← readDigest b
  let b ← eat (nextMember "destSha1") b
  let (destSha1, b) ← readDigest b
  let b ← eat (nextMember "isAllZero") b
  let (isAllZero, b) ← readBool b
  let b ← eat (nextMember "isEoF") b
  let (isEoF, b) ← readBool b
  let b ← eat (nextMember "timestamp") b
  let (timestamp, b) ← readInt b
  let b ← eat [0x7D] b
  some (⟨chunkIndex, destDataSize, destDataSizeWithoutPadding, srcDataPosition, srcDataLength, srcSha1, destSha1,
    isAllZero, isEoF, timestamp⟩, b)

/-- A FinalHeader object. -/
def readFinal (b : Bytes) : Option (FinalHeader × Bytes) := do
  let b ← eat (openMember "chunkCount") b
  let (chunkCount, b) ← readInt b
  let b ← eat (nextMember "totalSourceSize") b
  let (totalSourceSize, b) ← readInt b
  let b ← eat (nextMember "destContentSize") b
  let (destContentSize, b) ← readInt b
  let b ← eat (nextMember "destPhysicalSize") b
  let (destPhysicalSize, b) ← readInt b
  let b ← eat (nextMember "sourceSha1") b
  let (sourceSha1, b) ← readDigest b
  let b ← eat (nextMember "destSha1") b
  let (destSha1, b) ← readDigest b
  let b ← eat (nextMember "timestamp") b
  let (timestamp, b) ← readInt b
  let b ← eat (nextMember "firstHeader") b
  let (firstHeader, b) ← readFirst b
  let b ← eat [0x7D] b
  some (⟨chunkCount, totalSourceSize, destContentSize, destPhysicalSize, sourceSha1, destSha1, timestamp, firstHeader⟩,
    b)

/-- The one record of a kind a body can stand for. -/
def readRecord : (k : Kind) → Bytes → Option (k.Record × Bytes)
  | .first, b => readFirst b
  | .block, b => readBlock b
  | .final, b => readFinal b

/-- `BODY_PARSE_RC1(k, b)`: the record whose RC1 body is `b`, none if there is none (R169). -/
def rc1Parse (k : Kind) (b : Bytes) : Option k.Record :=
  match readRecord k b with
  | some (h, _) => if rc1Ser k h = b then some h else none
  | none => none

end Sys2Proof.Machine
end

