-- ==== Sys2Proof/Safety.lean ====
section
/-! DEFINITION. What holds of every state the machine reaches (spec/10_state.md R71, R73, R47, R51, R56, R66), in the
terms the statements use. -/

namespace Sys2Proof.Machine

/-- The CSRs read as legal values: PARALLELISM in [1, PAR_MAX] (R47), and no reserved bit of OPT set (R46). -/
structure CsrLegal (P : Params) (c : Csrs) : Prop where
  par_pos : 1 ≤ c.parallelism.toInt
  par_max : c.parallelism.toInt ≤ P.parMax
  opt_reserved : c.opt &&& optMask = c.opt

/-- The invariants of ENC (R71, with R51, R78, R111, R256, R277). -/
structure EncInv (P : Params) (e : Enc) (out : Bytes) : Prop where
  /-- FATAL is 0 unless ENC is FAILED (R51). -/
  fatal_iff_failed : e.fatal.isSome ↔ e.state = .failed
  /-- An IDLE ENC is in its reset state (R78, R250). -/
  idle_is_reset : e.state = .idle → e = Enc.reset
  /-- An ACTIVE ENC has a batch size, a key and a FirstHeader (R251). -/
  active_open : e.state = .active → 1 ≤ e.cfg.par ∧ e.key.isSome ∧ e.first.isSome
  /-- In ACTIVE, len(inBuf) < par × CHUNK_SIZE (R71). -/
  active_buffer : e.state = .active → e.inBuf.length < e.cfg.par * P.chunkSize
  /-- In ACTIVE, srcPos + len(inBuf) = len(srcLog) (R71). -/
  active_position : e.state = .active → e.srcPos.toInt + e.inBuf.length = e.srcLog.length
  /-- In ACTIVE, srcPos is a multiple of par × CHUNK_SIZE (R71). -/
  active_grid : e.state = .active → ∃ n : Nat, e.srcPos.toInt = (n * (e.cfg.par * P.chunkSize) : Nat)
  /-- nextIdx = srcPos / CHUNK_SIZE rounded up (R71). -/
  index : 0 ≤ e.srcPos.toInt ∧ e.nextIdx.toInt = ceilDiv e.srcPos.toInt.toNat P.chunkSize
  /-- outLog equals the bytes ENC has appended to OUT since ENC.INIT (R71). -/
  outLog_on_out : e.outLog <:+ out
  /-- Every frame starts at a multiple of 4096, so whole frames and payloads are on OUT (R111). -/
  outLog_grid : e.outLog.length % frameSize = 0
  /-- At most 2^63 − 1 source bytes are accepted (R256). -/
  source_bound : e.srcLog.length ≤ maxSource
  /-- The FinalHeader is held exactly in FINALIZED (R277, R278). -/
  final_iff_finalized : e.final.isSome ↔ e.state = .finalized

/-- The invariants of DEC (R73, with R56, R79, R309, R313, R314, R318, R414). -/
structure DecInv (d : Dec) (input : Bytes) : Prop where
  /-- FATAL is 0 unless DEC is FAILED (R56). -/
  fatal_iff_failed : d.fatal.isSome ↔ d.state = .failed
  /-- An IDLE DEC is in its reset state (R79, R301). -/
  idle_is_reset : d.state = .idle → d = Dec.reset
  /-- In AWAIT_FIRST nothing has happened since DEC.INIT but input being buffered (R300, R313). -/
  await_is_open : d.state = .awaitFirst → d = { openDecode d.par d.password with inBuf := d.inBuf }
  /-- In AWAIT_FIRST less than a frame is buffered: the parse loop takes every full frame (R304, R305). -/
  await_short : d.state = .awaitFirst → d.inBuf.length < frameSize
  /-- In STREAMING, first ≠ ⊥, and key ≠ ⊥ iff first.encrypted (R73). -/
  streaming_open : d.state = .streaming → ∃ f, d.first = some f ∧ (d.key.isSome ↔ f.encrypted = true)
  /-- len(batch) < par (R73, R314). -/
  batch_bound : d.batch.length < d.par
  /-- Only sane headers are enqueued (R304, R309). -/
  batch_sane : ∀ b ∈ d.batch, sane b.hdr = true
  /-- A batched chunk ends inside the logical output (R318). -/
  batch_below : ∀ b ∈ d.batch, b.hdr.srcDataPosition.toInt + b.hdr.srcDataLength.toInt ≤ d.outLen
  /-- While DEC takes input, inBuf is the IN stream from the cursor on (R73, R103). -/
  input_from_cursor : decRunning d = true → d.cursor ≤ input.length ∧ d.inBuf = input.drop d.cursor
  /-- errors counts the error entries of the trace (R414). -/
  errors_counted : d.errors = countSeverity .error d.trace
  /-- warnings counts the warning entries of the trace (R414). -/
  warnings_counted : d.warnings = countSeverity .warning d.trace
  /-- The output ends inside SINK (R309, R318, R335). -/
  outLen_bound : d.outLen ≤ 2 ^ 63 - 1
  /-- FINALIZED means a FinalHeader was recorded and nothing is left to do (R330, R334). -/
  finalized_done : d.state = .finalized → d.final.isSome ∧ d.batch = [] ∧ d.inBuf = []

/-- SINK is in its canonical form and inside its addresses (R101, R104). -/
structure SinkInv (m : Sink) : Prop where
  canonical : Memory.wf m = true
  addresses : Memory.inRange m = true

/-- What every reachable state meets. -/
structure Inv (P : Params) (s : State) : Prop where
  csr : CsrLegal P s.csr
  enc : EncInv P s.enc s.out
  dec : DecInv s.dec s.input
  sink : SinkInv s.sink

/-- Whether the unit a command belongs to is in a state that allows it (the table of R364). -/
def commandAllowed (s : State) : Instr → Bool
  | .nop => true
  | .csrRd _ => true
  | .csrWr _ => true
  | .scEnc => true
  | .scDec => true
  | .frSerFirst => true
  | .frSerBlock => true
  | .frSerFinal => true
  | .frParse => true
  | .encInit => s.enc.state == .idle
  | .encWrite => s.enc.state == .active
  | .encFinal => s.enc.state == .active || s.enc.state == .finalized
  | .decInit => s.dec.state == .idle
  | .decFeed => s.dec.state == .awaitFirst || s.dec.state == .streaming
  | .decFinal => s.dec.state == .awaitFirst || s.dec.state == .streaming || s.dec.state == .finalized

/-- The commands that leave CMD_STATUS alone: NOP and CSR.RD (R355). -/
def leavesCmdStatus : Instr → Bool
  | .nop => true
  | .csrRd _ => true
  | .csrWr _ => false
  | .scEnc => false
  | .scDec => false
  | .frSerFirst => false
  | .frSerBlock => false
  | .frSerFinal => false
  | .frParse => false
  | .encInit => false
  | .encWrite => false
  | .encFinal => false
  | .decInit => false
  | .decFeed => false
  | .decFinal => false

/-- The commands of unit ENC. -/
def isEncCommand (i : Instr) : Bool := i == .encInit || i == .encWrite || i == .encFinal

/-- The commands of unit DEC. -/
def isDecCommand (i : Instr) : Bool := i == .decInit || i == .decFeed || i == .decFinal

/-- The commands that read or write a CSR, the computed ones among them (R361, R362). -/
def isCsrCommand : Instr → Bool
  | .nop => false
  | .csrRd _ => true
  | .csrWr _ => true
  | .scEnc => false
  | .scDec => false
  | .frSerFirst => false
  | .frSerBlock => false
  | .frSerFinal => false
  | .frParse => false
  | .encInit => false
  | .encWrite => false
  | .encFinal => false
  | .decInit => false
  | .decFeed => false
  | .decFinal => false

/-- A CSR.WR that resets ENC: to CTRL, with bit 0 of its value 1 (R44). -/
def resetsEnc (s : State) (i : Instr) : Bool := i == .csrWr 0x001 && s.ops.value.getLsbD 0

/-- A CSR.WR that resets DEC: to CTRL, with bit 1 of its value 1 (R44). -/
def resetsDec (s : State) (i : Instr) : Bool := i == .csrWr 0x001 && s.ops.value.getLsbD 1

/-- The value of a CSR by its address, none where the address is unmapped: the table of R361, written out. -/
def csrReadTable (s : State) (a : CsrAddr) : Option U64 :=
  if a = 0x000 then some 1
  else if a = 0x001 then some 0
  else if a = 0x002 then some ((statusCode s.csr.cmdStatus).zeroExtend 64)
  else if a = 0x010 then some s.csr.opt
  else if a = 0x011 then some s.csr.parallelism
  else if a = 0x012 then some s.csr.flags
  else if a = 0x013 then some s.csr.keepaliveMs
  else if a = 0x014 then some s.csr.sizeHint
  else if a = 0x020 then some (encStateCode s.enc.state ||| ((encFatalCode s.enc.fatal).zeroExtend 64 <<< 8))
  else if a = 0x021 then some (BitVec.ofNat 64 s.enc.srcLog.length)
  else if a = 0x022 then some (BitVec.ofNat 64 s.enc.outLog.length)
  else if a = 0x023 then some s.enc.nextIdx
  else if a = 0x024 then some (BitVec.ofNat 64 s.enc.elided)
  else if a = 0x030 then some (decStateCode s.dec.state ||| ((decFatalCode s.dec.fatal).zeroExtend 64 <<< 8))
  else if a = 0x031 then some (BitVec.ofNat 64 s.dec.errors)
  else if a = 0x032 then some (BitVec.ofNat 64 s.dec.warnings)
  else if a = 0x033 then some (BitVec.ofNat 64 s.dec.totalBytes)
  else if a = 0x034 then some (BitVec.ofNat 64 s.dec.cursor)
  else if a = 0x035 then some (BitVec.ofNat 64 s.dec.outLen)
  else if a = 0x036 then some (BitVec.ofNat 64 s.dec.inBuf.length)
  else if a = 0x037 then some (if s.dec.final.isSome then 1 else 0)
  else none

/-- What a CSR.WR of value `v` to address `a` stores, none where the address is unmapped or read-only: the cases of R362,
written out. -/
def csrWriteTable (P : Params) (v : U64) (s : State) (a : CsrAddr) : Option State :=
  if a = 0x001 then some { s with
    enc := if v.getLsbD 0 then Enc.reset else s.enc
    dec := if v.getLsbD 1 then Dec.reset else s.dec }
  else if a = 0x010 then some { s with csr := { s.csr with opt := v &&& 0x00000000000000F3 } }
  else if a = 0x011 then
    some { s with csr := { s.csr with parallelism := BitVec.ofInt 64 (max 1 (min v.toInt P.parMax)) } }
  else if a = 0x012 then some { s with csr := { s.csr with flags := v } }
  else if a = 0x013 then some { s with csr := { s.csr with keepaliveMs := v } }
  else if a = 0x014 then some { s with csr := { s.csr with sizeHint := v } }
  else none

/-- `q` is `p` once the FirstHeader frames of its archive are on OUT: put there twice by the first Flush, and by no later
one (R259). -/
def FirstOut (P : Params) (p q : EncPart) : Prop :=
  (p.enc.firstEmitted = true ∧ q = p) ∨
  (p.enc.firstEmitted = false ∧ ∃ h ff, p.enc.first = some h ∧ serFrame P .first h = some ff ∧
    q = { p with
      out := p.out ++ ff ++ ff
      enc := { p.enc with outLog := p.enc.outLog ++ ff ++ ff, firstEmitted := true } })

/-- The frame `f` at offset 0 fails rule R305 with the fatal code `c`: the first of its checks that does not pass. -/
def FirstFrameFails (P : Params) (f pw : Bytes) (c : DecFatal) : Prop :=
  match parseFrame P f with
  | .first h =>
    (h.version ≠ 1 ∧ c = .badVersion) ∨
    (h.version = 1 ∧ h.encrypted = true ∧ P.pwVerify h.saltedPassword pw = false ∧ c = .badPassword) ∨
    (h.version = 1 ∧ h.encrypted = true ∧ P.pwVerify h.saltedPassword pw = true ∧
      (∀ k : Key, P.pwUnseal h.wrappedMasterKey pw ≠ some k.val) ∧ c = .unwrapFail)
  | .unrecognized => c = .noFirstHeader
  | .block _ => c = .noFirstHeader
  | .final _ => c = .noFirstHeader
  | .invalid => c = .noFirstHeader

/-- More bytes in the input buffer: what DEC.FEED does before it parses. -/
def feedPart (b : Bytes) (p : DecPart) : DecPart := { p with dec := { p.dec with inBuf := p.dec.inBuf ++ b } }

/-- A series of DEC.FEED commands, one per piece of the input: what they parse. -/
def feedAll (P : Params) : List Bytes → DecPart → Run DecStop DecPart Unit
  | [], p => .ok () p
  | b :: bs, p => (parseLoop P false (feedPart b p)).bind fun _ q => feedAll P bs q

/-- The SINK addresses a batch entry may write: none for an EoF header, else the range of R317. -/
def entryCovers (b : BatchEntry) (a : Nat) : Prop :=
  b.hdr.isEoF = false ∧ b.hdr.srcDataPosition.toInt ≤ a ∧
    (a : Int) < b.hdr.srcDataPosition.toInt + b.hdr.srcDataLength.toInt

end Sys2Proof.Machine
end

