-- ==== Sys2Proof/Certificates/Slice0/Obligations.lean ====
section
/-! DEFINITION. The statements for the provers, from the numbered rules of spec/. `Config.params` are the machine's own
parameters; a statement for every `P` holds of every choice of the OPEN parameters. -/

open Sys2Proof Sys2Proof.Machine

/-! ### The command words (spec/30_encoding.md) -/

/-- R142, R143: every command's word decodes to that command. -/
def Obligations.DecodeOfEncode : Prop := ∀ i : Instr, decode (encode i) = .ok i

/-- R142, R143, R147: a legal word is the word of the command it decodes to, so no bit of it is ignored. -/
def Obligations.EncodeOfDecode : Prop := ∀ (w : BitVec 32) (i : Instr), decode w = .ok i → encode i = w

/-- R142: the 15 words, with CSRA free for CSR.RD and CSR.WR, and their operand forms; no other word is legal. -/
def Obligations.OpcodeMapWords : Prop :=
  (decode 0x00000000 = .ok .nop ∧ decode 0x11000000 = .ok .scEnc ∧ decode 0x12000000 = .ok .scDec ∧
    decode 0x21000000 = .ok .frSerFirst ∧ decode 0x22000000 = .ok .frSerBlock ∧ decode 0x23000000 = .ok .frSerFinal ∧
    decode 0x24000000 = .ok .frParse ∧ decode 0x31000000 = .ok .encInit ∧ decode 0x32000000 = .ok .encWrite ∧
    decode 0x33000000 = .ok .encFinal ∧ decode 0x41000000 = .ok .decInit ∧ decode 0x42000000 = .ok .decFeed ∧
    decode 0x43000000 = .ok .decFinal) ∧
  (∀ a : CsrAddr, decode (0x01000000#32 ||| a.zeroExtend 32) = .ok (.csrRd a) ∧
    decode (0x02000000#32 ||| a.zeroExtend 32) = .ok (.csrWr a) ∧
    formOf (.csrRd a) = .N ∧ formOf (.csrWr a) = .V) ∧
  (formOf .nop = .N ∧ formOf .scEnc = .K ∧ formOf .scDec = .K ∧ formOf .frSerFirst = .H ∧ formOf .frSerBlock = .H ∧
    formOf .frSerFinal = .H ∧ formOf .frParse = .D ∧ formOf .encInit = .D ∧ formOf .encWrite = .D ∧ formOf .encFinal = .N ∧
    formOf .decInit = .D ∧ formOf .decFeed = .D ∧ formOf .decFinal = .N) ∧
  ∀ w : BitVec 32,
    w ∉ [0x00000000#32, 0x11000000, 0x12000000, 0x21000000, 0x22000000, 0x23000000, 0x24000000, 0x31000000, 0x32000000,
      0x33000000, 0x41000000, 0x42000000, 0x43000000] →
    w &&& 0xFFFFF000 ≠ 0x01000000 → w &&& 0xFFFFF000 ≠ 0x02000000 → ∃ r, decode w = .error r

/-- R142: a few words written out from the encoding table. -/
def Obligations.DecodeSampleWords : Prop :=
  decode 0b00000000000000000000000000000000 = .ok .nop ∧
  decode 0b00000001000000000000000000110111 = .ok (.csrRd 0x037) ∧
  decode 0b00000010000000000000000000010000 = .ok (.csrWr 0x010) ∧
  decode 0b00010001000000000000000000000000 = .ok .scEnc ∧
  decode 0b00100100000000000000000000000000 = .ok .frParse ∧
  decode 0b00110010000000000000000000000000 = .ok .encWrite ∧
  decode 0b01000011000000000000000000000000 = .ok .decFinal

/-- R148: the words with UNIT in 5..15, an unassigned OP, RSV ≠ 0, or CSRA ≠ 0 on a command other than CSR.RD and CSR.WR
are exactly the words that decode to no command; such a word completes with ILLEGAL_CMD, sets CMD_STATUS to 0x01 and
changes no other state. That the ports are fields of State is the model's choice (logs 5, 9). -/
def Obligations.IllegalWordsRefused : Prop :=
  (∀ w : BitVec 32, (∃ r, decode w = .error r) ↔
    (5 ≤ (w.extractLsb' 28 4).toNat ∨
      (w.extractLsb' 24 8) ∉ [0x00#8, 0x01, 0x02, 0x11, 0x12, 0x21, 0x22, 0x23, 0x24, 0x31, 0x32, 0x33, 0x41, 0x42, 0x43] ∨
      w.extractLsb' 12 12 ≠ 0 ∨
      (w.extractLsb' 0 12 ≠ 0 ∧ (w.extractLsb' 24 8) ∉ [0x01#8, 0x02]))) ∧
  ∀ (s : State) (c : Command) (rest : List Command), s.cmds = c :: rest → (∃ r, decode c.word = .error r) →
    step s = .next { s with
      cmds := rest
      ops := c.ops
      csr := { s.csr with cmdStatus := .illegalCmd }
      rsp := some ⟨.illegalCmd, 0, [], 0, none⟩ }

/-! ### The step (spec/45_control.md R355) -/

/-- R355: when the word at the head of the command port decodes to a command, the step is that command's meaning, with
the command taken from the port and its operands in use. That the port is a list in State is the model's choice (log 5). -/
def Obligations.StepRunsDecodedCommand : Prop :=
  ∀ (s : State) (c : Command) (rest : List Command) (i : Instr), s.cmds = c :: rest → decode c.word = .ok i →
    step s = exec i { s with cmds := rest, ops := c.ops }

/-- R355, R45: every command that answers leaves a response; CMD_STATUS becomes its status, but for NOP and CSR.RD, which
leave CMD_STATUS alone. -/
def Obligations.CmdStatusFollowsResponse : Prop :=
  ∀ (i : Instr) (s t : State), exec i s = .next t →
    ∃ r, t.rsp = some r ∧ t.csr.cmdStatus = if leavesCmdStatus i then s.csr.cmdStatus else r.status

/-- R402, R356: a command that answers BAD_STATE, BAD_OPERAND or SER_OVERFLOW has changed nothing but CMD_STATUS and its
response, and CSR.RD not even CMD_STATUS. -/
def Obligations.RefusedCommandsChangeNothing : Prop :=
  ∀ (i : Instr) (s t : State) (r : Response), exec i s = .next t → t.rsp = some r →
    (r.status = .badState ∨ r.status = .badOperand ∨ r.status = .serOverflow) →
    t = { s with
      csr := { s.csr with cmdStatus := if leavesCmdStatus i then s.csr.cmdStatus else r.status }
      rsp := some r }

/-- R364: a command whose unit is in a state that does not allow it answers BAD_STATE with nothing else changed; one that
is allowed never answers BAD_STATE; and ENC.FINAL and DEC.FINAL in FINALIZED return OK and do nothing. -/
def Obligations.CommandStatesEnforced : Prop :=
  (∀ (i : Instr) (s : State), commandAllowed s i = false →
    exec i s = .next { s with
      csr := { s.csr with cmdStatus := .badState }
      rsp := some ⟨.badState, 0, [], 0, none⟩ }) ∧
  (∀ (i : Instr) (s t : State) (r : Response), commandAllowed s i = true → exec i s = .next t → t.rsp = some r →
    r.status ≠ .badState) ∧
  (∀ s : State, s.enc.state = .finalized →
    exec .encFinal s = .next { s with
      csr := { s.csr with cmdStatus := .ok }
      rsp := some ⟨.ok, 0, [], 0, s.enc.final.map .final⟩ }) ∧
  ∀ s : State, s.dec.state = .finalized →
    exec .decFinal s = .next { s with
      csr := { s.csr with cmdStatus := .ok }
      rsp := some ⟨.ok, 0, [], 0, none⟩ }

/-- R124, R425, R410, R69: the two units share no state, and neither sees the other. A command that is not ENC's, and no
CTRL write that resets ENC, leaves ENC, OUT and the draws as they were; one that is not DEC's, and no CTRL write that
resets DEC, leaves DEC, the IN stream and every byte of SINK as they were; every command leaves the rest of the port as it
was. A command of neither DEC nor the CSRs does the same whatever DEC, the IN stream and SINK hold, and one of neither ENC
nor the CSRs whatever ENC, OUT and the draws are. No command but CSR.WR changes OPT, PARALLELISM, FLAGS, KEEPALIVE_MS or
SIZE_HINT (R46 to R50). -/
def Obligations.UnitsShareNoState : Prop :=
  ∀ (i : Instr) (s t : State), exec i s = .next t →
    (isEncCommand i = false → resetsEnc s i = false → t.enc = s.enc) ∧
    (isEncCommand i = false → t.out = s.out ∧ t.nowDraws = s.nowDraws ∧ t.randDraws = s.randDraws) ∧
    (isDecCommand i = false → resetsDec s i = false → t.dec = s.dec) ∧
    (isDecCommand i = false → t.input = s.input ∧ t.sink = s.sink) ∧
    t.cmds = s.cmds ∧ t.ops = s.ops ∧
    (isDecCommand i = false → isCsrCommand i = false → ∀ (d : Dec) (b : Bytes) (m : Sink),
      exec i { s with dec := d, input := b, sink := m } = .next { t with dec := d, input := b, sink := m }) ∧
    (isEncCommand i = false → isCsrCommand i = false → ∀ (e : Enc) (o : Bytes) (n r : Nat),
      exec i { s with enc := e, out := o, nowDraws := n, randDraws := r } =
        .next { t with enc := e, out := o, nowDraws := n, randDraws := r }) ∧
    ((∀ a, i ≠ .csrWr a) → t.csr = { s.csr with cmdStatus := t.csr.cmdStatus })

/-- R145: a command does not see the operands its form does not name. -/
def Obligations.UnnamedOperandsIgnored : Prop :=
  ∀ (i : Instr) (s : State) (o o' : Operands), operandsOfForm (formOf i) o = operandsOfForm (formOf i) o' →
    (∀ t, exec i { s with ops := o } = .next t → exec i { s with ops := o' } = .next { t with ops := o' }) ∧
    (∀ f, exec i { s with ops := o } = .fault f → exec i { s with ops := o' } = .fault f)

/-! ### Control commands and registers (spec/45_control.md, spec/10_state.md) -/

/-- R360: NOP answers OK and writes no state. -/
def Obligations.NopOnlyAnswers : Prop :=
  ∀ s : State, exec .nop s = .next { s with rsp := some ⟨.ok, 0, [], 0, none⟩ }

/-- R361, R42, R64: CSR.RD returns the register's value, or BAD_OPERAND with value 0 for an unmapped address, and changes
nothing, CMD_STATUS included. -/
def Obligations.CsrReadReturnsValue : Prop :=
  ∀ (s : State) (a : CsrAddr), exec (.csrRd a) s = .next { s with rsp := some (
    match csrReadTable s a with
    | some v => ⟨.ok, v, [], 0, none⟩
    | none => ⟨.badOperand, 0, [], 0, none⟩) }

/-- R362, R42: CSR.WR stores into the register as its rule says and nowhere else, and answers OK; an unmapped or
read-only address answers BAD_OPERAND and nothing is stored. -/
def Obligations.CsrWriteStores : Prop :=
  ∀ (s : State) (a : CsrAddr), exec (.csrWr a) s = .next (
    match csrWriteTable Config.params s.ops.value s a with
    | some t => { t with csr := { t.csr with cmdStatus := .ok }, rsp := some ⟨.ok, 0, [], 0, none⟩ }
    | none => { s with
        csr := { s.csr with cmdStatus := .badOperand }
        rsp := some ⟨.badOperand, 0, [], 0, none⟩ })

/-- R44, R78, R79, R452: a write to CTRL puts ENC, by bit 0, and DEC, by bit 1, in their reset states, whatever the other
bits and the units' states are, and touches nothing else: what is on OUT and in SINK stays. The reset states are those of
power-on. CTRL reads 0. -/
def Obligations.CtrlResetsUnits : Prop :=
  let enc₀ : Enc := ⟨.idle, none, ⟨false, false, 0, 1, 0, -1⟩, none, none, false, [], [], [], 0, 0, 0, false, 0, 0, none⟩
  let dec₀ : Dec := ⟨.idle, none, 1, [], none, none, none, [], 0, [], 0, 0, 0, 0, []⟩
  State.reset.enc = enc₀ ∧ State.reset.dec = dec₀ ∧
  ∀ s : State,
    exec (.csrWr 0x001) s = .next { s with
      enc := if s.ops.value.getLsbD 0 then enc₀ else s.enc
      dec := if s.ops.value.getLsbD 1 then dec₀ else s.dec
      csr := { s.csr with cmdStatus := .ok }
      rsp := some ⟨.ok, 0, [], 0, none⟩ } ∧
    exec (.csrRd 0x001) s = .next { s with rsp := some ⟨.ok, 0, [], 0, none⟩ }

/-- R77: the power-on reset values of the CSRs, as CSR.RD reads them, and that a unit reset leaves the stored ones
alone. -/
def Obligations.ResetCsrValues : Prop :=
  (∀ p ∈ ([(0x000, 1), (0x001, 0), (0x002, 0), (0x010, 0), (0x011, 1), (0x012, 0), (0x013, 0),
      (0x014, 0xFFFFFFFFFFFFFFFF), (0x020, 0), (0x021, 0), (0x022, 0), (0x023, 0), (0x024, 0), (0x030, 0), (0x031, 0),
      (0x032, 0), (0x033, 0), (0x034, 0), (0x035, 0), (0x036, 0), (0x037, 0)] : List (CsrAddr × U64)),
    exec (.csrRd p.1) State.reset = .next { State.reset with rsp := some ⟨.ok, p.2, [], 0, none⟩ }) ∧
  ∀ s : State, (resetEnc s).csr = s.csr ∧ (resetDec s).csr = s.csr

/-! ### Sector Cipher Unit (spec/41_sector_cipher.md) -/

/-- R203: SC.ENC of a 64-byte key and data of a legal length answers OK with TC_ENC's bytes, as many as the data has; data
of no bytes gives no bytes. With another key length or a length outside TC_DOMAIN it answers BAD_OPERAND. Either way only
CMD_STATUS is written. -/
def Obligations.ScEncEncrypts : Prop :=
  ∀ s : State,
    (∀ k : Key, s.ops.key = k.val → Config.params.tcDomain s.ops.data.length = true →
      exec .scEnc s = .next { s with
        csr := { s.csr with cmdStatus := .ok }
        rsp := some ⟨.ok, 0, Config.params.tcEnc k s.ops.sector s.ops.data, 0, none⟩ } ∧
      (Config.params.tcEnc k s.ops.sector s.ops.data).length = s.ops.data.length) ∧
    (s.ops.key.length = 64 → s.ops.data = [] →
      exec .scEnc s = .next { s with
        csr := { s.csr with cmdStatus := .ok }
        rsp := some ⟨.ok, 0, [], 0, none⟩ }) ∧
    (s.ops.key.length ≠ 64 ∨ Config.params.tcDomain s.ops.data.length = false →
      exec .scEnc s = .next { s with
        csr := { s.csr with cmdStatus := .badOperand }
        rsp := some ⟨.badOperand, 0, [], 0, none⟩ })

/-- R204: SC.DEC, likewise with TC_DEC's bytes: it answers OK on any bytes of a legal length, whatever key and sector they
were encrypted with. -/
def Obligations.ScDecDecrypts : Prop :=
  ∀ s : State,
    (∀ k : Key, s.ops.key = k.val → Config.params.tcDomain s.ops.data.length = true →
      exec .scDec s = .next { s with
        csr := { s.csr with cmdStatus := .ok }
        rsp := some ⟨.ok, 0, Config.params.tcDec k s.ops.sector s.ops.data, 0, none⟩ } ∧
      (Config.params.tcDec k s.ops.sector s.ops.data).length = s.ops.data.length) ∧
    (s.ops.key.length = 64 → s.ops.data = [] →
      exec .scDec s = .next { s with
        csr := { s.csr with cmdStatus := .ok }
        rsp := some ⟨.ok, 0, [], 0, none⟩ }) ∧
    (s.ops.key.length ≠ 64 ∨ Config.params.tcDomain s.ops.data.length = false →
      exec .scDec s = .next { s with
        csr := { s.csr with cmdStatus := .badOperand }
        rsp := some ⟨.badOperand, 0, [], 0, none⟩ })

/-- R204, R200 (T1, T2, T3): SC.DEC with the same key and sector undoes SC.ENC, the length is kept, and so is every multiple
of 4096 a legal length. -/
def Obligations.ScDecUndoesScEnc : Prop :=
  ∀ (s : State) (k : Key), s.ops.key = k.val → s.ops.data.length % 4096 = 0 →
    ∃ (t : State) (e : Bytes), exec .scEnc s = .next t ∧ t.rsp = some ⟨.ok, 0, e, 0, none⟩ ∧
      e.length = s.ops.data.length ∧
      ∃ u : State, exec .scDec { t with ops := { t.ops with data := e } } = .next u ∧
        u.rsp = some ⟨.ok, 0, s.ops.data, 0, none⟩

/-! ### Frame Codec Unit (spec/42_frame_codec.md, spec/30_encoding.md R161) -/

/-- R226 to R228: a FR.SER command with a record of its kind answers OK with the 4096-byte frame, or SER_OVERFLOW where
the body is longer than 4088 − SIG_LEN; with no record or one of another kind it answers BAD_OPERAND (a missing record: log 8);
only CMD_STATUS is written. -/
def Obligations.FrSerSerialises : Prop :=
  ∀ s : State,
    (∀ h, s.ops.hdr = some (.first h) → exec .frSerFirst s = .next (
      if (Config.params.bodySer .first h).length ≤ 4088 - Config.params.sigLen then
        { s with csr := { s.csr with cmdStatus := .ok }, rsp := some ⟨.ok, 0, (serFrame Config.params .first h).getD [], 0, none⟩ }
      else { s with csr := { s.csr with cmdStatus := .serOverflow }, rsp := some ⟨.serOverflow, 0, [], 0, none⟩ })) ∧
    (∀ h, s.ops.hdr = some (.block h) → exec .frSerBlock s = .next (
      if (Config.params.bodySer .block h).length ≤ 4088 - Config.params.sigLen then
        { s with csr := { s.csr with cmdStatus := .ok }, rsp := some ⟨.ok, 0, (serFrame Config.params .block h).getD [], 0, none⟩ }
      else { s with csr := { s.csr with cmdStatus := .serOverflow }, rsp := some ⟨.serOverflow, 0, [], 0, none⟩ })) ∧
    (∀ h, s.ops.hdr = some (.final h) → exec .frSerFinal s = .next (
      if (Config.params.bodySer .final h).length ≤ 4088 - Config.params.sigLen then
        { s with csr := { s.csr with cmdStatus := .ok }, rsp := some ⟨.ok, 0, (serFrame Config.params .final h).getD [], 0, none⟩ }
      else { s with csr := { s.csr with cmdStatus := .serOverflow }, rsp := some ⟨.serOverflow, 0, [], 0, none⟩ })) ∧
    ((∀ h, s.ops.hdr ≠ some (.first h)) → exec .frSerFirst s = .next
      { s with csr := { s.csr with cmdStatus := .badOperand }, rsp := some ⟨.badOperand, 0, [], 0, none⟩ }) ∧
    ((∀ h, s.ops.hdr ≠ some (.block h)) → exec .frSerBlock s = .next
      { s with csr := { s.csr with cmdStatus := .badOperand }, rsp := some ⟨.badOperand, 0, [], 0, none⟩ }) ∧
    ((∀ h, s.ops.hdr ≠ some (.final h)) → exec .frSerFinal s = .next
      { s with csr := { s.csr with cmdStatus := .badOperand }, rsp := some ⟨.badOperand, 0, [], 0, none⟩ })

/-- R161, R171, R172: a body fits exactly when it has at most 4088 − SIG_LEN bytes, and the frame of a record is then 4096
bytes: the signature, CRLF, the body, CRLF CRLF, zeros, CRLF, each at its offsets. -/
def Obligations.FrameLayout : Prop :=
  ∀ (P : Params) (k : Kind) (h : k.Record), P.Lawful →
    (serFrame P k h = none ↔ 4088 - P.sigLen < (P.bodySer k h).length) ∧
    ∀ f, serFrame P k h = some f →
      f.length = 4096 ∧
      slice f 0 P.sigLen = P.sig k ∧
      slice f P.sigLen (P.sigLen + 2) = [0x0D, 0x0A] ∧
      slice f (P.sigLen + 2) (P.sigLen + 2 + (P.bodySer k h).length) = P.bodySer k h ∧
      slice f (P.sigLen + 2 + (P.bodySer k h).length) (P.sigLen + 6 + (P.bodySer k h).length) =
        [0x0D, 0x0A, 0x0D, 0x0A] ∧
      slice f (P.sigLen + 6 + (P.bodySer k h).length) 4094 =
        List.replicate (4088 - P.sigLen - (P.bodySer k h).length) 0 ∧
      slice f 4094 4096 = [0x0D, 0x0A]

/-- R224: the frame of a record parses to that record and its kind. -/
def Obligations.FrameRoundTrip : Prop :=
  ∀ (P : Params) (k : Kind) (h : k.Record) (f : Bytes), P.Lawful → serFrame P k h = some f →
    parseFrame P f = verdictOf k h

/-- R225, its first part: a change of one byte of a frame outside the body makes it UNRECOGNIZED or INVALID, unless it
turns the signature into another kind's. -/
def Obligations.FrameChangeDetected : Prop :=
  ∀ (P : Params) (k : Kind) (h : k.Record) (f : Bytes) (i : Nat) (x : Byte), P.Lawful → serFrame P k h = some f →
    i < 4096 → f[i]? ≠ some x → (i < P.sigLen + 2 ∨ P.sigLen + 2 + (P.bodySer k h).length ≤ i) →
    parseFrame P (f.set i x) = .unrecognized ∨ parseFrame P (f.set i x) = .invalid ∨
      ∃ k', k' ≠ k ∧ slice (f.set i x) 0 P.sigLen = P.sig k'

/-- R229: FR.PARSE of 4096 bytes answers OK with the kind code and record of ParseFrame, whatever the verdict; of 4096 zero
bytes UNRECOGNIZED; of another length BAD_OPERAND. Only CMD_STATUS is written. -/
def Obligations.FrParseClassifies : Prop :=
  ∀ s : State,
    (s.ops.data.length = 4096 → exec .frParse s = .next { s with
      csr := { s.csr with cmdStatus := .ok }
      rsp := some (match parseFrame Config.params s.ops.data with
        | .unrecognized => ⟨.ok, 0, [], 0, none⟩
        | .first h => ⟨.ok, 0, [], 1, some (.first h)⟩
        | .block h => ⟨.ok, 0, [], 2, some (.block h)⟩
        | .final h => ⟨.ok, 0, [], 3, some (.final h)⟩
        | .invalid => ⟨.ok, 0, [], 4, none⟩) }) ∧
    (s.ops.data = List.replicate 4096 0 → exec .frParse s = .next { s with
      csr := { s.csr with cmdStatus := .ok }
      rsp := some ⟨.ok, 0, [], 0, none⟩ }) ∧
    (s.ops.data.length ≠ 4096 → exec .frParse s = .next { s with
      csr := { s.csr with cmdStatus := .badOperand }
      rsp := some ⟨.badOperand, 0, [], 0, none⟩ })

/-! ### The reference body codec RC1 (spec/30_encoding.md R163 to R170) -/

/-- R169: RC1 parsing returns exactly the record whose RC1 body the bytes are, and fails if there is none. -/
def Obligations.Rc1ParseExact : Prop :=
  ∀ (k : Kind) (b : Bytes) (h : k.Record), rc1Parse k b = some h ↔ rc1Ser k h = b

/-- R170: every RC1 body consists only of bytes 0x20..0x7E, so RC1 meets law B2; and it meets law B1. -/
def Obligations.Rc1MeetsBodyLaws : Prop :=
  ∀ (k : Kind) (h : k.Record),
    (∀ x ∈ rc1Ser k h, 0x20 ≤ x.toNat ∧ x.toNat ≤ 0x7E) ∧ 0x0D ∉ rc1Ser k h ∧ rc1Parse k (rc1Ser k h) = some h

/-! ### Encode Sequencer (spec/43_encoder.md) -/

/-- R251: ENC.INIT in IDLE with legal options opens an archive: ENC's fields as the rule writes them from the CSRs, the
password and the draws, OUT untouched, status OK; with options that break DOC's invariant BAD_OPERAND and ENC stays. -/
def Obligations.EncInitOpensArchive : Prop :=
  ∀ s : State, s.enc.state = .idle →
    let P := Config.params
    let e := s.csr.opt.getLsbD 0
    let c := s.csr.opt.getLsbD 1
    let lvl : BitVec 4 := s.csr.opt.extractLsb' 4 4
    let key := randKey P s.randDraws
    let t0 := P.now s.nowDraws
    ((e || c) = true ∧ ¬ (c = true ∧ lvl = 0) →
      exec .encInit s = .next { s with
        enc := ⟨.active, none, ⟨e, c, lvl, s.csr.parallelism.toNat, s.csr.keepaliveMs, s.csr.sizeHint⟩, some key,
          some ⟨1, e, c,
            if e then P.pwToken s.ops.data (randBytes P (s.randDraws + 64) P.pwSalt) else [],
            if e then P.pwSeal key s.ops.data (randBytes P (s.randDraws + 64 + P.pwSalt) P.sealRnd) else [],
            s.csr.sizeHint, t0, P.hostname⟩,
          false, [], [], [], 0, 0, 0, false, t0, 0, none⟩
        nowDraws := s.nowDraws + 1
        randDraws := s.randDraws + (64 + if e then P.pwSalt + P.sealRnd else 0)
        csr := { s.csr with cmdStatus := .ok }
        rsp := some ⟨.ok, 0, [], 0, none⟩ }) ∧
    ((e || c) = false ∨ (c = true ∧ lvl = 0) →
      exec .encInit s = .next { s with
        csr := { s.csr with cmdStatus := .badOperand }
        rsp := some ⟨.badOperand, 0, [], 0, none⟩ })

/-- R256: ENC.WRITE in ACTIVE of bytes that do not fill the batch buffers and logs them, in order, and answers OK with
nothing else changed; a write beyond 2^63 − 1 source bytes answers BAD_OPERAND. CHUNK_SIZE is R8's default (log 1). -/
def Obligations.EncWriteBuffers : Prop :=
  ∀ s : State, s.enc.state = .active →
    (s.enc.inBuf.length + s.ops.data.length < s.enc.cfg.par * 1048576 →
      s.enc.srcLog.length + s.ops.data.length ≤ 2 ^ 63 - 1 →
      exec .encWrite s = .next { s with
        enc := { s.enc with inBuf := s.enc.inBuf ++ s.ops.data, srcLog := s.enc.srcLog ++ s.ops.data }
        csr := { s.csr with cmdStatus := .ok }
        rsp := some ⟨.ok, 0, [], 0, none⟩ }) ∧
    (2 ^ 63 - 1 < s.enc.srcLog.length + s.ops.data.length →
      exec .encWrite s = .next { s with
        csr := { s.csr with cmdStatus := .badOperand }
        rsp := some ⟨.badOperand, 0, [], 0, none⟩ })

/-- R256, R410: when the byte that fills the batch arrives, ENC.WRITE flushes; the write goes on after a Flush that is OK,
and after one that fails the later bytes are not accepted. The command, in ACTIVE and within the size limit, answers OK
with ENC still ACTIVE where its bytes are accepted, and where a Flush fails FATAL with ENC FAILED and the Flush's code
recorded; either way with what the procedure left of ENC, OUT and the draws, and nothing else changed. -/
def Obligations.EncWriteFlushesFullBatch : Prop :=
  (∀ (P : Params) (p : EncPart) (d d' : Bytes), d ≠ [] →
    p.enc.inBuf.length + d.length = p.enc.cfg.par * P.chunkSize →
    let q : EncPart := { p with enc := { p.enc with
      inBuf := p.enc.inBuf ++ d
      srcLog := p.enc.srcLog ++ d } }
    (∀ u, flush P q = .ok () u → acceptBytes P (d ++ d') p = acceptBytes P d' u) ∧
    (∀ c u, flush P q = .stop c u → acceptBytes P (d ++ d') p = .stop c u)) ∧
  ∀ s : State, s.enc.state = .active → s.enc.srcLog.length + s.ops.data.length ≤ 2 ^ 63 - 1 →
    (∀ u, acceptBytes Config.params s.ops.data (encPart s) = .ok () u → u.enc.state = .active ∧
      exec .encWrite s = .next { s with
        enc := u.enc
        out := u.out
        nowDraws := u.nowDraws
        randDraws := u.randDraws
        csr := { s.csr with cmdStatus := .ok }
        rsp := some ⟨.ok, 0, [], 0, none⟩ }) ∧
    ∀ c u, acceptBytes Config.params s.ops.data (encPart s) = .stop c u →
      exec .encWrite s = .next { s with
        enc := { u.enc with fatal := some c, state := .failed }
        out := u.out
        nowDraws := u.nowDraws
        randDraws := u.randDraws
        csr := { s.csr with cmdStatus := .fatal }
        rsp := some ⟨.fatal, 0, [], 0, none⟩ }

/-- R256: the split of the source into ENC.WRITE calls does not matter: writing two strings one after the other does what
writing them joined does. -/
def Obligations.SourceSplitIrrelevant : Prop :=
  ∀ (P : Params) (a b : Bytes) (p : EncPart),
    acceptBytes P (a ++ b) p = (acceptBytes P a p).bind fun _ q => acceptBytes P b q

/-- R260: Slices cuts a byte string into its chunks: joined they give it back, none is empty, none is longer than
CHUNK_SIZE, and every one but the last holds CHUNK_SIZE bytes. -/
def Obligations.SlicesPartitionSource : Prop :=
  ∀ (P : Params) (b : Bytes), 0 < P.chunkSize →
    (slices P b).flatten = b ∧
    (∀ c ∈ slices P b, c ≠ [] ∧ c.length ≤ P.chunkSize) ∧
    ∀ i, i + 1 < (slices P b).length → ((slices P b)[i]?.map List.length) = some P.chunkSize

/-- R177, R266, R267: the header and payload Transform gives a chunk. Of an all-zero chunk: no payload, the hash of the
source bytes and of the empty string, nothing drawn. Of any other, when it transforms: the content is the compressed
chunk, or the chunk itself without compression; the payload is the content padded to the next multiple of 4096 bytes, with
zeros or, with encryption, with the next RAND bytes (draws as log 2 counts them) and then encrypted under the position as
sector; the hashes are those of the source bytes and of the payload. The lengths are below 2^63, outside which log 3
leaves an i64 field open. A chunk that is not all-zero transforms whenever COMPRESS gives a result or is off (and, with
encryption, the key is there, as in ACTIVE it always is); where COMPRESS fails, Transform fails. -/
def Obligations.TransformHeaderFields : Prop :=
  ∀ (P : Params) (cfg : EncCfg) (key : Option Key) (b : Bytes) (p i : I64) (r : Nat),
    P.Lawful → b.length < 2 ^ 63 →
    ((∀ x ∈ b, x = 0) →
      transform P cfg key b p.toInt i.toInt r =
        (some (⟨i, 0, 0, p, BitVec.ofNat 64 b.length, P.sha1 b, P.sha1 [], true, false, 0⟩, []), r)) ∧
    ((∃ x ∈ b, x ≠ 0) → (cfg.encrypt = true → key.isSome) →
      (cfg.compress = true → (P.compress (P.compLevels cfg.level) b).isSome) →
      ∃ h d r', transform P cfg key b p.toInt i.toInt r = (some (h, d), r')) ∧
    ((∃ x ∈ b, x ≠ 0) → cfg.compress = true → P.compress (P.compLevels cfg.level) b = none →
      transform P cfg key b p.toInt i.toInt r = (none, r)) ∧
    ∀ (h : BlockHeader) (d : Bytes) (r' : Nat), (∃ x ∈ b, x ≠ 0) → d.length < 2 ^ 63 →
      transform P cfg key b p.toInt i.toInt r = (some (h, d), r') →
      h.chunkIndex = i ∧ h.srcDataPosition = p ∧ h.srcDataLength.toInt = b.length ∧ h.srcSha1 = P.sha1 b ∧
      h.destSha1 = P.sha1 d ∧ h.isAllZero = false ∧ h.isEoF = false ∧ h.destDataSize.toInt = d.length ∧
      ∃ c pad : Bytes,
        (if cfg.compress then P.compress (P.compLevels cfg.level) b = some c else c = b) ∧
        h.destDataSizeWithoutPadding.toInt = c.length ∧
        d.length % 4096 = 0 ∧ d.length = c.length + pad.length ∧ pad.length < 4096 ∧
        if cfg.encrypt then
          pad = randBytes P r pad.length ∧ r' = r + pad.length ∧ ∃ k, key = some k ∧ d = P.tcEnc k p (c ++ pad)
        else (∀ x ∈ pad, x = 0) ∧ r' = r ∧ d = c ++ pad

/-- R339, R340 for one chunk: DecodeChunk gives back the source bytes of every chunk Transform makes, with no soft event,
for every choice of the parameters that meets the laws, every key, position and option, and every draw. -/
def Obligations.DecodeUndoesTransform : Prop :=
  ∀ (P : Params) (cfg : EncCfg) (key : Option Key) (b : Bytes) (p i : I64) (r r' : Nat) (h : BlockHeader) (d : Bytes),
    P.Lawful → b.length < 2 ^ 63 → d.length < 2 ^ 63 → 0 ≤ p.toInt →
    transform P cfg key b p.toInt i.toInt r = (some (h, d), r') →
    decodeChunk P cfg.encrypt cfg.compress key h d = (some b, [])

/-- R269, R272: at framing time t a chunk is elided exactly when it is all-zero, the chunk before it was, and
t − lastFrameTime < keepAlive in exact integers; it then puts nothing on OUT. Otherwise its frame with timestamp t and its
payload are put out, or the header overflows. -/
def Obligations.FrameChunkElidesOrEmits : Prop :=
  ∀ (P : Params) (h : BlockHeader) (d : Bytes) (p : EncPart),
    let t := P.now p.nowDraws
    let content := toI64 P (p.enc.destContent.toInt + h.destDataSizeWithoutPadding.toInt)
    (h.isAllZero = true ∧ p.enc.prevAllZero = true ∧
        t.toInt - p.enc.lastFrameTime.toInt < p.enc.cfg.keepAlive.toInt →
      frameChunk P h d p = .ok [] { p with
        nowDraws := p.nowDraws + 1
        enc := { p.enc with elided := p.enc.elided + 1, prevAllZero := true, destContent := content } }) ∧
    (¬ (h.isAllZero = true ∧ p.enc.prevAllZero = true ∧
        t.toInt - p.enc.lastFrameTime.toInt < p.enc.cfg.keepAlive.toInt) →
      (∀ fb, serFrame P .block { h with timestamp := t } = some fb →
        frameChunk P h d p = .ok (fb ++ d) { p with
          nowDraws := p.nowDraws + 1
          enc := { p.enc with lastFrameTime := t, prevAllZero := h.isAllZero, destContent := content } }) ∧
      (serFrame P .block { h with timestamp := t } = none →
        frameChunk P h d p = .stop .hdrOverflow { p with nowDraws := p.nowDraws + 1 }))

/-- R275, R272: inside a zero run, while no NOW sample is keepAlive or more after the last emitted frame, every chunk is
elided: nothing is put on OUT, however many chunks there are. -/
def Obligations.ZeroRunElided : Prop :=
  ∀ (P : Params) (cs : List (BlockHeader × Bytes)) (acc : Bytes) (p : EncPart),
    (∀ c ∈ cs, c.1.isAllZero = true) → p.enc.prevAllZero = true →
    (∀ n, (P.now n).toInt - p.enc.lastFrameTime.toInt < p.enc.cfg.keepAlive.toInt) →
    ∃ q, frameAll P cs acc p = .ok acc q ∧ q.out = p.out ∧ q.enc.outLog = p.enc.outLog ∧
      q.enc.elided = p.enc.elided + cs.length

/-- R258, R259, R268, R262, R120: what a Flush does. Before anything else the first Flush of an archive puts the FirstHeader
frame on OUT twice, a later one puts none (`FirstOut`); where that frame overflows, the Flush ends there. Slice i is
transformed at position srcPos + i × CHUNK_SIZE with index nextIdx + i; the transforms fail exactly where COMPRESS fails
for a slice that is not all-zero, and the Flush is then PRIMITIVE_FAIL. The chunks are framed in slice order; where a frame
overflows, the Flush is HDR_OVERFLOW. In both failures OUT keeps the FirstHeader frames and gets nothing of the batch. Else
OUT gets the batch after them, every buffered byte is consumed and srcPos and nextIdx move on. The draws are those of log
2, and a sum outside i64 is log 3's free value. -/
def Obligations.FlushOutput : Prop :=
  ∀ (P : Params) (p : EncPart),
    let e := p.enc
    let ss := slices P e.inBuf
    let rs := transformAll P e.cfg e.key ss e.srcPos.toInt e.nextIdx.toInt p.randDraws
    (∀ h, e.firstEmitted = false → e.first = some h → serFrame P .first h = none →
      flush P p = .stop .hdrOverflow p) ∧
    rs.1.length = ss.length ∧
    (∀ (i : Nat) (b : Bytes), ss[i]? = some b → ∃ r, rs.1[i]? =
      some (transform P e.cfg e.key b (e.srcPos.toInt + i * P.chunkSize) (e.nextIdx.toInt + i) r).1) ∧
    (P.Lawful → (e.cfg.encrypt = true → e.key.isSome) →
      (none ∈ rs.1 ↔ e.cfg.compress = true ∧
        ∃ b ∈ ss, (∃ x ∈ b, x ≠ 0) ∧ P.compress (P.compLevels e.cfg.level) b = none)) ∧
    ∀ q, FirstOut P p q →
      (none ∈ rs.1 → flush P p = .stop .primitiveFail { q with randDraws := rs.2 }) ∧
      ∀ cs, rs.1 = cs.map some →
        (∀ c u, frameAll P cs [] { q with randDraws := rs.2 } = .stop c u →
          c = .hdrOverflow ∧ flush P p = .stop c u ∧ u.out = q.out ∧ u.enc.outLog = q.enc.outLog) ∧
        ∀ batch u, frameAll P cs [] { q with randDraws := rs.2 } = .ok batch u →
          flush P p = .ok () { u with
            out := q.out ++ batch
            enc := { u.enc with
              outLog := q.enc.outLog ++ batch
              srcPos := toI64 P (e.srcPos.toInt + e.inBuf.length)
              nextIdx := toI64 P (e.nextIdx.toInt + ss.length)
              inBuf := [] } }

/-- R277, R279: ENC.FINAL in ACTIVE answers: after a Flush that is OK and frames that fit, the EoF frame and the
FinalHeader frame twice are on OUT, ENC is FINALIZED and the FinalHeader, with the fields of R279, is returned; otherwise
ENC is FAILED with the code, and no EoF or FinalHeader frame is on OUT. With ENC.first at bottom, in no state that a run
reaches, HDR_OVERFLOW is the model's choice (log 4); destPhysicalSize outside i64 is the free value of log 3; the NOW draw
is that of log 2. -/
def Obligations.EncFinalClosesArchive : Prop :=
  ∀ s : State, s.enc.state = .active →
    let P := Config.params
    match flush P (encPart s) with
    | .stop c p => exec .encFinal s = .next { s with
        enc := { p.enc with fatal := some c, state := .failed }
        out := p.out
        nowDraws := p.nowDraws
        randDraws := p.randDraws
        csr := { s.csr with cmdStatus := .fatal }
        rsp := some ⟨.fatal, 0, [], 0, none⟩ }
    | .ok _ p =>
      let t := P.now p.nowDraws
      let eof : BlockHeader :=
        ⟨p.enc.nextIdx, 0, 0, p.enc.srcPos, 0, P.sha1 [], P.sha1 [], false, true, t⟩
      let failed : State := { s with
        enc := { p.enc with fatal := some .hdrOverflow, state := .failed }
        out := p.out
        nowDraws := p.nowDraws + 1
        randDraws := p.randDraws
        csr := { s.csr with cmdStatus := .fatal }
        rsp := some ⟨.fatal, 0, [], 0, none⟩ }
      match serFrame P .block eof, p.enc.first with
      | some fe, some first =>
        let fin : FinalHeader :=
          ⟨p.enc.nextIdx, p.enc.srcPos, p.enc.destContent, toI64 P (p.enc.outLog.length + 4096), P.sha1 p.enc.srcLog,
            P.sha1 (p.enc.outLog ++ fe), t, first⟩
        match serFrame P .final fin with
        | some fz => exec .encFinal s = .next { s with
            enc := { p.enc with
              outLog := p.enc.outLog ++ fe ++ fz ++ fz
              final := some fin
              state := .finalized }
            out := p.out ++ fe ++ fz ++ fz
            nowDraws := p.nowDraws + 1
            randDraws := p.randDraws
            csr := { s.csr with cmdStatus := .ok }
            rsp := some ⟨.ok, 0, [], 0, some (.final fin)⟩ }
        | none => exec .encFinal s = .next failed
      | _, _ => exec .encFinal s = .next failed

/-- R250: the transitions of ENC's life cycle, and no other. -/
def Obligations.EncLifeCycle : Prop :=
  ∀ (i : Instr) (s t : State), exec i s = .next t →
    t.enc.state = s.enc.state ∨
    (i = .encInit ∧ s.enc.state = .idle ∧ t.enc.state = .active) ∨
    ((i = .encWrite ∨ i = .encFinal) ∧ s.enc.state = .active ∧ t.enc.state = .failed) ∨
    (i = .encFinal ∧ s.enc.state = .active ∧ t.enc.state = .finalized) ∨
    (resetsEnc s i = true ∧ t.enc.state = .idle)

/-! ### Decode Sequencer (spec/44_decoder.md) -/

/-- R300: DEC.INIT in IDLE opens a decode: DEC's fields as the rule writes them, nothing written to SINK, status OK. That the
IN stream then starts anew is the model's choice (log 6). -/
def Obligations.DecInitOpensDecode : Prop :=
  ∀ s : State, s.dec.state = .idle →
    exec .decInit s = .next { s with
      dec := ⟨.awaitFirst, none, s.csr.parallelism.toNat, s.ops.data, none, none, none, [], 0, [], 0, 0, 0, 0, []⟩
      input := []
      csr := { s.csr with cmdStatus := .ok }
      rsp := some ⟨.ok, 0, [], 0, none⟩ }

/-- R303, R304: DEC.FEED in AWAIT_FIRST or STREAMING, while less than a frame is buffered, only buffers: the bytes join the
IN stream and the buffer, and nothing is parsed. -/
def Obligations.DecFeedBuffersShortInput : Prop :=
  ∀ s : State, s.dec.state = .awaitFirst ∨ s.dec.state = .streaming →
    s.dec.inBuf.length + s.ops.data.length < 4096 →
    exec .decFeed s = .next { s with
      dec := { s.dec with inBuf := s.dec.inBuf ++ s.ops.data }
      input := s.input ++ s.ops.data
      csr := { s.csr with cmdStatus := .ok }
      rsp := some ⟨.ok, 0, [], 0, none⟩ }

/-- R303, R313, R410: DEC.FEED in AWAIT_FIRST or STREAMING is the parse loop over the fed bytes: it answers OK with what the
loop leaves, or FATAL with DEC FAILED and the loop's code. In STREAMING no frame can make DEC fatal: every DEC.FEED
answers OK, DEC stays in STREAMING, and the fed bytes are in the IN stream. -/
def Obligations.DecFeedInStreamingAnswersOk : Prop :=
  ∀ s : State,
    let run := parseLoop Config.params false (feedPart s.ops.data (decPart s))
    (s.dec.state = .awaitFirst ∨ s.dec.state = .streaming →
      (∀ q, run = .ok () q → exec .decFeed s = .next { s with
        dec := q.dec
        sink := q.sink
        input := s.input ++ s.ops.data
        csr := { s.csr with cmdStatus := .ok }
        rsp := some ⟨.ok, 0, [], 0, none⟩ }) ∧
      ∀ c q, run = .stop (.fatal c) q → exec .decFeed s = .next { s with
        dec := { q.dec with fatal := some c, state := .failed }
        sink := q.sink
        input := s.input ++ s.ops.data
        csr := { s.csr with cmdStatus := .fatal }
        rsp := some ⟨.fatal, 0, [], 0, none⟩ }) ∧
    (s.dec.state = .streaming → DecInv s.dec s.input →
      (∃ q, run = .ok () q) ∧
      ∃ t, exec .decFeed s = .next t ∧ t.rsp = some ⟨.ok, 0, [], 0, none⟩ ∧ t.dec.state = .streaming ∧
        t.input = s.input ++ s.ops.data ∧ t.enc = s.enc ∧ t.out = s.out)

/-- R305, R403: the frame at offset 0 is checked in this order: a FirstHeader, its version, the password, the unwrapped
key; the first check that fails is the fatal condition, with DEC as it was. A FirstHeader that passes is recorded, its
4096 bytes are consumed and DEC is STREAMING. (R410, R313, R330, R336) The command that meets the fatal condition, be it
DEC.FEED or DEC.FINAL, answers FATAL with DEC FAILED and the code recorded (`FirstFrameFails`); the fed bytes stay in the
buffer and the IN stream, and the counters, SINK and all else are untouched. A DEC.FINAL with less than a frame buffered
is NO_FIRST_HEADER. -/
def Obligations.FirstFrameChecks : Prop :=
  (∀ (P : Params) (final : Bool) (p : DecPart), p.dec.state = .awaitFirst →
    match parseFrame P (p.dec.inBuf.take 4096) with
    | .first h =>
      let pass (k : Option Key) : Run DecStop DecPart Bool := .ok true { p with dec := { p.dec with
        first := some h
        key := k
        state := .streaming
        inBuf := p.dec.inBuf.drop 4096
        cursor := p.dec.cursor + 4096 } }
      (h.version ≠ 1 → parseTurn P final p = .stop (.fatal .badVersion) p) ∧
      (h.version = 1 → h.encrypted = false → parseTurn P final p = pass p.dec.key) ∧
      (h.version = 1 → h.encrypted = true → P.pwVerify h.saltedPassword p.dec.password = false →
        parseTurn P final p = .stop (.fatal .badPassword) p) ∧
      (h.version = 1 → h.encrypted = true → P.pwVerify h.saltedPassword p.dec.password = true →
        (∀ k : Key, P.pwUnseal h.wrappedMasterKey p.dec.password = some k.val →
          parseTurn P final p = pass (some k)) ∧
        ((∀ k : Key, P.pwUnseal h.wrappedMasterKey p.dec.password ≠ some k.val) →
          parseTurn P final p = .stop (.fatal .unwrapFail) p))
    | _ => parseTurn P final p = .stop (.fatal .noFirstHeader) p) ∧
  ∀ s : State, s.dec.state = .awaitFirst →
    (4096 ≤ s.dec.inBuf.length + s.ops.data.length → ∀ c,
      FirstFrameFails Config.params ((s.dec.inBuf ++ s.ops.data).take 4096) s.dec.password c →
      exec .decFeed s = .next { s with
        dec := { s.dec with inBuf := s.dec.inBuf ++ s.ops.data, fatal := some c, state := .failed }
        input := s.input ++ s.ops.data
        csr := { s.csr with cmdStatus := .fatal }
        rsp := some ⟨.fatal, 0, [], 0, none⟩ }) ∧
    ∀ c, (4096 ≤ s.dec.inBuf.length ∧
          FirstFrameFails Config.params (s.dec.inBuf.take 4096) s.dec.password c ∨
        s.dec.inBuf.length < 4096 ∧ c = .noFirstHeader) →
      exec .decFinal s = .next { s with
        dec := { s.dec with fatal := some c, state := .failed }
        csr := { s.csr with cmdStatus := .fatal }
        rsp := some ⟨.fatal, 0, [], 0, none⟩ }

/-- R306, R307, R308: the frames of STREAMING that are no BlockHeader. One that is UNRECOGNIZED or INVALID is one error
CORRUPT_FRAME, charged to the cursor. A valid FirstHeader is consumed with no error, no warning and no comparison. A valid
FinalHeader is recorded if none has been yet. Each moves the cursor by exactly 4096, and parsing goes on. -/
def Obligations.StreamingFramesConsumed : Prop :=
  ∀ (P : Params) (final : Bool) (p : DecPart), p.dec.state = .streaming →
    ((parseFrame P (p.dec.inBuf.take 4096) = .unrecognized ∨ parseFrame P (p.dec.inBuf.take 4096) = .invalid) →
      parseTurn P final p = .ok true { p with dec := { p.dec with
        errors := p.dec.errors + 1
        trace := p.dec.trace ++ [⟨.corruptFrame, p.dec.cursor⟩]
        inBuf := p.dec.inBuf.drop 4096
        cursor := p.dec.cursor + 4096 } }) ∧
    (∀ h, parseFrame P (p.dec.inBuf.take 4096) = .first h →
      parseTurn P final p = .ok true { p with dec := { p.dec with
        inBuf := p.dec.inBuf.drop 4096
        cursor := p.dec.cursor + 4096 } }) ∧
    ∀ h, parseFrame P (p.dec.inBuf.take 4096) = .final h →
      parseTurn P final p = .ok true { p with dec := { p.dec with
        final := if p.dec.final.isSome then p.dec.final else some h
        inBuf := p.dec.inBuf.drop 4096
        cursor := p.dec.cursor + 4096 } }

/-- R309 to R311, R314, R318, R331: a BlockHeader frame in STREAMING. An insane one is an error and is skipped. A sane one
raises outLen; with its payload incomplete parsing waits (or, at DEC.FINAL, it is an error and is skipped); with it complete
the chunk is enqueued and the cursor moves past header and payload, and if the batch then holds par chunks RunBatch
follows before the next frame. -/
def Obligations.BlockFrameWaitsOrEnqueues : Prop :=
  ∀ (P : Params) (p : DecPart) (h : BlockHeader), p.dec.state = .streaming →
    parseFrame P (p.dec.inBuf.take 4096) = .block h →
    let d := { p.dec with
      outLen := max p.dec.outLen (h.srcDataPosition.toInt + h.srcDataLength.toInt).toNat }
    let n := h.destDataSize.toInt.toNat
    let enqueued : DecPart := { p with dec := { d with
      batch := d.batch ++ [⟨h, slice d.inBuf 4096 (4096 + n), d.cursor⟩]
      inBuf := d.inBuf.drop (4096 + n)
      cursor := d.cursor + (4096 + n) } }
    (sane h = false → ∀ final, parseTurn P final p = .ok true { p with dec := { p.dec with
      errors := p.dec.errors + 1
      trace := p.dec.trace ++ [⟨.insaneHeader, p.dec.cursor⟩]
      inBuf := p.dec.inBuf.drop 4096
      cursor := p.dec.cursor + 4096 } }) ∧
    (sane h = true → p.dec.inBuf.length < 4096 + n → parseTurn P false p = .ok false { p with dec := d }) ∧
    (sane h = true → p.dec.inBuf.length < 4096 + n → parseTurn P true p = .ok true { p with dec := { d with
      errors := d.errors + 1
      trace := d.trace ++ [⟨.incompletePayload, d.cursor⟩]
      inBuf := d.inBuf.drop 4096
      cursor := d.cursor + 4096 } }) ∧
    (sane h = true → 4096 + n ≤ p.dec.inBuf.length → p.dec.batch.length + 1 ≠ p.dec.par →
      ∀ final, parseTurn P final p = .ok true enqueued) ∧
    (sane h = true → 4096 + n ≤ p.dec.inBuf.length → p.dec.batch.length + 1 = p.dec.par →
      ∀ final, parseTurn P final p = (runBatch P enqueued).bind fun _ q => .ok true q)

/-- R304, R310, R471: the parse loop takes a turn while a full frame is buffered, and another while the turn asks for one;
it ends only with less than a frame buffered, or, in DEC.FEED, at a sane BlockHeader whose payload is not yet complete. -/
def Obligations.ParseLoopEnds : Prop :=
  ∀ (P : Params) (final : Bool) (p : DecPart),
    (p.dec.inBuf.length < 4096 → parseLoop P final p = .ok () p) ∧
    (4096 ≤ p.dec.inBuf.length → parseLoop P final p =
      (parseTurn P final p).bind fun more q => if more then parseLoop P final q else .ok () q) ∧
    ∀ q, parseLoop P final p = .ok () q →
      q.dec.inBuf.length < 4096 ∨
        (final = false ∧ q.dec.state ≠ .awaitFirst ∧
          ∃ h, parseFrame P (q.dec.inBuf.take 4096) = .block h ∧ sane h = true ∧
            q.dec.inBuf.length < 4096 + h.destDataSize.toInt.toNat)

/-- R303: how the archive is split into DEC.FEED calls does not matter: parsing some of it and then the rest does what
parsing it whole does. -/
def Obligations.InputSplitIrrelevant : Prop :=
  ∀ (P : Params) (p q : DecPart) (b : Bytes), parseLoop P false p = .ok () q →
    parseLoop P false (feedPart b p) = parseLoop P false (feedPart b q)

/-- R317, R320, R321: what DecodeChunk gives to write is exactly srcDataLength bytes; an EoF header gives nothing and no
event, whatever its other fields hold; an all-zero header gives zeros and no event. -/
def Obligations.DecodedChunkFillsItsRange : Prop :=
  ∀ (P : Params) (e c : Bool) (key : Option Key) (h : BlockHeader) (p : Bytes),
    (∀ v, (decodeChunk P e c key h p).1 = some v → v.length = h.srcDataLength.toInt.toNat) ∧
    (h.isEoF = true → decodeChunk P e c key h p = (none, [])) ∧
    (h.isEoF = false → h.isAllZero = true →
      decodeChunk P e c key h p = (some (List.replicate h.srcDataLength.toInt.toNat 0), []))

/-- R415, R316, R322 to R329: the events of one chunk are at most DEST_HASH_MISMATCH, exactly when the payload's hash
differs, and then at most one error or SRC_HASH_MISMATCH; and a chunk with an error is written as zeros. Of a sane header,
with the key there when the archive is encrypted: TRANSFORM_FAIL exactly when the payload's length is outside TC_DOMAIN or
DECOMPRESS fails, PAYLOAD_BOUNDS when the content is longer than the decrypted payload, LENGTH_MISMATCH when what comes out
has not srcDataLength bytes, each where no earlier step failed; else the chunk is written as it comes out, with
SRC_HASH_MISMATCH exactly when its hash differs. -/
def Obligations.ChunkEventOrder : Prop :=
  ∀ (P : Params) (e c : Bool) (key : Option Key) (h : BlockHeader) (p : Bytes), h.isEoF = false → h.isAllZero = false →
    let dest : List SoftCause := if P.sha1 p = h.destSha1 then [] else [.destHashMismatch]
    let zero := List.replicate h.srcDataLength.toInt.toNat 0
    (∃ last : Option SoftCause,
      (decodeChunk P e c key h p).2 = dest ++ last.toList ∧
      (last = none ∨ last = some .srcHashMismatch ∨
        ((last = some .transformFail ∨ last = some .payloadBounds ∨ last = some .lengthMismatch) ∧
          (decodeChunk P e c key h p).1 = some zero))) ∧
    ∀ k : Key, sane h = true → (e = true → key = some k) →
      let plain := if e then P.tcDec k h.srcDataPosition p else p
      let content := plain.take h.destDataSizeWithoutPadding.toInt.toNat
      (e = true → P.tcDomain p.length = false →
        decodeChunk P e c key h p = (some zero, dest ++ [.transformFail])) ∧
      ((e = true → P.tcDomain p.length = true) →
        ((plain.length : Int) < h.destDataSizeWithoutPadding.toInt →
          decodeChunk P e c key h p = (some zero, dest ++ [.payloadBounds])) ∧
        (h.destDataSizeWithoutPadding.toInt ≤ plain.length →
          (c = true → P.decompress content = none →
            decodeChunk P e c key h p = (some zero, dest ++ [.transformFail])) ∧
          ∀ out, (if c then P.decompress content = some out else out = content) →
            ((out.length : Int) ≠ h.srcDataLength.toInt →
              decodeChunk P e c key h p = (some zero, dest ++ [.lengthMismatch])) ∧
            ((out.length : Int) = h.srcDataLength.toInt →
              decodeChunk P e c key h p =
                (some out, dest ++ if P.sha1 out = h.srcSha1 then [] else [.srcHashMismatch]))))

/-- R315, R317, R319, R121, R414: RunBatch changes a byte of SINK only inside the range of a chunk of the batch that is no
EoF header. It decodes every chunk with DEC's options and key and writes what DecodeChunk gives, in stream order: a byte
of a chunk that no later chunk of the batch covers reads as decoded, so a later chunk wins over an earlier one. totalBytes
grows by exactly the bytes written, the soft events join the trace in order, each charged to its chunk's frame, and are
counted; the batch is emptied and nothing else of DEC changes. A batch of sane headers always runs to its end. -/
def Obligations.RunBatchWritesOnlyItsRanges : Prop :=
  ∀ (P : Params) (p : DecPart),
    ((∀ b ∈ p.dec.batch, sane b.hdr = true) → ∃ q, runBatch P p = .ok () q) ∧
    ∀ q, runBatch P p = .ok () q →
      (∀ a, (∀ b ∈ p.dec.batch, ¬ entryCovers b a) → Memory.get q.sink a = Memory.get p.sink a) ∧
      q.dec.batch = [] ∧ q.dec.inBuf = p.dec.inBuf ∧ q.dec.cursor = p.dec.cursor ∧ q.dec.state = p.dec.state ∧
      ∀ f, p.dec.first = some f →
        let decoded (b : BatchEntry) := decodeChunk P f.encrypted f.compressed p.dec.key b.hdr b.payload
        let events := p.dec.batch.flatMap fun b => (decoded b).2.map fun c => (⟨c, b.offset⟩ : SoftEvent)
        q.dec = { p.dec with
          batch := []
          totalBytes := p.dec.totalBytes + (p.dec.batch.map fun b => ((decoded b).1.getD []).length).sum
          errors := p.dec.errors + countSeverity .error events
          warnings := p.dec.warnings + countSeverity .warning events
          trace := p.dec.trace ++ events } ∧
        (Memory.wf p.sink = true → ∀ before b after v i x, p.dec.batch = before ++ b :: after →
          (decoded b).1 = some v → v[i]? = some x →
          let a := b.hdr.srcDataPosition.toInt.toNat + i
          (∀ b' ∈ after, ¬ entryCovers b' a) → Memory.get q.sink a = x)

/-- R105, R107, R317, R318, R320: which bytes of SINK DEC.FEED and DEC.FINAL may change: only those in the source range of a
chunk that is no EoF header and that was waiting in the batch or whose sane BlockHeader frame stands in the IN stream at or
after the cursor; and none at or beyond the logical output length they leave. -/
def Obligations.DecodeWritesOnlyChunkRanges : Prop :=
  ∀ (i : Instr) (s t : State), i = .decFeed ∨ i = .decFinal → DecInv s.dec s.input → exec i s = .next t →
    ∀ a,
      ((∀ b, entryCovers b a → b ∉ s.dec.batch ∧
          ¬ (s.dec.cursor ≤ b.offset ∧ sane b.hdr = true ∧
            parseFrame Config.params (slice t.input b.offset (b.offset + 4096)) = .block b.hdr)) ∨
        t.dec.outLen ≤ a) →
      Memory.get t.sink a = Memory.get s.sink a

/-- R330, R334, R335: DEC.FINAL in AWAIT_FIRST or STREAMING is its procedure: it answers OK with what the procedure leaves,
or FATAL with DEC FAILED and the code. In STREAMING it answers. If a FinalHeader has been recorded, DEC is FINALIZED, the
status is OK and outLen is at least its totalSourceSize; if none has, DEC is FAILED with TRUNCATED. Nothing is left in the
batch. -/
def Obligations.DecFinalEndsDecode : Prop :=
  ∀ s : State,
    (s.dec.state = .awaitFirst ∨ s.dec.state = .streaming →
      (∀ q, finishDecode Config.params (decPart s) = .ok () q → exec .decFinal s = .next { s with
        dec := q.dec
        sink := q.sink
        csr := { s.csr with cmdStatus := .ok }
        rsp := some ⟨.ok, 0, [], 0, none⟩ }) ∧
      ∀ c q, finishDecode Config.params (decPart s) = .stop (.fatal c) q → exec .decFinal s = .next { s with
        dec := { q.dec with fatal := some c, state := .failed }
        sink := q.sink
        csr := { s.csr with cmdStatus := .fatal }
        rsp := some ⟨.fatal, 0, [], 0, none⟩ }) ∧
    (s.dec.state = .streaming → DecInv s.dec s.input →
      ∃ t, exec .decFinal s = .next t ∧ t.dec.batch = [] ∧ t.dec.inBuf = [] ∧
        ((∃ f, t.dec.final = some f ∧ t.dec.state = .finalized ∧ t.dec.fatal = s.dec.fatal ∧
            f.totalSourceSize.toInt ≤ t.dec.outLen ∧ t.rsp = some ⟨.ok, 0, [], 0, none⟩) ∨
          (t.dec.final = none ∧ t.dec.state = .failed ∧ t.dec.fatal = some .truncated ∧
            t.rsp = some ⟨.fatal, 0, [], 0, none⟩)) ∧
        (s.dec.final.isSome → t.dec.final = s.dec.final))

/-- R335, R332: the end of a decode with nothing to parse and no pending chunk: leftover bytes are one error at the cursor
and are discarded, outLen is raised to totalSourceSize, and a whole-output hash that differs from sourceSha1 is one error,
never fatal. -/
def Obligations.FinalHashIsAnError : Prop :=
  ∀ (s : State) (f : FinalHeader), s.dec.state = .streaming → s.dec.batch = [] → s.dec.inBuf.length < 4096 →
    s.dec.final = some f → s.dec.outLen ≤ 2 ^ 63 - 1 →
    let n := if 0 ≤ f.totalSourceSize.toInt then max s.dec.outLen f.totalSourceSize.toInt.toNat else s.dec.outLen
    let tail : List SoftEvent := if s.dec.inBuf = [] then [] else [⟨.incompleteTail, s.dec.cursor⟩]
    let hash : List SoftEvent :=
      if Config.params.sha1 (Memory.readBytes s.sink 0 n) = f.sourceSha1 then []
      else [⟨.finalHashMismatch, s.dec.cursor⟩]
    exec .decFinal s = .next { s with
      dec := { s.dec with
        state := .finalized
        inBuf := []
        outLen := n
        errors := s.dec.errors + tail.length + hash.length
        trace := s.dec.trace ++ tail ++ hash }
      csr := { s.csr with cmdStatus := .ok }
      rsp := some ⟨.ok, 0, [], 0, none⟩ }

/-- R339: the round trip. Let an archive be made of the source `X` with any options, password and draws, in batches of any
size. Fed to a DEC with the same password, in any pieces and with any batch size, and with SINK zeroed, it decodes with no
fatal condition; DEC.FINAL's procedure then ends FINALIZED with no error and no warning, outLen is the source's length, and
SINK holds the source. The source and the archive are shorter than 2^63 bytes, since the fields are i64. -/
def Obligations.RoundTrip : Prop :=
  ∀ (P : Params) (cfg : EncCfg) (pw X : Bytes) (p₀ p₁ p₂ : EncPart) (fin : FinalHeader) (par : Nat) (pieces : List Bytes),
    P.Lawful → 1 ≤ cfg.par → 1 ≤ par → X.length < 2 ^ 63 → p₂.enc.outLog.length < 2 ^ 63 →
    acceptBytes P X (openArchive P cfg pw p₀) = .ok () p₁ → finishArchive P p₁ = .ok fin p₂ →
    pieces.flatten = p₂.enc.outLog →
    ∃ q r, feedAll P pieces ⟨openDecode par pw, []⟩ = .ok () q ∧ finishDecode P q = .ok () r ∧
      r.dec.state = .finalized ∧ r.dec.errors = 0 ∧ r.dec.warnings = 0 ∧
      r.dec.outLen = X.length ∧ Memory.readBytes r.sink 0 X.length = X

/-- R73, R302: while a DEC instance lives, its counters and its cursor never decrease. -/
def Obligations.DecCountersNeverDecrease : Prop :=
  ∀ (i : Instr) (s t : State), exec i s = .next t → i ≠ .decInit → resetsDec s i = false →
    s.dec.errors ≤ t.dec.errors ∧ s.dec.warnings ≤ t.dec.warnings ∧ s.dec.totalBytes ≤ t.dec.totalBytes ∧
      s.dec.cursor ≤ t.dec.cursor ∧ s.dec.outLen ≤ t.dec.outLen

/-- R301: the transitions of DEC's life cycle, and no other. -/
def Obligations.DecLifeCycle : Prop :=
  ∀ (i : Instr) (s t : State), DecInv s.dec s.input → exec i s = .next t →
    t.dec.state = s.dec.state ∨
    (i = .decInit ∧ s.dec.state = .idle ∧ t.dec.state = .awaitFirst) ∨
    (i = .decFeed ∧ s.dec.state = .awaitFirst ∧ (t.dec.state = .streaming ∨ t.dec.state = .failed)) ∨
    (i = .decFinal ∧ s.dec.state = .awaitFirst ∧ t.dec.state = .failed ∧ t.dec.fatal = some .noFirstHeader) ∨
    (i = .decFinal ∧ s.dec.state = .streaming ∧ t.dec.state = .finalized ∧ t.dec.final.isSome) ∨
    (i = .decFinal ∧ s.dec.state = .streaming ∧ t.dec.state = .failed ∧ t.dec.fatal = some .truncated ∧
      t.dec.final = none) ∨
    (resetsDec s i = true ∧ t.dec.state = .idle)

/-! ### Invariants -/

/-- The state after reset meets the invariant (R71, R73, R77 to R79). -/
def Obligations.ResetMeetsInvariant : Prop := Inv Config.params State.reset

/-- R71, R47: ENC's invariant and the legality of the CSRs are kept by every step, from every state that meets them. -/
def Obligations.StepKeepsEncInvariant : Prop :=
  ∀ s t : State, CsrLegal Config.params s.csr → EncInv Config.params s.enc s.out → step s = .next t →
    CsrLegal Config.params t.csr ∧ EncInv Config.params t.enc t.out

/-- R73: DEC's invariant and SINK's canonical form are kept by every step, from every state that meets them. -/
def Obligations.StepKeepsDecInvariant : Prop :=
  ∀ s t : State, CsrLegal Config.params s.csr → DecInv s.dec s.input → SinkInv s.sink → step s = .next t →
    DecInv t.dec t.input ∧ SinkInv t.sink

/-- R104, R101: every step keeps SINK in its canonical form and inside its addresses, whatever else the state holds. -/
def Obligations.StepKeepsSinkCanonical : Prop :=
  ∀ s t : State, SinkInv s.sink → step s = .next t → SinkInv t.sink

/-- R471, R105: from a state that meets the invariant every step answers a next state: no fault and no refusal. -/
def Obligations.InvariantStatesNeverStop : Prop :=
  ∀ s : State, Inv Config.params s → ∃ t, step s = .next t
end

