-- ==== Sys2Proof/Laws/State.lean ====
section
/-! SUPPORT. One lemma per field of State per named update, and the fields of the units under the named updates of ENC
and DEC: all true by unfolding, all for simp. -/

namespace Sys2Proof.Machine

/-! `answer`: only the response -/

@[simp] theorem answer_csr (r : Response) (s : State) : (answer r s).csr = s.csr := rfl
@[simp] theorem answer_enc (r : Response) (s : State) : (answer r s).enc = s.enc := rfl
@[simp] theorem answer_dec (r : Response) (s : State) : (answer r s).dec = s.dec := rfl
@[simp] theorem answer_out (r : Response) (s : State) : (answer r s).out = s.out := rfl
@[simp] theorem answer_input (r : Response) (s : State) : (answer r s).input = s.input := rfl
@[simp] theorem answer_sink (r : Response) (s : State) : (answer r s).sink = s.sink := rfl
@[simp] theorem answer_nowDraws (r : Response) (s : State) : (answer r s).nowDraws = s.nowDraws := rfl
@[simp] theorem answer_randDraws (r : Response) (s : State) : (answer r s).randDraws = s.randDraws := rfl
@[simp] theorem answer_cmds (r : Response) (s : State) : (answer r s).cmds = s.cmds := rfl
@[simp] theorem answer_ops (r : Response) (s : State) : (answer r s).ops = s.ops := rfl
@[simp] theorem answer_rsp (r : Response) (s : State) : (answer r s).rsp = some r := rfl

/-! `complete`: the response and CMD_STATUS -/

@[simp] theorem complete_csr (r : Response) (s : State) : (complete r s).csr = { s.csr with cmdStatus := r.status } :=
    rfl
@[simp] theorem complete_enc (r : Response) (s : State) : (complete r s).enc = s.enc := rfl
@[simp] theorem complete_dec (r : Response) (s : State) : (complete r s).dec = s.dec := rfl
@[simp] theorem complete_out (r : Response) (s : State) : (complete r s).out = s.out := rfl
@[simp] theorem complete_input (r : Response) (s : State) : (complete r s).input = s.input := rfl
@[simp] theorem complete_sink (r : Response) (s : State) : (complete r s).sink = s.sink := rfl
@[simp] theorem complete_nowDraws (r : Response) (s : State) : (complete r s).nowDraws = s.nowDraws := rfl
@[simp] theorem complete_randDraws (r : Response) (s : State) : (complete r s).randDraws = s.randDraws := rfl
@[simp] theorem complete_cmds (r : Response) (s : State) : (complete r s).cmds = s.cmds := rfl
@[simp] theorem complete_ops (r : Response) (s : State) : (complete r s).ops = s.ops := rfl
@[simp] theorem complete_rsp (r : Response) (s : State) : (complete r s).rsp = some r := rfl

/-! `completeStatus`: the status -/

@[simp] theorem completeStatus_csr (st : Status) (s : State) : (completeStatus st s).csr =
    { s.csr with cmdStatus := st } := rfl
@[simp] theorem completeStatus_enc (st : Status) (s : State) : (completeStatus st s).enc = s.enc := rfl
@[simp] theorem completeStatus_dec (st : Status) (s : State) : (completeStatus st s).dec = s.dec := rfl
@[simp] theorem completeStatus_out (st : Status) (s : State) : (completeStatus st s).out = s.out := rfl
@[simp] theorem completeStatus_input (st : Status) (s : State) : (completeStatus st s).input = s.input := rfl
@[simp] theorem completeStatus_sink (st : Status) (s : State) : (completeStatus st s).sink = s.sink := rfl
@[simp] theorem completeStatus_nowDraws (st : Status) (s : State) : (completeStatus st s).nowDraws = s.nowDraws := rfl
@[simp] theorem completeStatus_randDraws (st : Status) (s : State) : (completeStatus st s).randDraws = s.randDraws :=
    rfl
@[simp] theorem completeStatus_cmds (st : Status) (s : State) : (completeStatus st s).cmds = s.cmds := rfl
@[simp] theorem completeStatus_ops (st : Status) (s : State) : (completeStatus st s).ops = s.ops := rfl
@[simp] theorem completeStatus_rsp (st : Status) (s : State) : (completeStatus st s).rsp = some (statusResponse st) :=
    rfl

/-! `enterFatalEnc`: ENC is FAILED -/

@[simp] theorem enterFatalEnc_csr (c : EncFatal) (s : State) : (enterFatalEnc c s).csr =
    { s.csr with cmdStatus := .fatal } := rfl
@[simp] theorem enterFatalEnc_enc (c : EncFatal) (s : State) : (enterFatalEnc c s).enc =
    { s.enc with fatal := some c, state := .failed } := rfl
@[simp] theorem enterFatalEnc_dec (c : EncFatal) (s : State) : (enterFatalEnc c s).dec = s.dec := rfl
@[simp] theorem enterFatalEnc_out (c : EncFatal) (s : State) : (enterFatalEnc c s).out = s.out := rfl
@[simp] theorem enterFatalEnc_input (c : EncFatal) (s : State) : (enterFatalEnc c s).input = s.input := rfl
@[simp] theorem enterFatalEnc_sink (c : EncFatal) (s : State) : (enterFatalEnc c s).sink = s.sink := rfl
@[simp] theorem enterFatalEnc_nowDraws (c : EncFatal) (s : State) : (enterFatalEnc c s).nowDraws = s.nowDraws := rfl
@[simp] theorem enterFatalEnc_randDraws (c : EncFatal) (s : State) : (enterFatalEnc c s).randDraws = s.randDraws := rfl
@[simp] theorem enterFatalEnc_cmds (c : EncFatal) (s : State) : (enterFatalEnc c s).cmds = s.cmds := rfl
@[simp] theorem enterFatalEnc_ops (c : EncFatal) (s : State) : (enterFatalEnc c s).ops = s.ops := rfl
@[simp] theorem enterFatalEnc_rsp (c : EncFatal) (s : State) : (enterFatalEnc c s).rsp =
    some (statusResponse .fatal) := rfl

/-! `enterFatalDec`: DEC is FAILED -/

@[simp] theorem enterFatalDec_csr (c : DecFatal) (s : State) : (enterFatalDec c s).csr =
    { s.csr with cmdStatus := .fatal } := rfl
@[simp] theorem enterFatalDec_enc (c : DecFatal) (s : State) : (enterFatalDec c s).enc = s.enc := rfl
@[simp] theorem enterFatalDec_dec (c : DecFatal) (s : State) : (enterFatalDec c s).dec =
    { s.dec with fatal := some c, state := .failed } := rfl
@[simp] theorem enterFatalDec_out (c : DecFatal) (s : State) : (enterFatalDec c s).out = s.out := rfl
@[simp] theorem enterFatalDec_input (c : DecFatal) (s : State) : (enterFatalDec c s).input = s.input := rfl
@[simp] theorem enterFatalDec_sink (c : DecFatal) (s : State) : (enterFatalDec c s).sink = s.sink := rfl
@[simp] theorem enterFatalDec_nowDraws (c : DecFatal) (s : State) : (enterFatalDec c s).nowDraws = s.nowDraws := rfl
@[simp] theorem enterFatalDec_randDraws (c : DecFatal) (s : State) : (enterFatalDec c s).randDraws = s.randDraws := rfl
@[simp] theorem enterFatalDec_cmds (c : DecFatal) (s : State) : (enterFatalDec c s).cmds = s.cmds := rfl
@[simp] theorem enterFatalDec_ops (c : DecFatal) (s : State) : (enterFatalDec c s).ops = s.ops := rfl
@[simp] theorem enterFatalDec_rsp (c : DecFatal) (s : State) : (enterFatalDec c s).rsp =
    some (statusResponse .fatal) := rfl

/-! `resetEnc`: ENC alone -/

@[simp] theorem resetEnc_csr (s : State) : (resetEnc s).csr = s.csr := rfl
@[simp] theorem resetEnc_enc (s : State) : (resetEnc s).enc = Enc.reset := rfl
@[simp] theorem resetEnc_dec (s : State) : (resetEnc s).dec = s.dec := rfl
@[simp] theorem resetEnc_out (s : State) : (resetEnc s).out = s.out := rfl
@[simp] theorem resetEnc_input (s : State) : (resetEnc s).input = s.input := rfl
@[simp] theorem resetEnc_sink (s : State) : (resetEnc s).sink = s.sink := rfl
@[simp] theorem resetEnc_nowDraws (s : State) : (resetEnc s).nowDraws = s.nowDraws := rfl
@[simp] theorem resetEnc_randDraws (s : State) : (resetEnc s).randDraws = s.randDraws := rfl
@[simp] theorem resetEnc_cmds (s : State) : (resetEnc s).cmds = s.cmds := rfl
@[simp] theorem resetEnc_ops (s : State) : (resetEnc s).ops = s.ops := rfl
@[simp] theorem resetEnc_rsp (s : State) : (resetEnc s).rsp = s.rsp := rfl

/-! `resetDec`: DEC alone -/

@[simp] theorem resetDec_csr (s : State) : (resetDec s).csr = s.csr := rfl
@[simp] theorem resetDec_enc (s : State) : (resetDec s).enc = s.enc := rfl
@[simp] theorem resetDec_dec (s : State) : (resetDec s).dec = Dec.reset := rfl
@[simp] theorem resetDec_out (s : State) : (resetDec s).out = s.out := rfl
@[simp] theorem resetDec_input (s : State) : (resetDec s).input = s.input := rfl
@[simp] theorem resetDec_sink (s : State) : (resetDec s).sink = s.sink := rfl
@[simp] theorem resetDec_nowDraws (s : State) : (resetDec s).nowDraws = s.nowDraws := rfl
@[simp] theorem resetDec_randDraws (s : State) : (resetDec s).randDraws = s.randDraws := rfl
@[simp] theorem resetDec_cmds (s : State) : (resetDec s).cmds = s.cmds := rfl
@[simp] theorem resetDec_ops (s : State) : (resetDec s).ops = s.ops := rfl
@[simp] theorem resetDec_rsp (s : State) : (resetDec s).rsp = s.rsp := rfl

/-! `setEncPart`: ENC, OUT and the draws -/

@[simp] theorem setEncPart_csr (p : EncPart) (s : State) : (setEncPart p s).csr = s.csr := rfl
@[simp] theorem setEncPart_enc (p : EncPart) (s : State) : (setEncPart p s).enc = p.enc := rfl
@[simp] theorem setEncPart_dec (p : EncPart) (s : State) : (setEncPart p s).dec = s.dec := rfl
@[simp] theorem setEncPart_out (p : EncPart) (s : State) : (setEncPart p s).out = p.out := rfl
@[simp] theorem setEncPart_input (p : EncPart) (s : State) : (setEncPart p s).input = s.input := rfl
@[simp] theorem setEncPart_sink (p : EncPart) (s : State) : (setEncPart p s).sink = s.sink := rfl
@[simp] theorem setEncPart_nowDraws (p : EncPart) (s : State) : (setEncPart p s).nowDraws = p.nowDraws := rfl
@[simp] theorem setEncPart_randDraws (p : EncPart) (s : State) : (setEncPart p s).randDraws = p.randDraws := rfl
@[simp] theorem setEncPart_cmds (p : EncPart) (s : State) : (setEncPart p s).cmds = s.cmds := rfl
@[simp] theorem setEncPart_ops (p : EncPart) (s : State) : (setEncPart p s).ops = s.ops := rfl
@[simp] theorem setEncPart_rsp (p : EncPart) (s : State) : (setEncPart p s).rsp = s.rsp := rfl

/-! `setDecPart`: DEC and SINK -/

@[simp] theorem setDecPart_csr (p : DecPart) (s : State) : (setDecPart p s).csr = s.csr := rfl
@[simp] theorem setDecPart_enc (p : DecPart) (s : State) : (setDecPart p s).enc = s.enc := rfl
@[simp] theorem setDecPart_dec (p : DecPart) (s : State) : (setDecPart p s).dec = p.dec := rfl
@[simp] theorem setDecPart_out (p : DecPart) (s : State) : (setDecPart p s).out = s.out := rfl
@[simp] theorem setDecPart_input (p : DecPart) (s : State) : (setDecPart p s).input = s.input := rfl
@[simp] theorem setDecPart_sink (p : DecPart) (s : State) : (setDecPart p s).sink = p.sink := rfl
@[simp] theorem setDecPart_nowDraws (p : DecPart) (s : State) : (setDecPart p s).nowDraws = s.nowDraws := rfl
@[simp] theorem setDecPart_randDraws (p : DecPart) (s : State) : (setDecPart p s).randDraws = s.randDraws := rfl
@[simp] theorem setDecPart_cmds (p : DecPart) (s : State) : (setDecPart p s).cmds = s.cmds := rfl
@[simp] theorem setDecPart_ops (p : DecPart) (s : State) : (setDecPart p s).ops = s.ops := rfl
@[simp] theorem setDecPart_rsp (p : DecPart) (s : State) : (setDecPart p s).rsp = s.rsp := rfl

/-! `takeInput`: the IN stream and the input buffer -/

@[simp] theorem takeInput_csr (b : Bytes) (s : State) : (takeInput b s).csr = s.csr := rfl
@[simp] theorem takeInput_enc (b : Bytes) (s : State) : (takeInput b s).enc = s.enc := rfl
@[simp] theorem takeInput_dec (b : Bytes) (s : State) : (takeInput b s).dec =
    { s.dec with inBuf := s.dec.inBuf ++ b } := rfl
@[simp] theorem takeInput_out (b : Bytes) (s : State) : (takeInput b s).out = s.out := rfl
@[simp] theorem takeInput_input (b : Bytes) (s : State) : (takeInput b s).input = s.input ++ b := rfl
@[simp] theorem takeInput_sink (b : Bytes) (s : State) : (takeInput b s).sink = s.sink := rfl
@[simp] theorem takeInput_nowDraws (b : Bytes) (s : State) : (takeInput b s).nowDraws = s.nowDraws := rfl
@[simp] theorem takeInput_randDraws (b : Bytes) (s : State) : (takeInput b s).randDraws = s.randDraws := rfl
@[simp] theorem takeInput_cmds (b : Bytes) (s : State) : (takeInput b s).cmds = s.cmds := rfl
@[simp] theorem takeInput_ops (b : Bytes) (s : State) : (takeInput b s).ops = s.ops := rfl
@[simp] theorem takeInput_rsp (b : Bytes) (s : State) : (takeInput b s).rsp = s.rsp := rfl

/-! `acceptCommand`: the command port and the operands in use -/

@[simp] theorem acceptCommand_csr (c : Command) (l : List Command) (s : State) : (acceptCommand c l s).csr = s.csr :=
    rfl
@[simp] theorem acceptCommand_enc (c : Command) (l : List Command) (s : State) : (acceptCommand c l s).enc = s.enc :=
    rfl
@[simp] theorem acceptCommand_dec (c : Command) (l : List Command) (s : State) : (acceptCommand c l s).dec = s.dec :=
    rfl
@[simp] theorem acceptCommand_out (c : Command) (l : List Command) (s : State) : (acceptCommand c l s).out = s.out :=
    rfl
@[simp] theorem acceptCommand_input (c : Command) (l : List Command) (s : State) : (acceptCommand c l s).input =
    s.input := rfl
@[simp] theorem acceptCommand_sink (c : Command) (l : List Command) (s : State) : (acceptCommand c l s).sink =
    s.sink := rfl
@[simp] theorem acceptCommand_nowDraws (c : Command) (l : List Command) (s : State) : (acceptCommand c l s).nowDraws =
    s.nowDraws := rfl
@[simp] theorem acceptCommand_randDraws (c : Command) (l : List Command) (s : State) :
    (acceptCommand c l s).randDraws = s.randDraws := rfl
@[simp] theorem acceptCommand_cmds (c : Command) (l : List Command) (s : State) : (acceptCommand c l s).cmds = l := rfl
@[simp] theorem acceptCommand_ops (c : Command) (l : List Command) (s : State) : (acceptCommand c l s).ops = c.ops :=
    rfl
@[simp] theorem acceptCommand_rsp (c : Command) (l : List Command) (s : State) : (acceptCommand c l s).rsp = s.rsp :=
    rfl

/-! `illegalCommand`: the status of an illegal word -/

@[simp] theorem illegalCommand_csr (s : State) : (illegalCommand s).csr = { s.csr with cmdStatus := .illegalCmd } := rfl
@[simp] theorem illegalCommand_enc (s : State) : (illegalCommand s).enc = s.enc := rfl
@[simp] theorem illegalCommand_dec (s : State) : (illegalCommand s).dec = s.dec := rfl
@[simp] theorem illegalCommand_out (s : State) : (illegalCommand s).out = s.out := rfl
@[simp] theorem illegalCommand_input (s : State) : (illegalCommand s).input = s.input := rfl
@[simp] theorem illegalCommand_sink (s : State) : (illegalCommand s).sink = s.sink := rfl
@[simp] theorem illegalCommand_nowDraws (s : State) : (illegalCommand s).nowDraws = s.nowDraws := rfl
@[simp] theorem illegalCommand_randDraws (s : State) : (illegalCommand s).randDraws = s.randDraws := rfl
@[simp] theorem illegalCommand_cmds (s : State) : (illegalCommand s).cmds = s.cmds := rfl
@[simp] theorem illegalCommand_ops (s : State) : (illegalCommand s).ops = s.ops := rfl
@[simp] theorem illegalCommand_rsp (s : State) : (illegalCommand s).rsp = some (statusResponse .illegalCmd) := rfl

/-! `powerOnReset`: the CSRs and both units -/

@[simp] theorem powerOnReset_csr (s : State) : (powerOnReset s).csr = Csrs.reset := rfl
@[simp] theorem powerOnReset_enc (s : State) : (powerOnReset s).enc = Enc.reset := rfl
@[simp] theorem powerOnReset_dec (s : State) : (powerOnReset s).dec = Dec.reset := rfl
@[simp] theorem powerOnReset_out (s : State) : (powerOnReset s).out = s.out := rfl
@[simp] theorem powerOnReset_input (s : State) : (powerOnReset s).input = s.input := rfl
@[simp] theorem powerOnReset_sink (s : State) : (powerOnReset s).sink = s.sink := rfl
@[simp] theorem powerOnReset_nowDraws (s : State) : (powerOnReset s).nowDraws = s.nowDraws := rfl
@[simp] theorem powerOnReset_randDraws (s : State) : (powerOnReset s).randDraws = s.randDraws := rfl
@[simp] theorem powerOnReset_cmds (s : State) : (powerOnReset s).cmds = s.cmds := rfl
@[simp] theorem powerOnReset_ops (s : State) : (powerOnReset s).ops = s.ops := rfl
@[simp] theorem powerOnReset_rsp (s : State) : (powerOnReset s).rsp = none := rfl

/-! The parts the sequencers act on -/

@[simp] theorem encPart_enc (s : State) : (encPart s).enc = s.enc := rfl
@[simp] theorem encPart_out (s : State) : (encPart s).out = s.out := rfl
@[simp] theorem encPart_nowDraws (s : State) : (encPart s).nowDraws = s.nowDraws := rfl
@[simp] theorem encPart_randDraws (s : State) : (encPart s).randDraws = s.randDraws := rfl
@[simp] theorem decPart_dec (s : State) : (decPart s).dec = s.dec := rfl
@[simp] theorem decPart_sink (s : State) : (decPart s).sink = s.sink := rfl

/-! `outAppend`: OUT and ENC.outLog -/

@[simp] theorem outAppend_enc_state (b : Bytes) (p : EncPart) : (outAppend b p).enc.state = p.enc.state := rfl
@[simp] theorem outAppend_enc_fatal (b : Bytes) (p : EncPart) : (outAppend b p).enc.fatal = p.enc.fatal := rfl
@[simp] theorem outAppend_enc_cfg (b : Bytes) (p : EncPart) : (outAppend b p).enc.cfg = p.enc.cfg := rfl
@[simp] theorem outAppend_enc_key (b : Bytes) (p : EncPart) : (outAppend b p).enc.key = p.enc.key := rfl
@[simp] theorem outAppend_enc_first (b : Bytes) (p : EncPart) : (outAppend b p).enc.first = p.enc.first := rfl
@[simp] theorem outAppend_enc_firstEmitted (b : Bytes) (p : EncPart) : (outAppend b p).enc.firstEmitted =
    p.enc.firstEmitted := rfl
@[simp] theorem outAppend_enc_inBuf (b : Bytes) (p : EncPart) : (outAppend b p).enc.inBuf = p.enc.inBuf := rfl
@[simp] theorem outAppend_enc_srcLog (b : Bytes) (p : EncPart) : (outAppend b p).enc.srcLog = p.enc.srcLog := rfl
@[simp] theorem outAppend_enc_outLog (b : Bytes) (p : EncPart) : (outAppend b p).enc.outLog = p.enc.outLog ++ b := rfl
@[simp] theorem outAppend_enc_srcPos (b : Bytes) (p : EncPart) : (outAppend b p).enc.srcPos = p.enc.srcPos := rfl
@[simp] theorem outAppend_enc_nextIdx (b : Bytes) (p : EncPart) : (outAppend b p).enc.nextIdx = p.enc.nextIdx := rfl
@[simp] theorem outAppend_enc_destContent (b : Bytes) (p : EncPart) : (outAppend b p).enc.destContent =
    p.enc.destContent := rfl
@[simp] theorem outAppend_enc_prevAllZero (b : Bytes) (p : EncPart) : (outAppend b p).enc.prevAllZero =
    p.enc.prevAllZero := rfl
@[simp] theorem outAppend_enc_lastFrameTime (b : Bytes) (p : EncPart) : (outAppend b p).enc.lastFrameTime =
    p.enc.lastFrameTime := rfl
@[simp] theorem outAppend_enc_elided (b : Bytes) (p : EncPart) : (outAppend b p).enc.elided = p.enc.elided := rfl
@[simp] theorem outAppend_enc_final (b : Bytes) (p : EncPart) : (outAppend b p).enc.final = p.enc.final := rfl
@[simp] theorem outAppend_out (b : Bytes) (p : EncPart) : (outAppend b p).out = p.out ++ b := rfl
@[simp] theorem outAppend_nowDraws (b : Bytes) (p : EncPart) : (outAppend b p).nowDraws = p.nowDraws := rfl
@[simp] theorem outAppend_randDraws (b : Bytes) (p : EncPart) : (outAppend b p).randDraws = p.randDraws := rfl

/-! `nowDrawn`: the NOW draws -/

@[simp] theorem nowDrawn_enc (p : EncPart) : (nowDrawn p).enc = p.enc := rfl
@[simp] theorem nowDrawn_out (p : EncPart) : (nowDrawn p).out = p.out := rfl
@[simp] theorem nowDrawn_nowDraws (p : EncPart) : (nowDrawn p).nowDraws = p.nowDraws + 1 := rfl
@[simp] theorem nowDrawn_randDraws (p : EncPart) : (nowDrawn p).randDraws = p.randDraws := rfl

/-! `bufferByte`: the buffer and the source log -/

@[simp] theorem bufferByte_enc_state (x : Byte) (p : EncPart) : (bufferByte x p).enc.state = p.enc.state := rfl
@[simp] theorem bufferByte_enc_fatal (x : Byte) (p : EncPart) : (bufferByte x p).enc.fatal = p.enc.fatal := rfl
@[simp] theorem bufferByte_enc_cfg (x : Byte) (p : EncPart) : (bufferByte x p).enc.cfg = p.enc.cfg := rfl
@[simp] theorem bufferByte_enc_key (x : Byte) (p : EncPart) : (bufferByte x p).enc.key = p.enc.key := rfl
@[simp] theorem bufferByte_enc_first (x : Byte) (p : EncPart) : (bufferByte x p).enc.first = p.enc.first := rfl
@[simp] theorem bufferByte_enc_firstEmitted (x : Byte) (p : EncPart) : (bufferByte x p).enc.firstEmitted =
    p.enc.firstEmitted := rfl
@[simp] theorem bufferByte_enc_inBuf (x : Byte) (p : EncPart) : (bufferByte x p).enc.inBuf = p.enc.inBuf ++ [x] := rfl
@[simp] theorem bufferByte_enc_srcLog (x : Byte) (p : EncPart) : (bufferByte x p).enc.srcLog = p.enc.srcLog ++ [x] :=
    rfl
@[simp] theorem bufferByte_enc_outLog (x : Byte) (p : EncPart) : (bufferByte x p).enc.outLog = p.enc.outLog := rfl
@[simp] theorem bufferByte_enc_srcPos (x : Byte) (p : EncPart) : (bufferByte x p).enc.srcPos = p.enc.srcPos := rfl
@[simp] theorem bufferByte_enc_nextIdx (x : Byte) (p : EncPart) : (bufferByte x p).enc.nextIdx = p.enc.nextIdx := rfl
@[simp] theorem bufferByte_enc_destContent (x : Byte) (p : EncPart) : (bufferByte x p).enc.destContent =
    p.enc.destContent := rfl
@[simp] theorem bufferByte_enc_prevAllZero (x : Byte) (p : EncPart) : (bufferByte x p).enc.prevAllZero =
    p.enc.prevAllZero := rfl
@[simp] theorem bufferByte_enc_lastFrameTime (x : Byte) (p : EncPart) : (bufferByte x p).enc.lastFrameTime =
    p.enc.lastFrameTime := rfl
@[simp] theorem bufferByte_enc_elided (x : Byte) (p : EncPart) : (bufferByte x p).enc.elided = p.enc.elided := rfl
@[simp] theorem bufferByte_enc_final (x : Byte) (p : EncPart) : (bufferByte x p).enc.final = p.enc.final := rfl
@[simp] theorem bufferByte_out (x : Byte) (p : EncPart) : (bufferByte x p).out = p.out := rfl
@[simp] theorem bufferByte_nowDraws (x : Byte) (p : EncPart) : (bufferByte x p).nowDraws = p.nowDraws := rfl
@[simp] theorem bufferByte_randDraws (x : Byte) (p : EncPart) : (bufferByte x p).randDraws = p.randDraws := rfl

/-! `noteChunk`: prevAllZero and destContent -/

@[simp] theorem noteChunk_state (P : Params) (h : BlockHeader) (e : Enc) : (noteChunk P h e).state = e.state := rfl
@[simp] theorem noteChunk_fatal (P : Params) (h : BlockHeader) (e : Enc) : (noteChunk P h e).fatal = e.fatal := rfl
@[simp] theorem noteChunk_cfg (P : Params) (h : BlockHeader) (e : Enc) : (noteChunk P h e).cfg = e.cfg := rfl
@[simp] theorem noteChunk_key (P : Params) (h : BlockHeader) (e : Enc) : (noteChunk P h e).key = e.key := rfl
@[simp] theorem noteChunk_first (P : Params) (h : BlockHeader) (e : Enc) : (noteChunk P h e).first = e.first := rfl
@[simp] theorem noteChunk_firstEmitted (P : Params) (h : BlockHeader) (e : Enc) : (noteChunk P h e).firstEmitted =
    e.firstEmitted := rfl
@[simp] theorem noteChunk_inBuf (P : Params) (h : BlockHeader) (e : Enc) : (noteChunk P h e).inBuf = e.inBuf := rfl
@[simp] theorem noteChunk_srcLog (P : Params) (h : BlockHeader) (e : Enc) : (noteChunk P h e).srcLog = e.srcLog := rfl
@[simp] theorem noteChunk_outLog (P : Params) (h : BlockHeader) (e : Enc) : (noteChunk P h e).outLog = e.outLog := rfl
@[simp] theorem noteChunk_srcPos (P : Params) (h : BlockHeader) (e : Enc) : (noteChunk P h e).srcPos = e.srcPos := rfl
@[simp] theorem noteChunk_nextIdx (P : Params) (h : BlockHeader) (e : Enc) : (noteChunk P h e).nextIdx = e.nextIdx :=
    rfl
@[simp] theorem noteChunk_destContent (P : Params) (h : BlockHeader) (e : Enc) : (noteChunk P h e).destContent =
    toI64 P (e.destContent.toInt + h.destDataSizeWithoutPadding.toInt) := rfl
@[simp] theorem noteChunk_prevAllZero (P : Params) (h : BlockHeader) (e : Enc) : (noteChunk P h e).prevAllZero =
    h.isAllZero := rfl
@[simp] theorem noteChunk_lastFrameTime (P : Params) (h : BlockHeader) (e : Enc) : (noteChunk P h e).lastFrameTime =
    e.lastFrameTime := rfl
@[simp] theorem noteChunk_elided (P : Params) (h : BlockHeader) (e : Enc) : (noteChunk P h e).elided = e.elided := rfl
@[simp] theorem noteChunk_final (P : Params) (h : BlockHeader) (e : Enc) : (noteChunk P h e).final = e.final := rfl

/-! `consume`: the input buffer and the cursor -/

@[simp] theorem consume_state (n : Nat) (d : Dec) : (consume n d).state = d.state := rfl
@[simp] theorem consume_fatal (n : Nat) (d : Dec) : (consume n d).fatal = d.fatal := rfl
@[simp] theorem consume_par (n : Nat) (d : Dec) : (consume n d).par = d.par := rfl
@[simp] theorem consume_password (n : Nat) (d : Dec) : (consume n d).password = d.password := rfl
@[simp] theorem consume_first (n : Nat) (d : Dec) : (consume n d).first = d.first := rfl
@[simp] theorem consume_key (n : Nat) (d : Dec) : (consume n d).key = d.key := rfl
@[simp] theorem consume_final (n : Nat) (d : Dec) : (consume n d).final = d.final := rfl
@[simp] theorem consume_inBuf (n : Nat) (d : Dec) : (consume n d).inBuf = d.inBuf.drop n := rfl
@[simp] theorem consume_cursor (n : Nat) (d : Dec) : (consume n d).cursor = d.cursor + n := rfl
@[simp] theorem consume_batch (n : Nat) (d : Dec) : (consume n d).batch = d.batch := rfl
@[simp] theorem consume_errors (n : Nat) (d : Dec) : (consume n d).errors = d.errors := rfl
@[simp] theorem consume_warnings (n : Nat) (d : Dec) : (consume n d).warnings = d.warnings := rfl
@[simp] theorem consume_totalBytes (n : Nat) (d : Dec) : (consume n d).totalBytes = d.totalBytes := rfl
@[simp] theorem consume_outLen (n : Nat) (d : Dec) : (consume n d).outLen = d.outLen := rfl
@[simp] theorem consume_trace (n : Nat) (d : Dec) : (consume n d).trace = d.trace := rfl

/-! `recordEvent` and `recordEvents`: one counter and the trace -/

@[simp] theorem recordEvent_state (c : SoftCause) (at_ : Nat) (d : Dec) : (recordEvent c at_ d).state = d.state := by
  cases c <;> rfl
@[simp] theorem recordEvent_fatal (c : SoftCause) (at_ : Nat) (d : Dec) : (recordEvent c at_ d).fatal = d.fatal := by
  cases c <;> rfl
@[simp] theorem recordEvent_par (c : SoftCause) (at_ : Nat) (d : Dec) : (recordEvent c at_ d).par = d.par := by
  cases c <;> rfl
@[simp] theorem recordEvent_password (c : SoftCause) (at_ : Nat) (d : Dec) : (recordEvent c at_ d).password =
    d.password := by
  cases c <;> rfl
@[simp] theorem recordEvent_first (c : SoftCause) (at_ : Nat) (d : Dec) : (recordEvent c at_ d).first = d.first := by
  cases c <;> rfl
@[simp] theorem recordEvent_key (c : SoftCause) (at_ : Nat) (d : Dec) : (recordEvent c at_ d).key = d.key := by
  cases c <;> rfl
@[simp] theorem recordEvent_final (c : SoftCause) (at_ : Nat) (d : Dec) : (recordEvent c at_ d).final = d.final := by
  cases c <;> rfl
@[simp] theorem recordEvent_inBuf (c : SoftCause) (at_ : Nat) (d : Dec) : (recordEvent c at_ d).inBuf = d.inBuf := by
  cases c <;> rfl
@[simp] theorem recordEvent_cursor (c : SoftCause) (at_ : Nat) (d : Dec) : (recordEvent c at_ d).cursor = d.cursor := by
  cases c <;> rfl
@[simp] theorem recordEvent_batch (c : SoftCause) (at_ : Nat) (d : Dec) : (recordEvent c at_ d).batch = d.batch := by
  cases c <;> rfl
@[simp] theorem recordEvent_totalBytes (c : SoftCause) (at_ : Nat) (d : Dec) : (recordEvent c at_ d).totalBytes =
    d.totalBytes := by
  cases c <;> rfl
@[simp] theorem recordEvent_outLen (c : SoftCause) (at_ : Nat) (d : Dec) : (recordEvent c at_ d).outLen = d.outLen := by
  cases c <;> rfl
@[simp] theorem recordEvent_trace (c : SoftCause) (at_ : Nat) (d : Dec) :
    (recordEvent c at_ d).trace = d.trace ++ [⟨c, at_⟩] := by
  cases c <;> rfl
theorem recordEvent_errors (c : SoftCause) (at_ : Nat) (d : Dec) :
    (recordEvent c at_ d).errors = d.errors + if severity c = .error then 1 else 0 := by
  cases c <;> rfl
theorem recordEvent_warnings (c : SoftCause) (at_ : Nat) (d : Dec) :
    (recordEvent c at_ d).warnings = d.warnings + if severity c = .warning then 1 else 0 := by
  cases c <;> rfl

@[simp] theorem recordEvents_nil (at_ : Nat) (d : Dec) : recordEvents [] at_ d = d := rfl

@[simp] theorem recordEvents_cons (c : SoftCause) (cs : List SoftCause) (at_ : Nat) (d : Dec) :
    recordEvents (c :: cs) at_ d = recordEvents cs at_ (recordEvent c at_ d) := rfl

@[simp] theorem recordEvents_state (cs : List SoftCause) (at_ : Nat) (d : Dec) :
    (recordEvents cs at_ d).state = d.state := by
  induction cs generalizing d <;> simp [*]
@[simp] theorem recordEvents_fatal (cs : List SoftCause) (at_ : Nat) (d : Dec) :
    (recordEvents cs at_ d).fatal = d.fatal := by
  induction cs generalizing d <;> simp [*]
@[simp] theorem recordEvents_par (cs : List SoftCause) (at_ : Nat) (d : Dec) :
    (recordEvents cs at_ d).par = d.par := by
  induction cs generalizing d <;> simp [*]
@[simp] theorem recordEvents_password (cs : List SoftCause) (at_ : Nat) (d : Dec) :
    (recordEvents cs at_ d).password = d.password := by
  induction cs generalizing d <;> simp [*]
@[simp] theorem recordEvents_first (cs : List SoftCause) (at_ : Nat) (d : Dec) :
    (recordEvents cs at_ d).first = d.first := by
  induction cs generalizing d <;> simp [*]
@[simp] theorem recordEvents_key (cs : List SoftCause) (at_ : Nat) (d : Dec) :
    (recordEvents cs at_ d).key = d.key := by
  induction cs generalizing d <;> simp [*]
@[simp] theorem recordEvents_final (cs : List SoftCause) (at_ : Nat) (d : Dec) :
    (recordEvents cs at_ d).final = d.final := by
  induction cs generalizing d <;> simp [*]
@[simp] theorem recordEvents_inBuf (cs : List SoftCause) (at_ : Nat) (d : Dec) :
    (recordEvents cs at_ d).inBuf = d.inBuf := by
  induction cs generalizing d <;> simp [*]
@[simp] theorem recordEvents_cursor (cs : List SoftCause) (at_ : Nat) (d : Dec) :
    (recordEvents cs at_ d).cursor = d.cursor := by
  induction cs generalizing d <;> simp [*]
@[simp] theorem recordEvents_batch (cs : List SoftCause) (at_ : Nat) (d : Dec) :
    (recordEvents cs at_ d).batch = d.batch := by
  induction cs generalizing d <;> simp [*]
@[simp] theorem recordEvents_totalBytes (cs : List SoftCause) (at_ : Nat) (d : Dec) :
    (recordEvents cs at_ d).totalBytes = d.totalBytes := by
  induction cs generalizing d <;> simp [*]
@[simp] theorem recordEvents_outLen (cs : List SoftCause) (at_ : Nat) (d : Dec) :
    (recordEvents cs at_ d).outLen = d.outLen := by
  induction cs generalizing d <;> simp [*]

/-! `skipFrame`, `raiseOutLen`, `enqueue` and `dropTail`: the moves of the parse loop -/

@[simp] theorem skipFrame_state (c : SoftCause) (d : Dec) : (skipFrame c d).state = d.state := by
  simp [skipFrame]
@[simp] theorem skipFrame_fatal (c : SoftCause) (d : Dec) : (skipFrame c d).fatal = d.fatal := by
  simp [skipFrame]
@[simp] theorem skipFrame_par (c : SoftCause) (d : Dec) : (skipFrame c d).par = d.par := by
  simp [skipFrame]
@[simp] theorem skipFrame_password (c : SoftCause) (d : Dec) : (skipFrame c d).password = d.password := by
  simp [skipFrame]
@[simp] theorem skipFrame_first (c : SoftCause) (d : Dec) : (skipFrame c d).first = d.first := by
  simp [skipFrame]
@[simp] theorem skipFrame_key (c : SoftCause) (d : Dec) : (skipFrame c d).key = d.key := by
  simp [skipFrame]
@[simp] theorem skipFrame_final (c : SoftCause) (d : Dec) : (skipFrame c d).final = d.final := by
  simp [skipFrame]
@[simp] theorem skipFrame_inBuf (c : SoftCause) (d : Dec) : (skipFrame c d).inBuf = d.inBuf.drop frameSize := by
  simp [skipFrame]
@[simp] theorem skipFrame_cursor (c : SoftCause) (d : Dec) : (skipFrame c d).cursor = d.cursor + frameSize := by
  simp [skipFrame]
@[simp] theorem skipFrame_batch (c : SoftCause) (d : Dec) : (skipFrame c d).batch = d.batch := by
  simp [skipFrame]
@[simp] theorem skipFrame_totalBytes (c : SoftCause) (d : Dec) : (skipFrame c d).totalBytes = d.totalBytes := by
  simp [skipFrame]
@[simp] theorem skipFrame_outLen (c : SoftCause) (d : Dec) : (skipFrame c d).outLen = d.outLen := by
  simp [skipFrame]
@[simp] theorem skipFrame_trace (c : SoftCause) (d : Dec) : (skipFrame c d).trace = d.trace ++ [⟨c, d.cursor⟩] := by
  simp [skipFrame]
@[simp] theorem raiseOutLen_state (h : BlockHeader) (d : Dec) :
    (raiseOutLen h d).state = d.state := rfl
@[simp] theorem raiseOutLen_fatal (h : BlockHeader) (d : Dec) :
    (raiseOutLen h d).fatal = d.fatal := rfl
@[simp] theorem raiseOutLen_par (h : BlockHeader) (d : Dec) :
    (raiseOutLen h d).par = d.par := rfl
@[simp] theorem raiseOutLen_password (h : BlockHeader) (d : Dec) :
    (raiseOutLen h d).password = d.password := rfl
@[simp] theorem raiseOutLen_first (h : BlockHeader) (d : Dec) :
    (raiseOutLen h d).first = d.first := rfl
@[simp] theorem raiseOutLen_key (h : BlockHeader) (d : Dec) :
    (raiseOutLen h d).key = d.key := rfl
@[simp] theorem raiseOutLen_final (h : BlockHeader) (d : Dec) :
    (raiseOutLen h d).final = d.final := rfl
@[simp] theorem raiseOutLen_inBuf (h : BlockHeader) (d : Dec) :
    (raiseOutLen h d).inBuf = d.inBuf := rfl
@[simp] theorem raiseOutLen_cursor (h : BlockHeader) (d : Dec) :
    (raiseOutLen h d).cursor = d.cursor := rfl
@[simp] theorem raiseOutLen_batch (h : BlockHeader) (d : Dec) :
    (raiseOutLen h d).batch = d.batch := rfl
@[simp] theorem raiseOutLen_errors (h : BlockHeader) (d : Dec) :
    (raiseOutLen h d).errors = d.errors := rfl
@[simp] theorem raiseOutLen_warnings (h : BlockHeader) (d : Dec) :
    (raiseOutLen h d).warnings = d.warnings := rfl
@[simp] theorem raiseOutLen_totalBytes (h : BlockHeader) (d : Dec) :
    (raiseOutLen h d).totalBytes = d.totalBytes := rfl
@[simp] theorem raiseOutLen_outLen (h : BlockHeader) (d : Dec) :
    (raiseOutLen h d).outLen = max d.outLen (h.srcDataPosition.toInt + h.srcDataLength.toInt).toNat := rfl
@[simp] theorem raiseOutLen_trace (h : BlockHeader) (d : Dec) :
    (raiseOutLen h d).trace = d.trace := rfl
@[simp] theorem enqueue_state (h : BlockHeader) (d : Dec) :
    (enqueue h d).state = d.state := rfl
@[simp] theorem enqueue_fatal (h : BlockHeader) (d : Dec) :
    (enqueue h d).fatal = d.fatal := rfl
@[simp] theorem enqueue_par (h : BlockHeader) (d : Dec) :
    (enqueue h d).par = d.par := rfl
@[simp] theorem enqueue_password (h : BlockHeader) (d : Dec) :
    (enqueue h d).password = d.password := rfl
@[simp] theorem enqueue_first (h : BlockHeader) (d : Dec) :
    (enqueue h d).first = d.first := rfl
@[simp] theorem enqueue_key (h : BlockHeader) (d : Dec) :
    (enqueue h d).key = d.key := rfl
@[simp] theorem enqueue_final (h : BlockHeader) (d : Dec) :
    (enqueue h d).final = d.final := rfl
@[simp] theorem enqueue_inBuf (h : BlockHeader) (d : Dec) :
    (enqueue h d).inBuf = d.inBuf.drop (frameSize + h.destDataSize.toInt.toNat) := rfl
@[simp] theorem enqueue_cursor (h : BlockHeader) (d : Dec) :
    (enqueue h d).cursor = d.cursor + (frameSize + h.destDataSize.toInt.toNat) := rfl
@[simp] theorem enqueue_batch (h : BlockHeader) (d : Dec) :
    (enqueue h d).batch = d.batch ++ [⟨h, slice d.inBuf frameSize (frameSize + h.destDataSize.toInt.toNat),
        d.cursor⟩] := rfl
@[simp] theorem enqueue_errors (h : BlockHeader) (d : Dec) :
    (enqueue h d).errors = d.errors := rfl
@[simp] theorem enqueue_warnings (h : BlockHeader) (d : Dec) :
    (enqueue h d).warnings = d.warnings := rfl
@[simp] theorem enqueue_totalBytes (h : BlockHeader) (d : Dec) :
    (enqueue h d).totalBytes = d.totalBytes := rfl
@[simp] theorem enqueue_outLen (h : BlockHeader) (d : Dec) :
    (enqueue h d).outLen = d.outLen := rfl
@[simp] theorem enqueue_trace (h : BlockHeader) (d : Dec) :
    (enqueue h d).trace = d.trace := rfl
@[simp] theorem dropTail_state (d : Dec) : (dropTail d).state = d.state := by
  unfold dropTail; split <;> simp
@[simp] theorem dropTail_fatal (d : Dec) : (dropTail d).fatal = d.fatal := by
  unfold dropTail; split <;> simp
@[simp] theorem dropTail_par (d : Dec) : (dropTail d).par = d.par := by
  unfold dropTail; split <;> simp
@[simp] theorem dropTail_password (d : Dec) : (dropTail d).password = d.password := by
  unfold dropTail; split <;> simp
@[simp] theorem dropTail_first (d : Dec) : (dropTail d).first = d.first := by
  unfold dropTail; split <;> simp
@[simp] theorem dropTail_key (d : Dec) : (dropTail d).key = d.key := by
  unfold dropTail; split <;> simp
@[simp] theorem dropTail_final (d : Dec) : (dropTail d).final = d.final := by
  unfold dropTail; split <;> simp
@[simp] theorem dropTail_cursor (d : Dec) : (dropTail d).cursor = d.cursor := by
  unfold dropTail; split <;> simp
@[simp] theorem dropTail_batch (d : Dec) : (dropTail d).batch = d.batch := by
  unfold dropTail; split <;> simp
@[simp] theorem dropTail_totalBytes (d : Dec) : (dropTail d).totalBytes = d.totalBytes := by
  unfold dropTail; split <;> simp
@[simp] theorem dropTail_outLen (d : Dec) : (dropTail d).outLen = d.outLen := by
  unfold dropTail; split <;> simp
@[simp] theorem dropTail_inBuf (d : Dec) : (dropTail d).inBuf = [] := by
  unfold dropTail; split <;> simp_all

/-! `Run.bind` -/

@[simp] theorem run_bind_ok {ε σ α β : Type} (a : α) (s : σ) (f : α → σ → Run ε σ β) :
    (Run.ok a s).bind f = f a s := rfl

@[simp] theorem run_bind_stop {ε σ α β : Type} (e : ε) (s : σ) (f : α → σ → Run ε σ β) :
    (Run.stop e s : Run ε σ α).bind f = .stop e s := rfl

/-- A sequence that ends in a result is a first procedure and a second one that both do. -/
theorem run_bind_eq_ok {ε σ α β : Type} {r : Run ε σ α} {f : α → σ → Run ε σ β} {b : β} {t : σ} :
    r.bind f = .ok b t ↔ ∃ a s, r = .ok a s ∧ f a s = .ok b t := by
  cases r <;> simp [Run.bind]

/-- A sequence that stops is stopped by its first procedure or by its second one. -/
theorem run_bind_eq_stop {ε σ α β : Type} {r : Run ε σ α} {f : α → σ → Run ε σ β} {e : ε} {t : σ} :
    r.bind f = .stop e t ↔ r = .stop e t ∨ ∃ a s, r = .ok a s ∧ f a s = .stop e t := by
  cases r <;> simp [Run.bind]

theorem run_bind_assoc {ε σ α β γ : Type} (r : Run ε σ α) (f : α → σ → Run ε σ β) (g : β → σ → Run ε σ γ) :
    (r.bind f).bind g = r.bind fun a s => (f a s).bind g := by
  cases r <;> rfl

end Sys2Proof.Machine
end

