-- ==== Sys2Proof/Laws/Memory.lean ====
section
/-! SUPPORT. SINK: reads after writes, and that every operation keeps the canonical form and the address range. -/

namespace Sys2Proof.Machine

@[simp] theorem memory_get_nil (a : Nat) : Memory.get [] a = 0 := rfl

theorem memory_get_set_same (m : Sink) (a : Nat) (b : Byte) (h : Memory.wf m = true) :
    Memory.get (Memory.set m a b) a = b := by
  induction m with
  | nil =>
    simp only [Memory.set]
    split_ifs with hb
    · exact hb.symm
    · simp [Memory.get]
  | cons c m ih =>
    obtain ⟨a', b'⟩ := c
    simp only [Memory.wf, Bool.and_eq_true, List.all_eq_true, decide_eq_true_eq] at h
    obtain ⟨⟨-, hlt⟩, hwf⟩ := h
    have miss : ∀ m : Sink, (∀ c ∈ m, a < c.1) → Memory.get m a = 0 := by
      intro m
      induction m with
      | nil => intro _; rfl
      | cons c m ih =>
        intro hm
        have h1 := hm c (by simp)
        have : a ≠ c.1 := by omega
        simp only [Memory.get, if_neg this]
        exact ih fun c hc => hm c (by simp [hc])
    simp only [Memory.set]
    split_ifs with h1 h2 h3 h4
    · have hne : a ≠ a' := by omega
      rw [Memory.get, if_neg hne, h2]
      exact miss m fun c hc => lt_trans h1 (hlt c hc)
    · simp [Memory.get]
    · subst h3; subst h4
      exact miss m hlt
    · simp [Memory.get]
    · rw [Memory.get, if_neg h3, ih hwf]

theorem memory_get_set_other (m : Sink) (a a' : Nat) (b : Byte) (h : a' ≠ a) :
    Memory.get (Memory.set m a b) a' = Memory.get m a' := by
  induction m with
  | nil =>
    simp only [Memory.set]
    split_ifs
    · rfl
    · simp [Memory.get, h]
  | cons c m ih =>
    obtain ⟨x, y⟩ := c
    simp only [Memory.set]
    split_ifs with h1 h2 h3 h4
    · rfl
    · simp [Memory.get, h]
    · subst h3; simp [Memory.get, h]
    · subst h3; simp [Memory.get, h]
    · simp only [Memory.get, ih]

theorem memory_set_above (m : Sink) (a x : Nat) (b : Byte) (hx : x < a) (h : ∀ c ∈ m, x < c.1) :
    ∀ c ∈ Memory.set m a b, x < c.1 := by
  induction m with
  | nil =>
    intro c hc
    by_cases hb : b = 0
    · simp [Memory.set, hb] at hc
    · simp only [Memory.set, if_neg hb, List.mem_singleton] at hc
      simpa [hc] using hx
  | cons d m ih =>
    obtain ⟨a', b'⟩ := d
    have h0 := h (a', b') (by simp)
    have h1 : ∀ c ∈ m, x < c.1 := fun c hc => h c (by simp [hc])
    intro c hc
    simp only [Memory.set] at hc
    split_ifs at hc
    · exact h c hc
    · rcases List.mem_cons.mp hc with rfl | hc
      · exact hx
      · exact h c hc
    · exact h1 c hc
    · rcases List.mem_cons.mp hc with rfl | hc
      · exact hx
      · exact h1 c hc
    · rcases List.mem_cons.mp hc with rfl | hc
      · exact h0
      · exact ih h1 c hc

/-- Writing one byte keeps the canonical form. -/
theorem memory_set_wf (m : Sink) (a : Nat) (b : Byte) (h : Memory.wf m = true) : Memory.wf (Memory.set m a b) = true := by
  induction m with
  | nil =>
    simp only [Memory.set]
    split_ifs with hb
    · rfl
    · simpa [Memory.wf] using hb
  | cons c m ih =>
    obtain ⟨a', b'⟩ := c
    have hwf := h
    simp only [Memory.wf, Bool.and_eq_true, List.all_eq_true, decide_eq_true_eq] at h
    obtain ⟨⟨hb', hlt⟩, hm⟩ := h
    simp only [Memory.set]
    split_ifs with h1 h2 h3 h4
    · exact hwf
    · simp only [Memory.wf, Bool.and_eq_true, List.all_eq_true, decide_eq_true_eq]
      refine ⟨⟨by simpa using h2, ?_⟩, ⟨⟨hb', hlt⟩, hm⟩⟩
      intro c hc
      rcases List.mem_cons.mp hc with rfl | hc
      · exact h1
      · exact lt_trans h1 (hlt c hc)
    · exact hm
    · subst h3
      simp only [Memory.wf, Bool.and_eq_true, List.all_eq_true, decide_eq_true_eq]
      exact ⟨⟨by simpa using h4, hlt⟩, hm⟩
    · simp only [Memory.wf, Bool.and_eq_true, List.all_eq_true, decide_eq_true_eq]
      exact ⟨⟨hb', memory_set_above m a a' b (by omega) hlt⟩, ih hm⟩

theorem memory_inRange_iff (m : Sink) : Memory.inRange m = true ↔ ∀ c ∈ m, c.1 < sinkSize := by
  simp only [Memory.inRange, List.all_eq_true, decide_eq_true_eq]

/-- What a write of one byte lists is the byte written or was listed before. -/
theorem mem_memory_set {m : Sink} {a : Nat} {b : Byte} {c : Host.Cell} (h : c ∈ Memory.set m a b) :
    c = (a, b) ∨ c ∈ m := by
  induction m with
  | nil =>
    simp only [Memory.set] at h
    split_ifs at h
    · exact .inr h
    · exact .inl (List.mem_singleton.mp h)
  | cons d m ih =>
    obtain ⟨a', b'⟩ := d
    simp only [Memory.set] at h
    split_ifs at h
    · exact .inr h
    · exact List.mem_cons.mp h
    · exact .inr (List.mem_cons_of_mem _ h)
    · exact (List.mem_cons.mp h).imp_right (List.mem_cons_of_mem _)
    · rcases List.mem_cons.mp h with rfl | h
      · exact .inr List.mem_cons_self
      · exact (ih h).imp_right (List.mem_cons_of_mem _)

/-- Writing one byte inside SINK keeps the addresses inside SINK. -/
theorem memory_set_inRange (m : Sink) (a : Nat) (b : Byte) (ha : a < sinkSize) (h : Memory.inRange m = true) :
    Memory.inRange (Memory.set m a b) = true := by
  rw [memory_inRange_iff] at h ⊢
  intro c hc
  rcases mem_memory_set hc with rfl | hc
  · exact ha
  · exact h c hc

@[simp] theorem memory_writeBytes_nil (m : Sink) (a : Nat) : Memory.writeBytes m a [] = m := rfl

theorem memory_writeBytes_wf (m : Sink) (a : Nat) (v : Bytes) (h : Memory.wf m = true) :
    Memory.wf (Memory.writeBytes m a v) = true := by
  induction v generalizing m a with
  | nil => exact h
  | cons x v ih => exact ih _ _ (memory_set_wf m a x h)

theorem memory_writeBytes_inRange (m : Sink) (a : Nat) (v : Bytes) (hv : a + v.length ≤ sinkSize)
    (h : Memory.inRange m = true) : Memory.inRange (Memory.writeBytes m a v) = true := by
  induction v generalizing m a with
  | nil => exact h
  | cons x v ih =>
    simp only [List.length_cons] at hv
    exact ih _ _ (by omega) (memory_set_inRange m a x (by omega) h)

/-- A byte outside the written range reads as before. -/
theorem memory_get_writeBytes_outside (m : Sink) (a : Nat) (v : Bytes) (a' : Nat) (h : a' < a ∨ a + v.length ≤ a') :
    Memory.get (Memory.writeBytes m a v) a' = Memory.get m a' := by
  induction v generalizing m a with
  | nil => rfl
  | cons x v ih =>
    simp only [List.length_cons] at h
    rw [Memory.writeBytes, ih _ _ (by omega), memory_get_set_other m a a' x (by omega)]

/-- A byte inside the written range reads as written. -/
theorem memory_get_writeBytes_inside (m : Sink) (a : Nat) (v : Bytes) (i : Nat) (hi : i < v.length)
    (h : Memory.wf m = true) : Memory.get (Memory.writeBytes m a v) (a + i) = v[i] := by
  induction v generalizing m a i with
  | nil => simp at hi
  | cons x v ih =>
    cases i with
    | zero =>
      rw [Memory.writeBytes, memory_get_writeBytes_outside _ _ _ _ (by omega)]
      simpa using memory_get_set_same m a x h
    | succ i =>
      have := ih (Memory.set m a x) (a + 1) i (by simpa using hi) (memory_set_wf m a x h)
      rw [Memory.writeBytes, show a + (i + 1) = a + 1 + i by omega, this]
      rfl

/-- What a SINK write that succeeds does: nothing for an empty string, else the bytes from its position on. -/
theorem sinkWrite_eq_some {m m' : Sink} {pos : Int} {v : Bytes} (h : sinkWrite m pos v = some m') :
    (v = [] ∧ m' = m) ∨ (0 ≤ pos ∧ pos + v.length ≤ sinkSize ∧ m' = Memory.writeBytes m pos.toNat v) := by
  unfold sinkWrite at h
  split_ifs at h with h1 h2
  · exact .inl ⟨by simpa using h1, by simpa using h.symm⟩
  · exact .inr ⟨h2.1, h2.2, by simpa using h.symm⟩

/-- A SINK write whose range fits succeeds. -/
theorem sinkWrite_isSome {m : Sink} {pos : Int} {v : Bytes} (h0 : 0 ≤ pos) (h1 : pos + v.length ≤ sinkSize) :
    ∃ m', sinkWrite m pos v = some m' := by
  by_cases h2 : v.isEmpty
  · exact ⟨m, by simp [sinkWrite, h2]⟩
  · exact ⟨Memory.writeBytes m pos.toNat v, by simp [sinkWrite, h2, h0, h1]⟩

/-- A SINK write keeps SINK's invariant. -/
theorem sinkWrite_keeps {m m' : Sink} {pos : Int} {v : Bytes} (hm : SinkInv m) (h : sinkWrite m pos v = some m') :
    SinkInv m' := by
  rcases sinkWrite_eq_some h with ⟨-, rfl⟩ | ⟨h0, h1, rfl⟩
  · exact hm
  · exact ⟨memory_writeBytes_wf _ _ _ hm.canonical, memory_writeBytes_inRange _ _ _ (by omega) hm.addresses⟩

/-- A SINK write leaves every byte outside its range as it was. -/
theorem sinkWrite_frame {m m' : Sink} {pos : Int} {v : Bytes} (h : sinkWrite m pos v = some m') (a : Nat)
    (ha : (a : Int) < pos ∨ pos + v.length ≤ a) : Memory.get m' a = Memory.get m a := by
  rcases sinkWrite_eq_some h with ⟨-, rfl⟩ | ⟨h0, h1, rfl⟩
  · rfl
  · exact memory_get_writeBytes_outside _ _ _ _ (by omega)

theorem memory_readBytes_length (m : Sink) (a n : Nat) : (Memory.readBytes m a n).length = n := by
  simp [Memory.readBytes]

/-- Equal contents are equal data: two canonical sinks that read alike everywhere are one. -/
theorem memory_ext {m m' : Sink} (h : Memory.wf m = true) (h' : Memory.wf m' = true)
    (hget : ∀ a, Memory.get m a = Memory.get m' a) : m = m' := by
  have low : ∀ (m : Sink) (a : Nat), (∀ c ∈ m, a < c.1) → Memory.get m a = 0 := by
    intro m a
    induction m with
    | nil => intro _; rfl
    | cons c m ih =>
      intro hm
      have : a ≠ c.1 := by have := hm c (by simp); omega
      rw [Memory.get, if_neg this]
      exact ih fun c hc => hm c (by simp [hc])
  induction m generalizing m' with
  | nil =>
    cases m' with
    | nil => rfl
    | cons c m' =>
      obtain ⟨a, b⟩ := c
      simp only [Memory.wf, Bool.and_eq_true, bne_iff_ne, ne_eq] at h'
      have := hget a
      simp only [Memory.get, if_true] at this
      exact absurd this.symm h'.1.1
  | cons c m ih =>
    obtain ⟨a, b⟩ := c
    cases m' with
    | nil =>
      simp only [Memory.wf, Bool.and_eq_true, bne_iff_ne, ne_eq] at h
      have := hget a
      simp only [Memory.get, if_true] at this
      exact absurd this h.1.1
    | cons c' m' =>
      obtain ⟨a', b'⟩ := c'
      simp only [Memory.wf, Bool.and_eq_true, bne_iff_ne, ne_eq, List.all_eq_true, decide_eq_true_eq] at h h'
      obtain ⟨⟨hb, hlt⟩, hm⟩ := h
      obtain ⟨⟨hb', hlt'⟩, hm'⟩ := h'
      have haa : a = a' := by
        rcases Nat.lt_trichotomy a a' with hl | he | hl
        · have h1 := hget a
          rw [Memory.get, if_pos rfl, low ((a', b') :: m') a] at h1
          · exact absurd h1 hb
          · intro c hc
            rcases List.mem_cons.mp hc with rfl | hc
            · exact hl
            · exact lt_trans hl (hlt' c hc)
        · exact he
        · have h1 := hget a'
          rw [low ((a, b) :: m) a', Memory.get, if_pos rfl] at h1
          · exact absurd h1.symm hb'
          · intro c hc
            rcases List.mem_cons.mp hc with rfl | hc
            · exact hl
            · exact lt_trans hl (hlt c hc)
      subst haa
      have hbb : b = b' := by simpa [Memory.get] using hget a
      subst hbb
      have : m = m' := by
        refine ih hm hm' fun x => ?_
        have hx := hget x
        by_cases hxa : x = a
        · subst hxa
          rw [low m x hlt, low m' x hlt']
        · simpa [Memory.get, hxa] using hx
      rw [this]

end Sys2Proof.Machine
end

