-- ==== Sys2Proof/Laws/Decoder.lean ====
section
/-! SUPPORT. The decode procedures (spec/44_decoder.md): what each of them can do, said once, and what a whole parse
loop keeps. -/

namespace Sys2Proof.Machine

theorem countSeverity_append (sev : Severity) (a b : List SoftEvent) :
    countSeverity sev (a ++ b) = countSeverity sev a + countSeverity sev b := by simp [countSeverity]

/-- The soft event accounting, all at once: what recording a list of events and counting bytes written makes of DEC. -/
def noteEvents (ev : List SoftEvent) (n : Nat) (d : Dec) : Dec :=
  { d with
    errors := d.errors + countSeverity .error ev
    warnings := d.warnings + countSeverity .warning ev
    totalBytes := d.totalBytes + n
    trace := d.trace ++ ev }

theorem noteEvents_nil (d : Dec) : noteEvents [] 0 d = d := by simp [noteEvents, countSeverity]

theorem noteEvents_noteEvents (ev ev' : List SoftEvent) (n n' : Nat) (d : Dec) :
    noteEvents ev' n' (noteEvents ev n d) = noteEvents (ev ++ ev') (n + n') d := by
  simp [noteEvents, countSeverity_append, Nat.add_assoc]

theorem recordEvent_eq (c : SoftCause) (o : Nat) (d : Dec) : recordEvent c o d = noteEvents [⟨c, o⟩] 0 d := by
  cases c <;> rfl

theorem recordEvents_eq (cs : List SoftCause) (o : Nat) (d : Dec) :
    recordEvents cs o d = noteEvents (cs.map fun c => ⟨c, o⟩) 0 d := by
  induction cs generalizing d with
  | nil => exact (noteEvents_nil d).symm
  | cons c cs ih =>
    show recordEvents cs o (recordEvent c o d) = _
    rw [ih, recordEvent_eq, noteEvents_noteEvents]; rfl

/-- What writing out one decoded chunk does when it does not fault (R315). -/
theorem writeChunk_ok {b : BatchEntry} {r : Option Bytes × List SoftCause} {p q : DecPart}
    (h : writeChunk b r p = .ok () q) :
    ∃ ev n, q.dec = noteEvents ev n p.dec ∧
      ((r.1 = none ∧ q.sink = p.sink) ∨
        ∃ v, r.1 = some v ∧ sinkWrite p.sink b.hdr.srcDataPosition.toInt v = some q.sink) := by
  unfold writeChunk at h
  rw [recordEvents_eq] at h
  dsimp only at h
  split at h
  · rename_i h1; cases h; exact ⟨_, 0, rfl, .inl ⟨h1, rfl⟩⟩
  · rename_i v h1
    split at h
    · cases h
    · rename_i m hm
      cases h
      refine ⟨r.2.map fun c => ⟨c, b.offset⟩, v.length, ?_, .inr ⟨v, h1, hm⟩⟩
      simp [noteEvents]

/-- What writing out the chunks of a batch does when it does not fault (R315, R317). -/
theorem writeAll_ok : ∀ {cs : List (BatchEntry × (Option Bytes × List SoftCause))} {p q : DecPart},
    writeAll cs p = .ok () q →
    (∃ ev n, q.dec = noteEvents ev n p.dec) ∧ (SinkInv p.sink → SinkInv q.sink) ∧
      ∀ a : Nat, (∀ c ∈ cs, ∀ v, c.2.1 = some v →
          (a : Int) < c.1.hdr.srcDataPosition.toInt ∨ c.1.hdr.srcDataPosition.toInt + v.length ≤ a) →
        Memory.get q.sink a = Memory.get p.sink a := by
  intro cs
  induction cs with
  | nil => intro p q h; cases h; exact ⟨⟨[], 0, (noteEvents_nil _).symm⟩, id, fun _ _ => rfl⟩
  | cons c cs ih =>
    intro p q h
    rw [writeAll] at h
    cases hc : writeChunk c.1 c.2 p with
    | stop e u => rw [hc] at h; cases h
    | ok x u =>
      rw [hc] at h
      obtain ⟨⟨ev', n', e'⟩, hs, hg⟩ := ih h
      obtain ⟨ev, n, e, hw⟩ := writeChunk_ok hc
      refine ⟨⟨ev ++ ev', n + n', by rw [e', e, noteEvents_noteEvents]⟩, ?_, ?_⟩
      · intro hp
        rcases hw with ⟨-, hw⟩ | ⟨v, -, hw⟩
        · exact hs (hw ▸ hp)
        · exact hs (sinkWrite_keeps hp hw)
      · intro a ha
        rw [hg a fun c' hc' => ha c' (List.mem_cons_of_mem _ hc')]
        rcases hw with ⟨-, hw⟩ | ⟨v, hv, hw⟩
        · rw [hw]
        · exact sinkWrite_frame hw a (ha c List.mem_cons_self v hv)

/-- The sanity of a header (R309) as a proposition. -/
theorem sane_iff (h : BlockHeader) : sane h = true ↔
    0 ≤ h.chunkIndex.toInt ∧ 0 ≤ h.destDataSize.toInt ∧ 0 ≤ h.destDataSizeWithoutPadding.toInt ∧
      0 ≤ h.srcDataPosition.toInt ∧ 0 ≤ h.srcDataLength.toInt ∧
      h.srcDataPosition.toInt + h.srcDataLength.toInt ≤ 2 ^ 63 - 1 := by
  simp [sane, and_assoc]

/-- What a chunk gives to write: nothing for an EoF header, else srcDataLength bytes (R317, R321). -/
theorem decodeChunk_written {P : Params} {e c : Bool} {key : Option Key} {h : BlockHeader} {p v : Bytes}
    (hv : (decodeChunk P e c key h p).1 = some v) : h.isEoF = false ∧ v.length = h.srcDataLength.toInt.toNat := by
  unfold decodeChunk at hv
  dsimp only at hv
  split at hv
  · cases hv
  rename_i h0
  refine ⟨by simpa using h0, ?_⟩
  split at hv
  · cases hv; simp [zeros]
  split at hv
  · cases hv; simp [zeros]
  split at hv
  · cases hv; simp [zeros]
  split at hv
  · cases hv; simp [zeros]
  split at hv
  · cases hv; simp [zeros]
  · rename_i d _ _ h1
    cases hv
    have := not_not.mp h1
    omega

/-- Chunks with sane headers are always written: no SINK access leaves SINK (R105, R309). -/
theorem writeAll_total (P : Params) (d : Dec) : ∀ (bs : List BatchEntry) (p : DecPart),
    (∀ b ∈ bs, sane b.hdr = true) → ∃ q, writeAll (bs.map fun b => (b, decodeEntry P d b)) p = .ok () q := by
  intro bs
  induction bs with
  | nil => intro p _; exact ⟨p, rfl⟩
  | cons b bs ih =>
    intro p hb
    have h1 := (sane_iff b.hdr).mp (hb b List.mem_cons_self)
    have : ∃ u, writeChunk b (decodeEntry P d b) p = .ok () u := by
      unfold writeChunk
      dsimp only
      split
      · exact ⟨_, rfl⟩
      · rename_i v hv
        have hl := (decodeChunk_written hv).2
        obtain ⟨m, hm⟩ := sinkWrite_isSome (m := p.sink) (v := v) h1.2.2.2.1 (by rw [hl]; simp only [sinkSize]; omega)
        rw [hm]; exact ⟨_, rfl⟩
    obtain ⟨u, hu⟩ := this
    obtain ⟨q, hq⟩ := ih u fun b' h' => hb b' (List.mem_cons_of_mem _ h')
    exact ⟨q, by rw [List.map_cons, writeAll, hu]; exact hq⟩

/-- What RunBatch does when it does not fault (R315). -/
theorem runBatch_ok {P : Params} {p q : DecPart} (h : runBatch P p = .ok () q) :
    (∃ ev n, q.dec = { noteEvents ev n p.dec with batch := [] }) ∧ (SinkInv p.sink → SinkInv q.sink) ∧
      ∀ a : Nat, (∀ b ∈ p.dec.batch, ¬ entryCovers b a) → Memory.get q.sink a = Memory.get p.sink a := by
  unfold runBatch at h
  cases hw : writeAll (p.dec.batch.map fun b => (b, decodeEntry P p.dec b)) p with
  | stop e u => rw [hw] at h; cases h
  | ok x u =>
    rw [hw] at h
    cases h
    obtain ⟨⟨ev, n, e⟩, hs, hg⟩ := writeAll_ok hw
    refine ⟨⟨ev, n, by rw [e]⟩, hs, fun a ha => hg a ?_⟩
    intro c hc v hv
    obtain ⟨b, hb, rfl⟩ := List.mem_map.mp hc
    have hl := decodeChunk_written hv
    have h2 := ha b hb
    simp only [entryCovers, hl.1, true_and, not_and, not_lt] at h2
    have h3 := hl.2
    by_cases h4 : b.hdr.srcDataPosition.toInt ≤ a
    · have := h2 h4; dsimp only at *; omega
    · dsimp only at *; omega

theorem runBatch_total (P : Params) (p : DecPart) (h : ∀ b ∈ p.dec.batch, sane b.hdr = true) :
    ∃ q, runBatch P p = .ok () q := by
  obtain ⟨q, hq⟩ := writeAll_total P p.dec p.dec.batch p h
  exact ⟨_, by unfold runBatch; rw [hq]; rfl⟩



@[simp] theorem feedPart_sink (b : Bytes) (p : DecPart) : (feedPart b p).sink = p.sink := rfl

/-- DEC after the first frame is accepted (R305). -/
def accepted (h : FirstHeader) (k : Option Key) (d : Dec) : Dec :=
  consume frameSize { d with key := k, first := some h, state := .streaming }

/-- DEC after one frame is consumed with the events `ev`, with the FinalHeader and the output length given. -/
def consumed (ev : List SoftEvent) (f : Option FinalHeader) (o : Nat) (d : Dec) : Dec :=
  consume frameSize { (noteEvents ev 0 d) with final := f, outLen := o }

/-- What one turn of the parse loop can do (R304 to R311, R331). -/
inductive TurnCase (P : Params) (final : Bool) (p : DecPart) : Run DecStop DecPart Bool → Prop where
  /-- the first frame fails a check (R305) -/
  | fatal (c : DecFatal) (hs : p.dec.state = .awaitFirst) : TurnCase P final p (.stop (.fatal c) p)
  /-- the first frame is accepted (R305) -/
  | accept (h : FirstHeader) (k : Option Key) (hs : p.dec.state = .awaitFirst)
      (hv : parseFrame P (p.dec.inBuf.take frameSize) = .first h)
      (hk : h.encrypted = true → k.isSome) (hk' : h.encrypted = false → k = p.dec.key) :
      TurnCase P final p (.ok true ⟨accepted h k p.dec, p.sink⟩)
  /-- one frame is consumed, with or without a soft event (R306 to R309, R331) -/
  | frame (ev : List SoftEvent) (f : Option FinalHeader) (o : Nat) (hs : p.dec.state ≠ .awaitFirst)
      (hf : p.dec.final.isSome → f = p.dec.final)
      (ho : o = p.dec.outLen ∨ final = true ∧ ∃ h, sane h = true ∧
        o = max p.dec.outLen (h.srcDataPosition.toInt + h.srcDataLength.toInt).toNat) :
      TurnCase P final p (.ok true ⟨consumed ev f o p.dec, p.sink⟩)
  /-- a sane BlockHeader waits for its payload (R310) -/
  | wait (h : BlockHeader) (hs : p.dec.state ≠ .awaitFirst) (hfin : final = false)
      (hv : parseFrame P (p.dec.inBuf.take frameSize) = .block h) (hh : sane h = true)
      (hl : p.dec.inBuf.length < frameSize + h.destDataSize.toInt.toNat) :
      TurnCase P final p (.ok false { p with dec := raiseOutLen h p.dec })
  /-- a chunk joins the batch (R311) -/
  | enqueued (h : BlockHeader) (hs : p.dec.state ≠ .awaitFirst)
      (hv : parseFrame P (p.dec.inBuf.take frameSize) = .block h) (hh : sane h = true)
      (hl : frameSize + h.destDataSize.toInt.toNat ≤ p.dec.inBuf.length)
      (hb : p.dec.batch.length + 1 ≠ p.dec.par) :
      TurnCase P final p (.ok true { p with dec := enqueue h (raiseOutLen h p.dec) })
  /-- a chunk fills the batch (R311, R314) -/
  | ran (h : BlockHeader) (hs : p.dec.state ≠ .awaitFirst)
      (hv : parseFrame P (p.dec.inBuf.take frameSize) = .block h) (hh : sane h = true)
      (hl : frameSize + h.destDataSize.toInt.toNat ≤ p.dec.inBuf.length)
      (hb : p.dec.batch.length + 1 = p.dec.par) :
      TurnCase P final p
        ((runBatch P { p with dec := enqueue h (raiseOutLen h p.dec) }).bind fun _ p => .ok true p)

/-- What AcceptFirst does, by the verdict and the checks (R305). -/
theorem acceptFirst_cases (P : Params) (v : Verdict) (d : Dec) :
    (∃ c, acceptFirst P v d = .error c) ∨
    ∃ h k, v = .first h ∧ (h.encrypted = true → k.isSome) ∧ (h.encrypted = false → k = d.key) ∧
      acceptFirst P v d = .ok (consume frameSize { d with key := k, first := some h, state := .streaming }) := by
  cases v with
  | first h =>
    simp only [acceptFirst, unwrapKey]
    by_cases h1 : h.version = formatVersion
    · simp only [h1, ne_eq, not_true, if_false]
      by_cases h2 : h.encrypted = true
      · simp only [h2, if_true]
        by_cases h3 : P.pwVerify h.saltedPassword d.password = true
        · simp only [h3, not_true, if_false]
          cases h4 : (P.pwUnseal h.wrappedMasterKey d.password).bind (FixedBytes.ofBytes 64) with
          | none => exact .inl ⟨_, rfl⟩
          | some k => exact .inr ⟨h, some k, rfl, fun _ => rfl, fun hc => by simp [h2] at hc, rfl⟩
        · simp only [h3]; exact .inl ⟨_, rfl⟩
      · simp only [h2]
        exact .inr ⟨h, d.key, rfl, fun hc => by simp [h2] at hc, fun _ => rfl, rfl⟩
    · simp only [ne_eq, h1, not_false_iff, if_true]; exact .inl ⟨_, rfl⟩
  | unrecognized => exact .inl ⟨_, rfl⟩
  | block _ => exact .inl ⟨_, rfl⟩
  | final _ => exact .inl ⟨_, rfl⟩
  | invalid => exact .inl ⟨_, rfl⟩

theorem parseTurn_cases (P : Params) (final : Bool) (p : DecPart) : TurnCase P final p (parseTurn P final p) := by
  unfold parseTurn
  dsimp only
  by_cases hs : p.dec.state = .awaitFirst
  · rw [if_pos hs]
    rcases acceptFirst_cases P (parseFrame P (p.dec.inBuf.take frameSize)) p.dec with ⟨c, h⟩ | ⟨h, k, hv, hk, hk', e⟩
    · rw [h]; exact .fatal c hs
    · rw [e]; exact .accept h k hs hv hk hk'
  · rw [if_neg hs]
    have skip : ∀ c : SoftCause, TurnCase P final p (.ok true { p with dec := skipFrame c p.dec }) := by
      intro c
      rw [skipFrame, recordEvent_eq]
      exact .frame [⟨c, p.dec.cursor⟩] p.dec.final p.dec.outLen hs (fun _ => rfl) (.inl rfl)
    cases hv : parseFrame P (p.dec.inBuf.take frameSize) with
    | unrecognized => exact skip _
    | invalid => exact skip _
    | first h =>
      have := TurnCase.frame (P := P) (final := final) (p := p) [] p.dec.final p.dec.outLen hs (fun _ => rfl) (.inl rfl)
      rw [consumed, noteEvents_nil] at this
      exact this
    | final h =>
      have := TurnCase.frame (P := P) (final := final) (p := p) [] (some (p.dec.final.getD h)) p.dec.outLen hs
        (by cases p.dec.final <;> simp) (.inl rfl)
      rw [consumed, noteEvents_nil] at this
      exact this
    | block h =>
      show TurnCase P final p (parseBlock P final h p)
      unfold parseBlock
      dsimp only
      by_cases hh : sane h = true
      · rw [if_neg (by simpa using hh)]
        by_cases hl : p.dec.inBuf.length < frameSize + h.destDataSize.toInt.toNat
        · rw [if_pos (show (raiseOutLen h p.dec).inBuf.length < _ from hl)]
          cases final with
          | false => exact .wait h hs rfl hv hh hl
          | true =>
            rw [if_neg (by simp), skipFrame, recordEvent_eq]
            exact .frame [⟨.incompletePayload, p.dec.cursor⟩] p.dec.final _ hs (fun _ => rfl) (.inr ⟨rfl, h, hh, rfl⟩)
        · rw [if_neg (show ¬ (raiseOutLen h p.dec).inBuf.length < _ from hl)]
          by_cases hb : p.dec.batch.length + 1 = p.dec.par
          · rw [if_pos (by simp [enqueue, raiseOutLen, consume, hb])]
            exact .ran h hs hv hh (by omega) hb
          · rw [if_neg (by simp [enqueue, raiseOutLen, consume, hb])]
            exact .enqueued h hs hv hh (by omega) hb
      · rw [if_pos (by simpa using hh)]; exact skip _

/-- A turn that asks for another one consumes at least one frame (R471). -/
theorem parseTurn_progress {P : Params} {final : Bool} {p q : DecPart} (hp : frameSize ≤ p.dec.inBuf.length)
    (h : parseTurn P final p = .ok true q) : q.dec.inBuf.length + frameSize ≤ p.dec.inBuf.length := by
  have hc := parseTurn_cases P final p
  rw [h] at hc
  have key : ∀ h, frameSize + h.destDataSize.toInt.toNat ≤ p.dec.inBuf.length →
      (enqueue h (raiseOutLen h p.dec)).inBuf.length + frameSize ≤ p.dec.inBuf.length := by
    intro h hl; simp [enqueue, consume, raiseOutLen]; omega
  generalize hr : (Run.ok true q : Run DecStop DecPart Bool) = r at hc
  cases hc with
  | fatal => cases hr
  | accept => cases hr; simp [accepted, consume]; omega
  | frame => cases hr; simp [consumed, consume, noteEvents]; omega
  | wait => cases hr
  | enqueued h _ _ _ hl => cases hr; exact key _ hl
  | ran h _ _ _ hl _ =>
    cases hb : runBatch P { p with dec := enqueue h (raiseOutLen h p.dec) } with
    | stop e u => rw [hb] at hr; cases hr
    | ok x u =>
      rw [hb] at hr
      cases hr
      obtain ⟨⟨ev, n, e⟩, -, -⟩ := runBatch_ok hb
      rw [e]; exact key _ hl

/-- More turns than the buffer holds frames change nothing (R471). -/
theorem parseTurns_fuel (P : Params) (final : Bool) : ∀ (n m : Nat) (p : DecPart),
    p.dec.inBuf.length < n * frameSize → p.dec.inBuf.length < m * frameSize →
    parseTurns P final n p = parseTurns P final m p := by
  intro n
  induction n with
  | zero => intro m p h; simp at h
  | succ n ih =>
    intro m p hn hm
    cases m with
    | zero => simp at hm
    | succ m =>
      simp only [parseTurns]
      split_ifs with hl
      · rfl
      · cases ht : parseTurn P final p with
        | stop e q => rfl
        | ok more q =>
          simp only [Run.bind]
          cases more with
          | false => rfl
          | true =>
            have := parseTurn_progress (by omega) ht
            simp only [if_true]
            apply ih
            · rw [Nat.add_mul] at hn; omega
            · rw [Nat.add_mul] at hm; omega

/-- The parse loop as R304 writes it: while a frame is buffered, one turn. -/
theorem parseLoop_eq (P : Params) (final : Bool) (p : DecPart) :
    parseLoop P final p =
      if p.dec.inBuf.length < frameSize then .ok () p
      else (parseTurn P final p).bind fun more q => if more then parseLoop P final q else .ok () q := by
  unfold parseLoop
  rw [parseTurns]
  split_ifs with hl
  · rfl
  · cases ht : parseTurn P final p with
    | stop e q => rfl
    | ok more q =>
      simp only [Run.bind]
      cases more with
      | false => rfl
      | true =>
        have h1 := parseTurn_progress (by omega) ht
        simp only [if_true]
        apply parseTurns_fuel
        · have := Nat.div_add_mod p.dec.inBuf.length frameSize
          simp only [frameSize] at *
          omega
        · simp only [frameSize]; omega

/-- What every turn keeps, the parse loop keeps. -/
theorem parseLoop_keeps {P : Params} {final : Bool} {I : DecPart → Prop}
    (hI : ∀ p more q, I p → frameSize ≤ p.dec.inBuf.length → parseTurn P final p = .ok more q → I q) :
    ∀ (n : Nat) (p : DecPart), p.dec.inBuf.length < n → I p →
      (∀ q, parseLoop P final p = .ok () q → I q) ∧
      ∀ e q, parseLoop P final p = .stop e q →
        ∃ p', I p' ∧ frameSize ≤ p'.dec.inBuf.length ∧ parseTurn P final p' = .stop e q := by
  intro n
  induction n with
  | zero => intro p h; omega
  | succ n ih =>
    intro p hn hp
    rw [parseLoop_eq]
    split_ifs with hl
    · exact ⟨fun q h => by cases h; exact hp, fun e q h => by cases h⟩
    · cases ht : parseTurn P final p with
      | stop e q => exact ⟨fun q h => (by cases h), fun e' q' h => by cases h; exact ⟨p, hp, by omega, ht⟩⟩
      | ok more q =>
        have hq := hI p more q hp (by omega) ht
        simp only [Run.bind]
        cases more with
        | false => exact ⟨fun q' h => by cases h; exact hq, fun e q' h => by cases h⟩
        | true =>
          have h1 := parseTurn_progress (by omega) ht
          simp only [frameSize] at h1
          exact ih q (by omega) hq



/-- What the parse loop keeps, whatever it starts from (R73, R302, R308). -/
structure TurnKeeps (p q : DecPart) : Prop where
  errors : p.dec.errors ≤ q.dec.errors
  warnings : p.dec.warnings ≤ q.dec.warnings
  totalBytes : p.dec.totalBytes ≤ q.dec.totalBytes
  cursor : p.dec.cursor ≤ q.dec.cursor
  outLen : p.dec.outLen ≤ q.dec.outLen
  fatal : q.dec.fatal = p.dec.fatal
  par : q.dec.par = p.dec.par
  password : q.dec.password = p.dec.password
  state : q.dec.state = p.dec.state ∨ (p.dec.state = .awaitFirst ∧ q.dec.state = .streaming)
  final : p.dec.final.isSome → q.dec.final = p.dec.final
  sink : SinkInv p.sink → SinkInv q.sink

theorem TurnKeeps.refl (p : DecPart) : TurnKeeps p p :=
  ⟨le_rfl, le_rfl, le_rfl, le_rfl, le_rfl, rfl, rfl, rfl, .inl rfl, fun _ => rfl, id⟩

theorem TurnKeeps.trans {p q r : DecPart} (h : TurnKeeps p q) (h' : TurnKeeps q r) : TurnKeeps p r where
  errors := h.errors.trans h'.errors
  warnings := h.warnings.trans h'.warnings
  totalBytes := h.totalBytes.trans h'.totalBytes
  cursor := h.cursor.trans h'.cursor
  outLen := h.outLen.trans h'.outLen
  fatal := h'.fatal.trans h.fatal
  par := h'.par.trans h.par
  password := h'.password.trans h.password
  state := by
    rcases h.state with h1 | ⟨h1, h2⟩ <;> rcases h'.state with h3 | ⟨h3, h4⟩
    · exact .inl (h3.trans h1)
    · exact .inr ⟨h1 ▸ h3, h4⟩
    · exact .inr ⟨h1, h3.trans h2⟩
    · rw [h2] at h3; cases h3
  final := fun hf => by
    have h1 := h.final hf
    exact (h'.final (by rw [h1]; exact hf)).trans h1
  sink := fun hs => h'.sink (h.sink hs)

theorem runBatch_keeps {P : Params} {p q : DecPart} (h : runBatch P p = .ok () q) : TurnKeeps p q := by
  obtain ⟨⟨ev, n, e⟩, hs, -⟩ := runBatch_ok h
  constructor <;> first | exact hs | (rw [e]; simp [noteEvents])

theorem enqueue_keeps (h : BlockHeader) (p : DecPart) :
    TurnKeeps p { p with dec := enqueue h (raiseOutLen h p.dec) } := by
  constructor <;> simp [enqueue, raiseOutLen, consume]

/-- What one turn keeps. -/
theorem parseTurn_keeps {P : Params} {final : Bool} {p q : DecPart} {more : Bool}
    (h : parseTurn P final p = .ok more q) : TurnKeeps p q := by
  have hc := parseTurn_cases P final p
  rw [h] at hc
  generalize hr : (Run.ok more q : Run DecStop DecPart Bool) = r at hc
  cases hc with
  | fatal => cases hr
  | accept h k hs => cases hr; constructor <;> simp [accepted, consume, hs]
  | frame ev f o hs hf ho =>
    cases hr
    have ho' : p.dec.outLen ≤ o := by rcases ho with rfl | ⟨-, h, -, rfl⟩ <;> simp
    constructor <;> simp [consumed, consume, noteEvents]
    · exact ho'
    · simpa using hf
  | wait h => cases hr; constructor <;> simp [raiseOutLen]
  | enqueued h => cases hr; exact enqueue_keeps _ p
  | ran h =>
    cases hb : runBatch P { p with dec := enqueue h (raiseOutLen h p.dec) } with
    | stop e u => rw [hb] at hr; cases hr
    | ok x u => rw [hb] at hr; cases hr; exact (enqueue_keeps _ p).trans (runBatch_keeps hb)

/-- RunBatch stops only with a SINK fault. -/
theorem runBatch_stop {P : Params} {p q : DecPart} {e : DecStop} (h : runBatch P p = .stop e q) : ∃ f, e = .fault f := by
  have : ∀ (cs : List (BatchEntry × (Option Bytes × List SoftCause))) (p q : DecPart),
      writeAll cs p = .stop e q → ∃ f, e = .fault f := by
    intro cs
    induction cs with
    | nil => intro p q h; cases h
    | cons c cs ih =>
      intro p q h
      rw [writeAll] at h
      cases hc : writeChunk c.1 c.2 p with
      | ok x u => rw [hc] at h; exact ih u q h
      | stop e' u =>
        rw [hc] at h
        cases h
        unfold writeChunk at hc
        dsimp only at hc
        split at hc
        · cases hc
        · split at hc <;> cases hc; exact ⟨_, rfl⟩
  unfold runBatch at h
  cases hw : writeAll (p.dec.batch.map fun b => (b, decodeEntry P p.dec b)) p with
  | ok x u => rw [hw] at h; cases h
  | stop e' u => rw [hw] at h; cases h; exact this _ _ _ hw

/-- How one turn stops: with a fatal condition in AWAIT_FIRST and nothing changed, or with a SINK fault. -/
theorem parseTurn_stop {P : Params} {final : Bool} {p q : DecPart} {e : DecStop}
    (h : parseTurn P final p = .stop e q) :
    (q = p ∧ p.dec.state = .awaitFirst ∧ ∃ c, e = .fatal c) ∨ (∃ f, e = .fault f) ∧ p.dec.state ≠ .awaitFirst ∧
      ∃ h, sane h = true ∧ runBatch P { p with dec := enqueue h (raiseOutLen h p.dec) } = .stop e q := by
  have hc := parseTurn_cases P final p
  rw [h] at hc
  generalize hr : (Run.stop e q : Run DecStop DecPart Bool) = r at hc
  cases hc with
  | fatal c hs => cases hr; exact .inl ⟨rfl, hs, c, rfl⟩
  | accept h k hs => cases hr
  | frame => cases hr
  | wait h => cases hr
  | enqueued h => cases hr
  | ran h hs _ hh =>
    cases hb : runBatch P { p with dec := enqueue h (raiseOutLen h p.dec) } with
    | ok x u => rw [hb] at hr; cases hr
    | stop e' u => rw [hb] at hr; cases hr; exact .inr ⟨runBatch_stop hb, hs, h, hh, hb⟩

/-- What the parse loop keeps when it ends. -/
theorem parseLoop_turnKeeps {P : Params} {final : Bool} {p q : DecPart} (h : parseLoop P final p = .ok () q) :
    TurnKeeps p q :=
  (parseLoop_keeps (P := P) (final := final) (I := TurnKeeps p)
    (fun _ _ _ hp _ ht => hp.trans (parseTurn_keeps ht)) _ p (Nat.lt_succ_self _) (.refl p)).1 q h

/-- A fatal condition of the parse loop arises in AWAIT_FIRST, before any frame is taken: nothing has changed. -/
theorem parseLoop_fatal {P : Params} {final : Bool} {p q : DecPart} {c : DecFatal}
    (h : parseLoop P final p = .stop (.fatal c) q) : q = p ∧ p.dec.state = .awaitFirst := by
  have hk := parseLoop_keeps (P := P) (final := final) (I := fun p' => p' = p ∨ p'.dec.state ≠ .awaitFirst)
    (fun p' more q' hp hl ht => ?_) _ p (Nat.lt_succ_self _) (.inl rfl)
  · obtain ⟨p', hp', -, ht⟩ := hk.2 _ _ h
    rcases parseTurn_stop ht with ⟨rfl, hs, -⟩ | ⟨⟨f, hf⟩, -⟩
    · rcases hp' with rfl | hn
      · exact ⟨rfl, hs⟩
      · exact absurd hs hn
    · cases hf
  · right
    have hc := parseTurn_cases P final p'
    have hkeep := parseTurn_keeps ht
    rw [ht] at hc
    generalize hr : (Run.ok more q' : Run DecStop DecPart Bool) = r at hc
    cases hc with
    | fatal => cases hr
    | accept => cases hr; simp [accepted, consume]
    | frame _ _ _ hs => cases hr; exact hs
    | wait _ hs => cases hr; exact hs
    | enqueued _ hs => cases hr; exact hs
    | ran _ hs =>
      rcases hkeep.state with h1 | ⟨h1, -⟩
      · rw [h1]; exact hs
      · exact absurd h1 hs

/-- DEC in the middle of a parse loop: DEC's invariant but for the bound on the buffered input. -/
structure DecLoop (d : Dec) (input : Bytes) : Prop where
  no_fatal : d.fatal = none
  running : d.state = .awaitFirst ∨ d.state = .streaming
  await_is_open : d.state = .awaitFirst → d = { openDecode d.par d.password with inBuf := d.inBuf }
  streaming_open : d.state = .streaming → ∃ f, d.first = some f ∧ (d.key.isSome ↔ f.encrypted = true)
  batch_bound : d.batch.length < d.par
  batch_sane : ∀ b ∈ d.batch, sane b.hdr = true
  batch_below : ∀ b ∈ d.batch, b.hdr.srcDataPosition.toInt + b.hdr.srcDataLength.toInt ≤ d.outLen
  input_from_cursor : d.cursor ≤ input.length ∧ d.inBuf = input.drop d.cursor
  errors_counted : d.errors = countSeverity .error d.trace
  warnings_counted : d.warnings = countSeverity .warning d.trace
  outLen_bound : d.outLen ≤ 2 ^ 63 - 1


theorem runBatch_loop {P : Params} {p q : DecPart} {input : Bytes}
    (h : DecLoop { p.dec with batch := [] } input) (hs : p.dec.state ≠ .awaitFirst) (hr : runBatch P p = .ok () q) :
    DecLoop q.dec input := by
  obtain ⟨⟨ev, n, e⟩, -, -⟩ := runBatch_ok hr
  rw [e]
  refine ⟨h.no_fatal, h.running, fun hc => absurd hc hs, h.streaming_open, h.batch_bound, h.batch_sane, h.batch_below,
    h.input_from_cursor, ?_, ?_, h.outLen_bound⟩
  · have := h.errors_counted
    simp only [noteEvents, countSeverity_append] at *; omega
  · have := h.warnings_counted
    simp only [noteEvents, countSeverity_append] at *; omega

theorem parseTurn_loop {P : Params} {final : Bool} {p q : DecPart} {more : Bool} {input : Bytes}
    (h : DecLoop p.dec input) (hl : frameSize ≤ p.dec.inBuf.length) (ht : parseTurn P final p = .ok more q) :
    DecLoop q.dec input := by
  have hin : ∀ n, n ≤ p.dec.inBuf.length → p.dec.cursor + n ≤ input.length ∧
      p.dec.inBuf.drop n = input.drop (p.dec.cursor + n) := by
    intro n hn
    obtain ⟨h1, h2⟩ := h.input_from_cursor
    have : p.dec.inBuf.length = input.length - p.dec.cursor := by rw [h2]; simp
    refine ⟨by omega, ?_⟩
    rw [h2, List.drop_drop]
  have hc := parseTurn_cases P final p
  rw [ht] at hc
  generalize hr : (Run.ok more q : Run DecStop DecPart Bool) = r at hc
  have hraise : ∀ hd, sane hd = true →
      max p.dec.outLen (hd.srcDataPosition.toInt + hd.srcDataLength.toInt).toNat ≤ 2 ^ 63 - 1 := by
    intro hd hh
    have h1 := (sane_iff hd).mp hh
    have := h.outLen_bound
    omega
  have henq : ∀ hd, sane hd = true → frameSize + hd.destDataSize.toInt.toNat ≤ p.dec.inBuf.length →
      p.dec.state ≠ .awaitFirst →
      ∀ d', d' = { enqueue hd (raiseOutLen hd p.dec) with batch := [] } ∨
          (d' = enqueue hd (raiseOutLen hd p.dec) ∧ p.dec.batch.length + 1 ≠ p.dec.par) →
      DecLoop d' input := by
    intro hd hh hl hs d' hd'
    have h0 := h.batch_bound
    have h1 := (sane_iff hd).mp hh
    have base : ∀ bs, bs = [] ∨ (bs = (enqueue hd (raiseOutLen hd p.dec)).batch ∧ p.dec.batch.length + 1 ≠ p.dec.par) →
        DecLoop { enqueue hd (raiseOutLen hd p.dec) with batch := bs } input := by
      intro bs hbs
      refine ⟨h.no_fatal, h.running, fun hc => absurd hc hs, h.streaming_open, ?_, ?_, ?_, hin _ hl, h.errors_counted,
          h.warnings_counted, hraise hd hh⟩
      · rcases hbs with rfl | ⟨rfl, hb⟩
        · simp [enqueue, consume, raiseOutLen]; omega
        · simp [enqueue, consume, raiseOutLen]; omega
      · intro b hb
        rcases hbs with rfl | ⟨rfl, -⟩
        · cases hb
        · simp only [enqueue, consume, raiseOutLen, List.mem_append, List.mem_singleton] at hb
          rcases hb with hb | rfl
          · exact h.batch_sane b hb
          · exact hh
      · intro b hb
        rcases hbs with rfl | ⟨rfl, -⟩
        · cases hb
        · simp only [enqueue, consume, raiseOutLen, List.mem_append, List.mem_singleton] at hb ⊢
          rcases hb with hb | rfl
          · have := h.batch_below b hb; omega
          · dsimp only; omega
    rcases hd' with rfl | ⟨rfl, hb⟩
    · exact base _ (.inl rfl)
    · exact base _ (.inr ⟨rfl, hb⟩)
  cases hc with
  | fatal => cases hr
  | accept hd k hs hv hk hk' =>
    cases hr
    have ha := h.await_is_open hs
    have hkey : p.dec.key = none := by rw [ha]; rfl
    refine ⟨h.no_fatal, .inr rfl, fun hc => (by cases hc), fun _ => ⟨hd, rfl, ?_⟩, h.batch_bound, h.batch_sane,
        h.batch_below, hin _ hl, h.errors_counted, h.warnings_counted, h.outLen_bound⟩
    constructor
    · intro hk2
      by_contra he
      have := hk' (by simpa using he)
      simp only [accepted, consume] at hk2
      rw [this, hkey] at hk2; cases hk2
    · exact hk
  | frame ev f o hs hf ho =>
    cases hr
    have ho' : p.dec.outLen ≤ o ∧ o ≤ 2 ^ 63 - 1 := by
      rcases ho with rfl | ⟨-, hd, hh, rfl⟩
      · exact ⟨le_rfl, h.outLen_bound⟩
      · exact ⟨le_max_left _ _, hraise hd hh⟩
    refine ⟨h.no_fatal, h.running, fun hc => absurd hc hs, h.streaming_open, h.batch_bound, h.batch_sane, ?_, hin _ hl,
        ?_, ?_, ho'.2⟩
    · intro b hb
      have := h.batch_below b hb
      simp only [consumed, consume]; omega
    · have := h.errors_counted
      simp only [consumed, consume, noteEvents, countSeverity_append]; omega
    · have := h.warnings_counted
      simp only [consumed, consume, noteEvents, countSeverity_append]; omega
  | wait hd hs _ _ hh =>
    cases hr
    refine ⟨h.no_fatal, h.running, fun hc => absurd hc hs, h.streaming_open, h.batch_bound, h.batch_sane, ?_,
        h.input_from_cursor, h.errors_counted, h.warnings_counted, hraise hd hh⟩
    intro b hb
    have := h.batch_below b hb
    simp only [raiseOutLen]; omega
  | enqueued hd hs _ hh hl hb => cases hr; exact henq hd hh hl hs _ (.inr ⟨rfl, hb⟩)
  | ran hd hs _ hh hl hb =>
    cases hbb : runBatch P { p with dec := enqueue hd (raiseOutLen hd p.dec) } with
    | stop e u => rw [hbb] at hr; cases hr
    | ok x u => rw [hbb] at hr; cases hr; exact runBatch_loop (p :=
        ⟨enqueue hd (raiseOutLen hd p.dec), p.sink⟩) (henq hd hh hl hs _ (.inl rfl)) hs hbb

/-- From a state that meets DEC's invariant the parse loop never leaves SINK. -/
theorem parseLoop_loop {P : Params} {final : Bool} {p : DecPart} {input : Bytes} (h : DecLoop p.dec input) :
    (∀ q, parseLoop P final p = .ok () q → DecLoop q.dec input) ∧
    ∀ e q, parseLoop P final p = .stop e q → ∃ c, e = .fatal c := by
  have hk := parseLoop_keeps (P := P) (final := final) (I := fun p => DecLoop p.dec input)
    (fun p more q hp hl ht => parseTurn_loop hp hl ht) _ p (Nat.lt_succ_self _) h
  refine ⟨hk.1, fun e q he => ?_⟩
  obtain ⟨p', hp', -, ht⟩ := hk.2 e q he
  rcases parseTurn_stop ht with ⟨-, -, hc⟩ | ⟨-, -, hd, hh, hr⟩
  · exact hc
  · obtain ⟨u, hu⟩ := runBatch_total P { p' with dec := enqueue hd (raiseOutLen hd p'.dec) } (by
      intro b hb
      simp only [enqueue, consume, raiseOutLen, List.mem_append, List.mem_singleton] at hb
      rcases hb with hb | rfl
      · exact hp'.batch_sane b hb
      · exact hh)
    rw [hu] at hr; cases hr



theorem decLoop_of_inv {d : Dec} {input b : Bytes} (h : DecInv d input) (hr : decRunning d = true) :
    DecLoop { d with inBuf := d.inBuf ++ b } (input ++ b) := by
  have hr' : d.state = .awaitFirst ∨ d.state = .streaming := by simpa [decRunning] using hr
  have hf : d.fatal = none := by
    cases hd : d.fatal with
    | none => rfl
    | some c =>
      have := h.fatal_iff_failed.mp (by rw [hd]; rfl)
      rw [this] at hr'; simp at hr'
  refine ⟨hf, hr', fun hs => ?_, h.streaming_open, h.batch_bound, h.batch_sane, h.batch_below, ?_, h.errors_counted,
    h.warnings_counted, h.outLen_bound⟩
  · have := h.await_is_open hs
    rw [this]; rfl
  · obtain ⟨h1, h2⟩ := h.input_from_cursor hr
    refine ⟨by simp; omega, ?_⟩
    dsimp only
    rw [h2, List.drop_append_of_le_length h1]

theorem decInv_of_loop {d : Dec} {input : Bytes} (h : DecLoop d input)
    (hs : d.state = .awaitFirst → d.inBuf.length < frameSize) : DecInv d input where
  fatal_iff_failed := by rw [h.no_fatal]; rcases h.running with hr | hr <;> rw [hr] <;> simp
  idle_is_reset := fun hi => by rcases h.running with hr | hr <;> rw [hr] at hi <;> cases hi
  await_is_open := h.await_is_open
  await_short := hs
  streaming_open := h.streaming_open
  batch_bound := h.batch_bound
  batch_sane := h.batch_sane
  batch_below := h.batch_below
  input_from_cursor := fun _ => h.input_from_cursor
  errors_counted := h.errors_counted
  warnings_counted := h.warnings_counted
  outLen_bound := h.outLen_bound
  finalized_done := fun hi => by rcases h.running with hr | hr <;> rw [hr] at hi <;> cases hi

/-- A FAILED DEC keeps its invariant. -/
theorem decInv_fatal {d : Dec} {input : Bytes} (h : DecLoop d input) (c : DecFatal) :
    DecInv { d with fatal := some c, state := .failed } input where
  fatal_iff_failed := by simp
  idle_is_reset := fun h => by cases h
  await_is_open := fun h => by cases h
  await_short := fun h => by cases h
  streaming_open := fun h => by cases h
  batch_bound := h.batch_bound
  batch_sane := h.batch_sane
  batch_below := h.batch_below
  input_from_cursor := fun h => by cases h
  errors_counted := h.errors_counted
  warnings_counted := h.warnings_counted
  outLen_bound := h.outLen_bound
  finalized_done := fun h => by cases h

/-- In AWAIT_FIRST the parse loop leaves less than a frame buffered. -/
theorem parseLoop_await_short {P : Params} {final : Bool} : ∀ (n : Nat) (p q : DecPart), p.dec.inBuf.length < n →
    parseLoop P final p = .ok () q → q.dec.state = .awaitFirst → q.dec.inBuf.length < frameSize := by
  intro n
  induction n with
  | zero => intro p q h; omega
  | succ n ih =>
    intro p q hn h hs
    rw [parseLoop_eq] at h
    split_ifs at h with hl
    · cases h; exact hl
    · cases ht : parseTurn P final p with
      | stop e u => rw [ht] at h; cases h
      | ok more u =>
        rw [ht] at h
        simp only [Run.bind] at h
        have hc := parseTurn_cases P final p
        rw [ht] at hc
        cases more with
        | true =>
          have h1 := parseTurn_progress (by omega) ht
          simp only [frameSize] at h1
          exact ih u q (by omega) h hs
        | false =>
          cases h
          generalize hr : (Run.ok false q : Run DecStop DecPart Bool) = r at hc
          cases hc with
          | fatal => cases hr
          | accept => cases hr
          | frame => cases hr
          | wait h hs' => cases hr; exact absurd hs hs'
          | enqueued => cases hr
          | ran h =>
            cases hb : runBatch P { p with dec := enqueue h (raiseOutLen h p.dec) } <;> rw [hb] at hr <;> cases hr

/-- With `final` true, or in AWAIT_FIRST, the loop ends with less than a frame. -/
theorem parseLoop_true_short {P : Params} : ∀ (n : Nat) (p q : DecPart), p.dec.inBuf.length < n →
    parseLoop P true p = .ok () q → q.dec.inBuf.length < frameSize := by
  intro n
  induction n with
  | zero => intro p q h; omega
  | succ n ih =>
    intro p q hn h
    rw [parseLoop_eq] at h
    split_ifs at h with hl
    · cases h; exact hl
    · cases ht : parseTurn P true p with
      | stop e u => rw [ht] at h; cases h
      | ok more u =>
        rw [ht] at h
        simp only [Run.bind] at h
        have hc := parseTurn_cases P true p
        rw [ht] at hc
        cases more with
        | true =>
          have h1 := parseTurn_progress (by omega) ht
          simp only [frameSize] at h1
          exact ih u q (by omega) h
        | false =>
          generalize hr : (Run.ok false u : Run DecStop DecPart Bool) = r at hc
          cases hc with
          | fatal => cases hr
          | accept => cases hr
          | frame => cases hr
          | wait h hs' hf => cases hf
          | enqueued => cases hr
          | ran h =>
            cases hb : runBatch P { p with dec := enqueue h (raiseOutLen h p.dec) } <;> rw [hb] at hr <;> cases hr

theorem dropTail_eq (d : Dec) : ∃ ev, dropTail d = { (noteEvents ev 0 d) with inBuf := [] } ∧
    ev = if d.inBuf = [] then [] else [⟨.incompleteTail, d.cursor⟩] := by
  unfold dropTail
  by_cases h : d.inBuf = []
  · refine ⟨[], ?_, by rw [if_pos h]⟩
    rw [if_pos (by rw [h]; rfl), noteEvents_nil]
    cases d; simp at h; simp [h]
  · refine ⟨[⟨.incompleteTail, d.cursor⟩], ?_, by rw [if_neg h]⟩
    rw [if_neg (by simpa using h), recordEvent_eq]

/-- The end of a decode: what DEC is when it answers, and when it does not (R330, R334, R335). -/
theorem closeDecode_cases (P : Params) (p : DecPart) (hp : p.dec.outLen ≤ 2 ^ 63 - 1) :
    (p.dec.final = none ∧ closeDecode P p = .stop (.fatal .truncated) p) ∨
    ∃ f o ev, p.dec.final = some f ∧ o =
        (if 0 ≤ f.totalSourceSize.toInt then max p.dec.outLen f.totalSourceSize.toInt.toNat else p.dec.outLen) ∧
      ev = (if P.sha1 (Memory.readBytes p.sink 0 o) = f.sourceSha1 then [] else [⟨.finalHashMismatch, p.dec.cursor⟩]) ∧
      closeDecode P p = .ok () { p with dec := { (noteEvents ev 0 p.dec) with outLen := o, state := .finalized } } := by
  unfold closeDecode
  cases hf : p.dec.final with
  | none => exact .inl ⟨rfl, rfl⟩
  | some f =>
    refine .inr ⟨f, _, _, rfl, rfl, rfl, ?_⟩
    dsimp only
    have h1 := BitVec.toInt_lt (x := f.totalSourceSize)
    simp only [Nat.add_one_sub_one] at h1
    have e : (if 0 ≤ f.totalSourceSize.toInt then
          { p.dec with outLen := max p.dec.outLen f.totalSourceSize.toInt.toNat }
        else p.dec) =
        { p.dec with
          outLen := if 0 ≤ f.totalSourceSize.toInt then max p.dec.outLen f.totalSourceSize.toInt.toNat
            else p.dec.outLen } := by
      split_ifs <;> rfl
    rw [e]
    generalize ho : (if 0 ≤ f.totalSourceSize.toInt then max p.dec.outLen f.totalSourceSize.toInt.toNat else p.dec.outLen) = o
    have ho' : o ≤ 2 ^ 63 - 1 := by rw [← ho]; split_ifs <;> omega
    have : sinkRead p.sink 0 o = some (Memory.readBytes p.sink 0 o) := by
      unfold sinkRead; rw [if_pos (by simp only [sinkSize]; omega)]
    dsimp only
    rw [this]
    dsimp only
    by_cases hh : P.sha1 (Memory.readBytes p.sink 0 o) = f.sourceSha1
    · rw [if_neg (not_not.mpr hh), if_pos hh, noteEvents_nil]
    · rw [if_pos hh, if_neg hh, recordEvent_eq]; rfl



/-- What DEC.FINAL does in STREAMING after its parse loop, before the end of the decode (R332, R333). -/
theorem drainDecode_streaming {P : Params} {p : DecPart} {input : Bytes} (h : DecLoop p.dec input)
    (hs : p.dec.state = .streaming) :
    ∃ ev n m, (SinkInv p.sink → SinkInv m) ∧
      (∀ a : Nat, (∀ b ∈ p.dec.batch, ¬ entryCovers b a) → Memory.get m a = Memory.get p.sink a) ∧
      drainDecode P p = closeDecode P ⟨{ (noteEvents ev n p.dec) with inBuf := [], batch := [] }, m⟩ := by
  unfold drainDecode
  rw [if_neg (by rw [hs]; simp)]
  obtain ⟨ev, e, -⟩ := dropTail_eq p.dec
  dsimp only
  rw [e]
  by_cases hb : p.dec.batch = []
  · refine ⟨ev, 0, p.sink, id, fun _ _ => rfl, ?_⟩
    rw [if_pos (by simp [noteEvents, hb])]
    congr 2
    simp [noteEvents, hb]
  · rw [if_neg (by simpa [noteEvents] using hb)]
    obtain ⟨q, hq⟩ := runBatch_total P { p with dec := { (noteEvents ev 0 p.dec) with inBuf := [] } } h.batch_sane
    obtain ⟨⟨ev', n, e'⟩, h1, h2⟩ := runBatch_ok hq
    refine ⟨ev ++ ev', n, q.sink, h1, h2, ?_⟩
    rw [hq]
    show closeDecode P q = _
    congr 1
    obtain ⟨d, m⟩ := q
    dsimp only at e' ⊢
    rw [e']
    simp [noteEvents, countSeverity_append, Nat.add_assoc]

/-- What DEC.FEED answers where DEC takes input: the loop's end, or a fatal condition with nothing parsed. -/
theorem decFeed_running {s : State} (P : Params) (h : DecInv s.dec s.input) (hr : decRunning s.dec = true) :
    (∃ q, parseLoop P false (decPart (takeInput s.ops.data s)) = .ok () q ∧
      DecLoop q.dec (s.input ++ s.ops.data) ∧ TurnKeeps (decPart (takeInput s.ops.data s)) q ∧
      (q.dec.state = .awaitFirst → q.dec.inBuf.length < frameSize) ∧
      decFeed P s = .next (completeStatus .ok (setDecPart q (takeInput s.ops.data s)))) ∨
    (∃ c, s.dec.state = .awaitFirst ∧ decFeed P s = .next (enterFatalDec c (takeInput s.ops.data s))) := by
  have hl := decLoop_of_inv (b := s.ops.data) h hr
  have hk := parseLoop_loop (P := P) (final := false) (p := decPart (takeInput s.ops.data s)) hl
  unfold decFeed
  rw [if_neg (by simpa using hr)]
  dsimp only [operandData]
  cases hp : parseLoop P false (decPart (takeInput s.ops.data s)) with
  | ok x q =>
    exact .inl ⟨q, rfl, hk.1 q hp, parseLoop_turnKeeps hp, parseLoop_await_short _ _ q (Nat.lt_succ_self _) hp, rfl⟩
  | stop e q =>
    obtain ⟨c, rfl⟩ := hk.2 e q hp
    obtain ⟨rfl, hs⟩ := parseLoop_fatal hp
    exact .inr ⟨c, hs, rfl⟩

/-- What DEC.FINAL answers where DEC takes input (R330): NO_FIRST_HEADER from AWAIT_FIRST; from STREAMING, TRUNCATED or
the end of the decode. -/
theorem decFinal_running {s : State} (P : Params) (h : DecInv s.dec s.input) (hr : decRunning s.dec = true) :
    (s.dec.state = .awaitFirst ∧ decFinal P s = .next (enterFatalDec .noFirstHeader s)) ∨
    ∃ q ev n m, s.dec.state = .streaming ∧ parseLoop P true (decPart s) = .ok () q ∧
      DecLoop q.dec s.input ∧ TurnKeeps (decPart s) q ∧ q.dec.inBuf.length < frameSize ∧
      (SinkInv q.sink → SinkInv m) ∧
      (∀ a : Nat, (∀ b ∈ q.dec.batch, ¬ entryCovers b a) → Memory.get m a = Memory.get q.sink a) ∧
      decFinal P s = decEnd (closeDecode P ⟨{ (noteEvents ev n q.dec) with inBuf := [], batch := [] }, m⟩) s := by
  have hl : DecLoop s.dec s.input := by have := decLoop_of_inv (b := []) h hr; simpa using this
  have hk := parseLoop_loop (P := P) (final := true) (p := decPart s) hl
  have hstate : s.dec.state = .awaitFirst ∨ s.dec.state = .streaming := by simpa [decRunning] using hr
  have e : decFinal P s = decEnd (finishDecode P (decPart s)) s := by
    unfold decFinal
    rw [if_neg (by rcases hstate with h | h <;> rw [h] <;> simp), if_neg (by simpa using hr)]
  rw [e]
  unfold finishDecode
  rcases hstate with hs | hs
  · left
    refine ⟨hs, ?_⟩
    rw [parseLoop_eq, if_pos (show (decPart s).dec.inBuf.length < frameSize from h.await_short hs)]
    simp only [Run.bind, drainDecode]
    rw [if_pos (show (decPart s).dec.state = _ from hs)]
    rfl
  · right
    cases hp : parseLoop P true (decPart s) with
    | stop e q =>
      obtain ⟨c, rfl⟩ := hk.2 e q hp
      obtain ⟨rfl, hs'⟩ := parseLoop_fatal hp
      rw [show (decPart s).dec.state = _ from hs] at hs'; cases hs'
    | ok x q =>
      have ht := parseLoop_turnKeeps hp
      have hq : q.dec.state = .streaming := by
        rcases ht.state with h1 | ⟨h1, -⟩
        · rw [h1]; exact hs
        · rw [show (decPart s).dec.state = _ from hs] at h1; cases h1
      obtain ⟨ev, n, m, h1, h2, h3⟩ := drainDecode_streaming (P := P) (hk.1 q hp) hq
      exact ⟨q, ev, n, m, hs, rfl, hk.1 q hp, ht, parseLoop_true_short _ _ q (Nat.lt_succ_self _) hp, h1, h2, by
        rw [← h3]; rfl⟩



/-- What the procedures of a decode keep in every state: the counters and the cursor only grow, and SINK keeps its
form (R73, R302, R104). -/
structure DecGrows (p q : DecPart) : Prop where
  errors : p.dec.errors ≤ q.dec.errors
  warnings : p.dec.warnings ≤ q.dec.warnings
  totalBytes : p.dec.totalBytes ≤ q.dec.totalBytes
  cursor : p.dec.cursor ≤ q.dec.cursor
  outLen : p.dec.outLen ≤ q.dec.outLen
  sink : SinkInv p.sink → SinkInv q.sink

theorem DecGrows.trans {p q r : DecPart} (h : DecGrows p q) (h' : DecGrows q r) : DecGrows p r :=
  ⟨h.errors.trans h'.errors, h.warnings.trans h'.warnings, h.totalBytes.trans h'.totalBytes, h.cursor.trans h'.cursor,
    h.outLen.trans h'.outLen, fun hs => h'.sink (h.sink hs)⟩

theorem TurnKeeps.grows {p q : DecPart} (h : TurnKeeps p q) : DecGrows p q :=
  ⟨h.errors, h.warnings, h.totalBytes, h.cursor, h.outLen, h.sink⟩

theorem closeDecode_grows {P : Params} {p q : DecPart}
    (h : closeDecode P p = .ok () q ∨ ∃ c, closeDecode P p = .stop (.fatal c) q) : DecGrows p q := by
  have hfl : ∀ (f : FinalHeader), p.dec.outLen ≤
      (if 0 ≤ f.totalSourceSize.toInt then { p.dec with outLen := max p.dec.outLen f.totalSourceSize.toInt.toNat }
        else p.dec).outLen := by
    intro f; split_ifs <;> simp
  unfold closeDecode at h
  split at h
  · rcases h with h | ⟨c, h⟩ <;> cases h; exact (TurnKeeps.refl p).grows
  · rename_i f hf
    dsimp only at h
    have hfl := hfl f
    have e : (if 0 ≤ f.totalSourceSize.toInt then
          { p.dec with outLen := max p.dec.outLen f.totalSourceSize.toInt.toNat }
        else p.dec) =
        { p.dec with
          outLen := if 0 ≤ f.totalSourceSize.toInt then max p.dec.outLen f.totalSourceSize.toInt.toNat
            else p.dec.outLen } := by
      split_ifs <;> rfl
    rw [e] at h hfl
    generalize (if 0 ≤ f.totalSourceSize.toInt then max p.dec.outLen f.totalSourceSize.toInt.toNat else p.dec.outLen) =
        o at h hfl
    split at h
    · rcases h with h | ⟨c, h⟩ <;> cases h
    · rcases h with h | ⟨c, h⟩ <;> cases h
      split_ifs
      · rw [recordEvent_eq]; exact ⟨Nat.le_add_right _ _, Nat.le_add_right _ _, Nat.le_refl _, Nat.le_refl _, hfl, id⟩
      · exact ⟨Nat.le_refl _, Nat.le_refl _, Nat.le_refl _, Nat.le_refl _, hfl, id⟩

theorem dropTail_grows (p : DecPart) : DecGrows p { p with dec := dropTail p.dec } := by
  obtain ⟨ev, e, -⟩ := dropTail_eq p.dec
  rw [e]
  exact ⟨Nat.le_add_right _ _, Nat.le_add_right _ _, Nat.le_refl _, Nat.le_refl _, Nat.le_refl _, id⟩

theorem drainDecode_grows {P : Params} {p q : DecPart}
    (h : drainDecode P p = .ok () q ∨ ∃ c, drainDecode P p = .stop (.fatal c) q) : DecGrows p q := by
  unfold drainDecode at h
  split at h
  · rcases h with h | ⟨c, h⟩ <;> cases h; exact (TurnKeeps.refl p).grows
  · dsimp only at h
    split at h
    · exact (dropTail_grows p).trans (closeDecode_grows h)
    · cases hr : runBatch P { p with dec := dropTail p.dec } with
      | stop e u =>
        obtain ⟨f, rfl⟩ := runBatch_stop hr
        rw [hr] at h
        rcases h with h | ⟨c, h⟩ <;> cases h
      | ok x u =>
        rw [hr] at h
        exact (dropTail_grows p).trans ((runBatch_keeps hr).grows.trans (closeDecode_grows h))

theorem finishDecode_grows {P : Params} {p q : DecPart}
    (h : finishDecode P p = .ok () q ∨ ∃ c, finishDecode P p = .stop (.fatal c) q) : DecGrows p q := by
  unfold finishDecode at h
  cases hr : parseLoop P true p with
  | stop e u =>
    rw [hr] at h
    rcases h with h | ⟨c, h⟩ <;> cases h
    obtain ⟨rfl, -⟩ := parseLoop_fatal hr
    exact (TurnKeeps.refl _).grows
  | ok x u =>
    rw [hr] at h
    exact (parseLoop_turnKeeps hr).grows.trans (drainDecode_grows h)

/-- What a command of DEC that answers leaves of the counters and of SINK, whatever state it starts from. -/
theorem decEnd_grows {r : Run DecStop DecPart Unit} {p : DecPart} {s t : State}
    (hr : ∀ q, (r = .ok () q ∨ ∃ c, r = .stop (.fatal c) q) → DecGrows p q) (h : decEnd r s = .next t) :
    DecGrows p (decPart t) := by
  cases r with
  | ok a q =>
    cases h
    have := hr q (.inl rfl)
    exact ⟨this.errors, this.warnings, this.totalBytes, this.cursor, this.outLen, this.sink⟩
  | stop e q =>
    cases e with
    | fault f => cases h
    | fatal c =>
      cases h
      have := hr q (.inr ⟨c, rfl⟩)
      exact ⟨this.errors, this.warnings, this.totalBytes, this.cursor, this.outLen, this.sink⟩

theorem parseLoop_grows {P : Params} {final : Bool} {p q : DecPart}
    (h : parseLoop P final p = .ok () q ∨ ∃ c, parseLoop P final p = .stop (.fatal c) q) : DecGrows p q := by
  rcases h with h | ⟨c, h⟩
  · exact (parseLoop_turnKeeps h).grows
  · obtain ⟨rfl, -⟩ := parseLoop_fatal h
    exact (TurnKeeps.refl _).grows

theorem decInv_done {d : Dec} {input : Bytes} (h : DecLoop d input) (ev ev' : List SoftEvent) (n o : Nat)
    (ho : d.outLen ≤ o ∧ o ≤ 2 ^ 63 - 1) (hf : d.final.isSome = true) :
    DecInv { (noteEvents ev' 0 { (noteEvents ev n d) with inBuf := [], batch := [] }) with outLen := o, state :=
        .finalized } input where
  fatal_iff_failed := by simp [noteEvents, h.no_fatal]
  idle_is_reset := fun h => by cases h
  await_is_open := fun h => by cases h
  await_short := fun h => by cases h
  streaming_open := fun h => by cases h
  batch_bound := Nat.lt_of_le_of_lt (Nat.zero_le _) h.batch_bound
  batch_sane := fun b hb => by cases hb
  batch_below := fun b hb => by cases hb
  input_from_cursor := fun h => by cases h
  errors_counted := by
    have := h.errors_counted
    simp only [noteEvents, countSeverity_append]; omega
  warnings_counted := by
    have := h.warnings_counted
    simp only [noteEvents, countSeverity_append]; omega
  outLen_bound := ho.2
  finalized_done := fun _ => ⟨hf, rfl, rfl⟩

theorem decInv_reset (input : Bytes) : DecInv Dec.reset input :=
  ⟨by decide, fun _ => rfl, (fun h => by cases h), (fun h => by cases h), (fun h => by cases h), by decide,
      (fun b hb => by cases hb),
      (fun b hb => by cases hb), (fun h => by cases h), by decide, by decide, by decide, (fun h => by cases h)⟩

theorem decInv_open (par : Nat) (pw : Bytes) (hp : 1 ≤ par) : DecInv (openDecode par pw) [] :=
  ⟨by simp [openDecode], (fun h => by cases h), (fun _ => rfl), (fun _ => by simp [openDecode, frameSize]),
      (fun h => by cases h), hp, (fun b hb => by cases hb),
      (fun b hb => by cases hb), (fun _ => ⟨Nat.le_refl _, rfl⟩), rfl, rfl, by simp [openDecode], (fun h => by cases h)⟩

/-- Where a batch entry may come from: it was pending already, or its sane BlockHeader stands in the IN stream at or
after
the cursor. -/
def Origin (P : Params) (input : Bytes) (d0 : Dec) (b : BatchEntry) : Prop :=
  b ∈ d0.batch ∨ (d0.cursor ≤ b.offset ∧ sane b.hdr = true ∧
    parseFrame P (slice input b.offset (b.offset + 4096)) = .block b.hdr)

/-- What a parse loop has done to SINK so far: it has written only in the ranges of such entries, and below outLen. -/
structure WriteFrame (P : Params) (input : Bytes) (p0 p : DecPart) : Prop where
  loop : DecLoop p.dec input
  origin : ∀ b ∈ p.dec.batch, Origin P input p0.dec b
  cursor : p0.dec.cursor ≤ p.dec.cursor
  mem : ∀ a : Nat, ((∀ b, entryCovers b a → ¬ Origin P input p0.dec b) ∨ p.dec.outLen ≤ a) →
    Memory.get p.sink a = Memory.get p0.sink a

theorem not_covers {P : Params} {input : Bytes} {d0 d : Dec} {a o : Nat}
    (ho : ∀ b ∈ d.batch, Origin P input d0 b) (hb : ∀ b ∈ d.batch,
        b.hdr.srcDataPosition.toInt + b.hdr.srcDataLength.toInt ≤ d.outLen)
    (hoa : d.outLen ≤ o) (ha : (∀ b, entryCovers b a → ¬ Origin P input d0 b) ∨ o ≤ a) : ∀ b ∈ d.batch,
        ¬ entryCovers b a := by
  intro b hbm hcov
  rcases ha with ha | ha
  · exact ha b hcov (ho b hbm)
  · have h1 := hb b hbm
    obtain ⟨-, -, h2⟩ := hcov
    omega

theorem parseTurn_writes {P : Params} {input : Bytes} {p0 p q : DecPart} {final more : Bool} (h :
    WriteFrame P input p0 p)
    (hl : frameSize ≤ p.dec.inBuf.length) (ht : parseTurn P final p = .ok more q) : WriteFrame P input p0 q := by
  have hloop := parseTurn_loop h.loop hl ht
  have hkeep := parseTurn_keeps ht
  have hc := parseTurn_cases P final p
  rw [ht] at hc
  generalize hr : (Run.ok more q : Run DecStop DecPart Bool) = r at hc
  have same : q.sink = p.sink → q.dec.batch = p.dec.batch → WriteFrame P input p0 q := by
    intro h1 h2
    refine ⟨hloop, by rw [h2]; exact h.origin, h.cursor.trans hkeep.cursor, fun a ha => ?_⟩
    rw [h1]
    exact h.mem a (ha.imp_right fun h' => hkeep.outLen.trans h')
  have henq : ∀ hd, sane hd = true → parseFrame P (p.dec.inBuf.take frameSize) = .block hd →
      ∀ b ∈ (enqueue hd (raiseOutLen hd p.dec)).batch, Origin P input p0.dec b := by
    intro hd hh hv b hb
    simp only [enqueue, consume, raiseOutLen, List.mem_append, List.mem_singleton] at hb
    rcases hb with hb | rfl
    · exact h.origin b hb
    · right
      refine ⟨h.cursor, hh, ?_⟩
      obtain ⟨-, h2⟩ := h.loop.input_from_cursor
      rw [h2] at hv
      simpa [slice, frameSize] using hv
  cases hc with
  | fatal => cases hr
  | accept => cases hr; exact same rfl rfl
  | frame => cases hr; exact same rfl rfl
  | wait => cases hr; exact same rfl rfl
  | enqueued hd hs hv hh =>
    cases hr
    exact ⟨hloop, henq hd hh hv, h.cursor.trans hkeep.cursor, fun a ha =>
        h.mem a (ha.imp_right fun h' => hkeep.outLen.trans h')⟩
  | ran hd hs hv hh =>
    cases hbb : runBatch P { p with dec := enqueue hd (raiseOutLen hd p.dec) } with
    | stop e u => rw [hbb] at hr; cases hr
    | ok x u =>
      rw [hbb] at hr
      cases hr
      obtain ⟨⟨ev, n, e⟩, -, hg⟩ := runBatch_ok hbb
      refine ⟨hloop, ?_, h.cursor.trans hkeep.cursor, fun a ha => ?_⟩
      · rw [e]; intro b hb; cases hb
      · rw [hg a (not_covers (henq hd hh hv) ?_ (o := q.dec.outLen) ?_ ha)]
        · exact h.mem a (ha.imp_right fun h' => hkeep.outLen.trans h')
        · intro b hb
          simp only [enqueue, consume, raiseOutLen, List.mem_append, List.mem_singleton] at hb ⊢
          rcases hb with hb | rfl
          · have := h.loop.batch_below b hb; omega
          · dsimp only; have := (sane_iff _).mp hh; omega
        · rw [e]; exact Nat.le_refl _

theorem parseLoop_writes {P : Params} {input : Bytes} {p q : DecPart} {final : Bool} (h : DecLoop p.dec input)
    (hr : parseLoop P final p = .ok () q) : WriteFrame P input p q :=
  (parseLoop_keeps (P := P) (final := final) (I := WriteFrame P input p)
    (fun _ _ _ hp hl ht => parseTurn_writes hp hl ht) _ p (Nat.lt_succ_self _)
    ⟨h, fun _ hb => .inl hb, Nat.le_refl _, fun _ _ => rfl⟩).1 q hr
/-- A run with its state changed afterwards. -/
def Run.mapState {ε σ α : Type} (f : σ → σ) : Run ε σ α → Run ε σ α
  | .ok a s => .ok a (f s)
  | .stop e s => .stop e (f s)

theorem recordEvents_feed (cs : List SoftCause) (o : Nat) (d : Dec) (b : Bytes) :
    recordEvents cs o { d with inBuf := d.inBuf ++ b } = { (recordEvents cs o d) with inBuf :=
        (recordEvents cs o d).inBuf ++ b } := by
  simp only [recordEvents_eq, noteEvents]

theorem writeAll_feed (b : Bytes) : ∀ (cs : List (BatchEntry × (Option Bytes × List SoftCause))) (p : DecPart),
    writeAll cs (feedPart b p) = (writeAll cs p).mapState (feedPart b) := by
  intro cs
  induction cs with
  | nil => intro p; rfl
  | cons c cs ih =>
    intro p
    have : writeChunk c.1 c.2 (feedPart b p) = (writeChunk c.1 c.2 p).mapState (feedPart b) := by
      unfold writeChunk
      simp only [feedPart, recordEvents_feed]
      split
      · rfl
      · split <;> rfl
    rw [writeAll, writeAll, this]
    cases writeChunk c.1 c.2 p with
    | stop e u => rfl
    | ok x u => exact ih u

theorem runBatch_feed (P : Params) (b : Bytes) (p : DecPart) :
    runBatch P (feedPart b p) = (runBatch P p).mapState (feedPart b) := by
  unfold runBatch
  have : ((feedPart b p).dec.batch.map fun e => (e, decodeEntry P (feedPart b p).dec e)) = p.dec.batch.map fun e =>
      (e, decodeEntry P p.dec e) := rfl
  rw [this, writeAll_feed]
  cases writeAll (p.dec.batch.map fun e => (e, decodeEntry P p.dec e)) p <;> rfl

theorem drop_feed {a b : Bytes} {n : Nat} (h : n ≤ a.length) : (a ++ b).drop n = a.drop n ++ b :=
    List.drop_append_of_le_length h

theorem consume_feed {n : Nat} {d : Dec} {b : Bytes} (h : n ≤ d.inBuf.length) :
    consume n { d with inBuf := d.inBuf ++ b } = { (consume n d) with inBuf := (consume n d).inBuf ++ b } := by
  simp only [consume, drop_feed h]
theorem skipFrame_feed {c : SoftCause} {d : Dec} {b : Bytes} (h : frameSize ≤ d.inBuf.length) :
    skipFrame c { d with inBuf := d.inBuf ++ b } = { (skipFrame c d) with inBuf := (skipFrame c d).inBuf ++ b } := by
  simp only [skipFrame, recordEvent_eq, noteEvents, consume, drop_feed h]

/-- A turn that goes on does the same with more input behind it. -/
theorem parseTurn_feed {P : Params} {p : DecPart} (b : Bytes) (hl : frameSize ≤ p.dec.inBuf.length)
    (h : ∀ q, parseTurn P false p ≠ .ok false q) :
    parseTurn P false (feedPart b p) = (parseTurn P false p).mapState (feedPart b) := by
  have htake : (feedPart b p).dec.inBuf.take frameSize = p.dec.inBuf.take frameSize := by
    show (p.dec.inBuf ++ b).take frameSize = _
    rw [List.take_append_of_le_length hl]
  unfold parseTurn at h ⊢
  dsimp only at h ⊢
  rw [htake]
  by_cases hs : p.dec.state = .awaitFirst
  · rw [if_pos hs, if_pos (show (feedPart b p).dec.state = _ from hs)]
    cases hv : parseFrame P (p.dec.inBuf.take frameSize) with
    | first f =>
      simp only [acceptFirst, feedPart]
      split
      · rename_i h1
        split at h1
        · rename_i h2; rw [if_pos h2]; cases h1; rfl
        · rename_i h2
          rw [if_neg h2]
          cases hu : unwrapKey P f p.dec.password with
          | error c => rw [hu] at h1; cases h1; rfl
          | ok k => rw [hu] at h1; cases h1
      · rename_i h1
        split at h1
        · cases h1
        · rename_i h2
          rw [if_neg h2]
          cases hu : unwrapKey P f p.dec.password with
          | error c => rw [hu] at h1; cases h1
          | ok k =>
            rw [hu] at h1; cases h1
            simp only [Run.mapState, feedPart, consume, drop_feed hl]
    | _ => rfl
  · rw [if_neg hs] at h ⊢
    rw [if_neg (show ¬ (feedPart b p).dec.state = _ from hs)]
    cases hv : parseFrame P (p.dec.inBuf.take frameSize) with
    | unrecognized => simp only [parseStreaming, feedPart, skipFrame_feed hl, Run.mapState]
    | invalid => simp only [parseStreaming, feedPart, skipFrame_feed hl, Run.mapState]
    | first _ => simp only [parseStreaming, feedPart, consume_feed hl, Run.mapState]
    | final _ => simp only [parseStreaming, feedPart, consume, drop_feed hl, Run.mapState]
    | block hd =>
      rw [hv] at h
      simp only [parseStreaming] at h ⊢
      unfold parseBlock at h ⊢
      by_cases hh : sane hd = true
      · have hns : ¬ ¬ sane hd = true := not_not.mpr hh
        rw [if_neg hns] at h
        rw [if_neg hns, if_neg hns]
        dsimp only at h ⊢
        by_cases hlen : (raiseOutLen hd p.dec).inBuf.length < frameSize + hd.destDataSize.toInt.toNat
        · rw [if_pos hlen, if_pos (by simp)] at h
          exact absurd rfl (h _)
        · have hlen' : frameSize + hd.destDataSize.toInt.toNat ≤ p.dec.inBuf.length := not_lt.mp hlen
          rw [if_neg (show ¬ (raiseOutLen hd (feedPart b p).dec).inBuf.length < frameSize + hd.destDataSize.toInt.toNat by
            simp only [raiseOutLen, feedPart, List.length_append]; omega), if_neg hlen]
          have e : (⟨enqueue hd (raiseOutLen hd (feedPart b p).dec), (feedPart b p).sink⟩ : DecPart) =
              feedPart b ⟨enqueue hd (raiseOutLen hd p.dec), p.sink⟩ := by
            have hsl : slice (p.dec.inBuf ++ b) frameSize (frameSize + hd.destDataSize.toInt.toNat) =
                slice p.dec.inBuf frameSize (frameSize + hd.destDataSize.toInt.toNat) := by
              unfold slice
              rw [drop_feed hl, List.take_append_of_le_length (by rw [List.length_drop]; omega)]
            simp only [feedPart, enqueue, raiseOutLen, consume, drop_feed hlen', hsl]
          have hb : ((enqueue hd (raiseOutLen hd (feedPart b p).dec)).batch.length =
              (enqueue hd (raiseOutLen hd (feedPart b p).dec)).par) =
              ((enqueue hd (raiseOutLen hd p.dec)).batch.length = (enqueue hd (raiseOutLen hd p.dec)).par) :=
            congrArg (fun u : DecPart => u.dec.batch.length = u.dec.par) e
          by_cases hfull : (enqueue hd (raiseOutLen hd p.dec)).batch.length = (enqueue hd (raiseOutLen hd p.dec)).par
          · rw [if_pos (hb.symm ▸ hfull), if_pos hfull, e, runBatch_feed]
            cases runBatch P ⟨enqueue hd (raiseOutLen hd p.dec), p.sink⟩ <;> rfl
          · rw [if_neg (fun h => hfull (hb ▸ h)), if_neg hfull, e]; rfl
      · rw [if_pos (by simpa using hh), if_pos (by simpa using hh)]
        simp only [feedPart, skipFrame_feed hl, Run.mapState]

/-- A turn that waits leaves the output length raised, and with more input behind it does the same from there. -/
theorem parseTurn_wait {P : Params} {p q : DecPart} (b : Bytes) (hl : frameSize ≤ p.dec.inBuf.length) (h :
    parseTurn P false p = .ok false q) :
    parseTurn P false (feedPart b p) = parseTurn P false (feedPart b q) ∧ q.dec.inBuf = p.dec.inBuf := by
  have hc := parseTurn_cases P false p
  rw [h] at hc
  generalize hr : (Run.ok false q : Run DecStop DecPart Bool) = r at hc
  cases hc with
  | fatal => cases hr
  | accept => cases hr
  | frame => cases hr
  | enqueued => cases hr
  | ran hd =>
    cases hbb : runBatch P { p with dec := enqueue hd (raiseOutLen hd p.dec) } <;> rw [hbb] at hr <;> cases hr
  | wait hd hs _ hv hh =>
    cases hr
    refine ⟨?_, rfl⟩
    have htake : (p.dec.inBuf ++ b).take frameSize = p.dec.inBuf.take frameSize := List.take_append_of_le_length hl
    have e : ∀ u : DecPart, u.dec.inBuf = p.dec.inBuf → u.dec.state ≠ .awaitFirst → parseTurn P false (feedPart b u) =
        parseBlock P false hd (feedPart b u) := by
      intro u hu hs
      unfold parseTurn
      dsimp only
      rw [if_neg (show ¬ (feedPart b u).dec.state = .awaitFirst from hs),
        show (feedPart b u).dec.inBuf = p.dec.inBuf ++ b by rw [← hu]; rfl, htake, hv]
      rfl
    rw [e p rfl hs, e ⟨raiseOutLen hd p.dec, p.sink⟩ rfl hs]
    unfold parseBlock
    have hns : ¬ ¬ sane hd = true := not_not.mpr hh
    rw [if_neg hns, if_neg hns]
    have : raiseOutLen hd (feedPart b ⟨raiseOutLen hd p.dec, p.sink⟩).dec = raiseOutLen hd (feedPart b p).dec := by
      simp [raiseOutLen, feedPart]
    rw [this]; rfl

/-- A parse loop that stops, stops the same way with more input behind it. -/
theorem parseLoop_feed_stop {P : Params} (b : Bytes) {e : DecStop} : ∀ (n : Nat) (p q : DecPart),
    p.dec.inBuf.length < n →
    parseLoop P false p = .stop e q → parseLoop P false (feedPart b p) = .stop e (feedPart b q) := by
  intro n
  induction n with
  | zero => intro p q h; omega
  | succ n ih =>
    intro p q hn h
    rw [parseLoop_eq] at h
    split_ifs at h with hl
    have hl' : frameSize ≤ p.dec.inBuf.length := not_lt.mp hl
    have hlf : ¬ (feedPart b p).dec.inBuf.length < frameSize := by
      simp only [feedPart, List.length_append]; omega
    cases ht : parseTurn P false p with
    | stop e' u =>
      rw [ht] at h
      cases h
      rw [parseLoop_eq, if_neg hlf, parseTurn_feed b hl' (by rw [ht]; intro q hq; cases hq), ht]; rfl
    | ok more u =>
      rw [ht] at h
      simp only [Run.bind] at h
      cases more with
      | false => cases h
      | true =>
        have h1 := parseTurn_progress hl' ht
        simp only [frameSize] at h1
        rw [parseLoop_eq, if_neg hlf, parseTurn_feed b hl' (by rw [ht]; intro q hq; cases hq), ht]
        exact ih u q (by omega) h

/-- A turn of the parse loop in STREAMING is by the verdict of the frame (R304). -/
theorem parseTurn_streaming (P : Params) (final : Bool) (p : DecPart) (hs : p.dec.state = .streaming) :
    parseTurn P final p = parseStreaming P final (parseFrame P (p.dec.inBuf.take 4096)) p := by
  unfold parseTurn; dsimp only; rw [if_neg (by rw [hs]; simp)]; rfl

/-- DEC.FEED in AWAIT_FIRST or STREAMING is the parse loop over the fed bytes (R303). -/
theorem decFeed_run {s : State} (hr : decRunning s.dec = true) :
    exec .decFeed s = decEnd (parseLoop Config.params false (feedPart s.ops.data (decPart s))) (takeInput s.ops.data s) := by
  show decFeed _ s = _
  unfold decFeed
  rw [if_neg (by simpa using hr)]; rfl

/-- DEC.FINAL in AWAIT_FIRST or STREAMING is its procedure (R330). -/
theorem decFinal_run {s : State} (hr : decRunning s.dec = true) :
    exec .decFinal s = decEnd (finishDecode Config.params (decPart s)) s := by
  show decFinal _ s = _
  have h : s.dec.state ≠ .finalized := by intro h; simp [decRunning, h] at hr
  unfold decFinal
  rw [if_neg h, if_neg (by simpa using hr)]

/-- The soft events of decoded chunks, in order, each charged to its chunk's frame (R315, R414). -/
def chunkEvents (cs : List (BatchEntry × (Option Bytes × List SoftCause))) : List SoftEvent :=
  cs.flatMap fun c => c.2.2.map fun e => ⟨e, c.1.offset⟩

/-- How many bytes decoded chunks give to write (R319). -/
def chunkBytes (cs : List (BatchEntry × (Option Bytes × List SoftCause))) : Nat :=
  (cs.map fun c => (c.2.1.getD []).length).sum

/-- What writing out one chunk makes of DEC: its events and its bytes are counted (R315). -/
theorem writeChunk_dec {b : BatchEntry} {r : Option Bytes × List SoftCause} {p q : DecPart}
    (h : writeChunk b r p = .ok () q) :
    q.dec = noteEvents (r.2.map fun e => ⟨e, b.offset⟩) (r.1.getD []).length p.dec := by
  unfold writeChunk at h
  rw [recordEvents_eq] at h
  dsimp only at h
  split at h
  · rename_i h1; cases h; simp [h1]
  · rename_i v h1
    split at h
    · cases h
    · cases h; simp [h1, noteEvents]

/-- What writing out the chunks of a batch makes of DEC. -/
theorem writeAll_dec : ∀ {cs : List (BatchEntry × (Option Bytes × List SoftCause))} {p q : DecPart},
    writeAll cs p = .ok () q → q.dec = noteEvents (chunkEvents cs) (chunkBytes cs) p.dec := by
  intro cs
  induction cs with
  | nil => intro p q h; cases h; exact (noteEvents_nil _).symm
  | cons c cs ih =>
    intro p q h
    rw [writeAll] at h
    cases hc : writeChunk c.1 c.2 p with
    | stop e u => rw [hc] at h; cases h
    | ok x u =>
      rw [hc] at h
      rw [ih h, writeChunk_dec hc, noteEvents_noteEvents]
      simp [chunkEvents, chunkBytes]

/-- A byte of a written chunk that no later chunk covers reads as decoded (R317, R121). -/
theorem writeAll_get : ∀ {cs before after : List (BatchEntry × (Option Bytes × List SoftCause))} {p q : DecPart}
    {c : BatchEntry × (Option Bytes × List SoftCause)} {v : Bytes} {i : Nat} {x : Byte},
    writeAll cs p = .ok () q → Memory.wf p.sink = true → cs = before ++ c :: after → c.2.1 = some v → v[i]? = some x →
    (∀ c' ∈ after, ∀ v', c'.2.1 = some v' →
      ((c.1.hdr.srcDataPosition.toInt.toNat + i : Nat) : Int) < c'.1.hdr.srcDataPosition.toInt ∨
        c'.1.hdr.srcDataPosition.toInt + v'.length ≤ (c.1.hdr.srcDataPosition.toInt.toNat + i : Nat)) →
    Memory.get q.sink (c.1.hdr.srcDataPosition.toInt.toNat + i) = x := by
  intro cs before
  induction before generalizing cs with
  | nil =>
    intro after p q c v i x h hw hcs hv hx ha
    subst hcs
    rw [List.nil_append, writeAll] at h
    cases hc : writeChunk c.1 c.2 p with
    | stop e u => rw [hc] at h; cases h
    | ok y u =>
      rw [hc] at h
      rw [(writeAll_ok h).2.2 _ ha]
      obtain ⟨_, _, -, hs⟩ := writeChunk_ok hc
      rcases hs with ⟨hn, -⟩ | ⟨v', hv', hs⟩
      · rw [hn] at hv; cases hv
      · rw [hv] at hv'; cases hv'
        obtain ⟨hi, rfl⟩ := List.getElem?_eq_some_iff.mp hx
        rcases sinkWrite_eq_some hs with ⟨rfl, -⟩ | ⟨-, -, e⟩
        · simp at hi
        · rw [e]; exact memory_get_writeBytes_inside _ _ _ _ hi hw
  | cons b before ih =>
    intro after p q c v i x h hw hcs hv hx ha
    subst hcs
    rw [List.cons_append, writeAll] at h
    cases hc : writeChunk b.1 b.2 p with
    | stop e u => rw [hc] at h; cases h
    | ok y u =>
      rw [hc] at h
      refine ih h ?_ rfl hv hx ha
      obtain ⟨_, _, -, hs⟩ := writeChunk_ok hc
      rcases hs with ⟨-, hs⟩ | ⟨v', -, hs⟩
      · rw [hs]; exact hw
      · rcases sinkWrite_eq_some hs with ⟨-, e⟩ | ⟨-, -, e⟩ <;> rw [e]
        · exact hw
        · exact memory_writeBytes_wf _ _ _ hw

end Sys2Proof.Machine
end

