-- ==== Sys2Proof/Laws/Frame.lean ====
section
/-! SUPPORT. Slices of byte strings, SerFrame and ParseFrame (spec/42_frame_codec.md, spec/30_encoding.md R161). -/

namespace Sys2Proof.Machine

theorem slice_append (a b c : Bytes) (lo hi : Nat) (hlo : lo = a.length) (hhi : hi = a.length + b.length) :
    slice (a ++ b ++ c) lo hi = b := by
  subst hlo hhi
  simp [slice]

theorem slice_length (b : Bytes) (lo hi : Nat) (h : hi ≤ b.length) : (slice b lo hi).length = hi - lo := by
  simp [slice]; omega

theorem slice_getElem? (b : Bytes) (lo hi i : Nat) :
    (slice b lo hi)[i]? = if lo + i < hi then b[lo + i]? else none := by
  simp only [slice, List.getElem?_take, List.getElem?_drop]
  split_ifs <;> first | rfl | omega

theorem slice_append_left (a b : Bytes) (lo hi : Nat) (h : hi ≤ a.length) : slice (a ++ b) lo hi = slice a lo hi := by
  apply List.ext_getElem?
  intro i
  rw [slice_getElem?, slice_getElem?]
  split_ifs with hi'
  · rw [List.getElem?_append_left (by omega)]
  · rfl

theorem slice_set_outside (b : Bytes) (lo hi i : Nat) (x : Byte) (h : i < lo ∨ hi ≤ i) :
    slice (b.set i x) lo hi = slice b lo hi := by
  apply List.ext_getElem?
  intro j
  rw [slice_getElem?, slice_getElem?]
  split_ifs with hj
  · rw [List.getElem?_set_ne (by omega)]
  · rfl

/-- SerFrame, as the parts of the frame (R220). -/
theorem serFrame_eq_some {P : Params} {k : Kind} {h : k.Record} {f : Bytes} (hf : serFrame P k h = some f) :
    (P.bodySer k h).length ≤ maxBody P ∧
      f = P.sig k ++ crlf ++ P.bodySer k h ++ crlf ++ crlf ++ zeros (maxBody P - (P.bodySer k h).length) ++ crlf := by
  unfold serFrame at hf
  dsimp only at hf
  split_ifs at hf with hl
  cases hf
  exact ⟨by omega, rfl⟩

theorem serFrame_eq_none {P : Params} {k : Kind} {h : k.Record} :
    serFrame P k h = none ↔ maxBody P < (P.bodySer k h).length := by
  unfold serFrame; dsimp only; split_ifs <;> simp_all

theorem serFrame_length {P : Params} (hP : P.Lawful) {k : Kind} {h : k.Record} {f : Bytes}
    (hf : serFrame P k h = some f) : f.length = frameSize := by
  obtain ⟨hl, rfl⟩ := serFrame_eq_some hf
  have h1 := hP.sig_length k
  have h2 := hP.sig_short
  simp only [maxBody] at hl ⊢
  simp [crlf, zeros, h1, frameSize]
  omega

theorem signatureKind_eq_some {P : Params} {f : Bytes} {k : Kind} (h : signatureKind P f = some k) :
    slice f 0 P.sigLen = P.sig k := by
  have := List.find?_some h
  simpa using this

theorem signatureKind_of_slice {P : Params} (hP : P.Lawful) {f : Bytes} {k : Kind} (h : slice f 0 P.sigLen = P.sig k) :
    signatureKind P f = some k := by
  cases hs : signatureKind P f with
  | none =>
    have := List.find?_eq_none.mp hs k (by cases k <;> simp)
    simp [h] at this
  | some k' =>
    have := signatureKind_eq_some hs
    rw [h] at this
    rw [hP.sig_distinct k k' this]

/-- The first CR at or after `lo`. -/
theorem firstCr_eq_some {f : Bytes} {lo j : Nat} (hlo : lo ≤ j) (hj : j < 4094) (h : f[j]? = some 0x0D)
    (hn : ∀ i, lo ≤ i → i < j → f[i]? ≠ some 0x0D) (hf : 4094 ≤ f.length) : firstCr f lo = some j := by
  unfold firstCr
  have : (slice f lo 4094).findIdx? (fun x => x == 0x0D) = some (j - lo) := by
    rw [List.findIdx?_eq_some_iff_getElem]
    have hl := slice_length f lo 4094 hf
    have hg : ∀ i (hi : i < (slice f lo 4094).length), (slice f lo 4094)[i] = f[lo + i]'(by omega) := by
      intro i hi
      have h1 := slice_getElem? f lo 4094 i
      rw [if_pos (by omega), List.getElem?_eq_getElem hi, List.getElem?_eq_getElem (by omega)] at h1
      exact Option.some.inj h1
    refine ⟨by omega, ?_, ?_⟩
    · rw [hg]
      simp only [beq_iff_eq]
      rw [List.getElem?_eq_getElem (by omega)] at h
      have e : lo + (j - lo) = j := by omega
      simp only [e]; exact Option.some.inj h
    · intro i hi
      rw [hg]
      have := hn (lo + i) (by omega) (by omega)
      rw [List.getElem?_eq_getElem (by omega)] at this
      simpa using this
  rw [this]
  simp; omega

theorem parts_of_frame {P : Params} (hP : P.Lawful) {k : Kind} {h : k.Record} {f : Bytes} (hf : serFrame P k h =
    some f) :
      slice f 0 P.sigLen = P.sig k ∧
      slice f P.sigLen (P.sigLen + 2) = crlf ∧
      slice f (P.sigLen + 2) (P.sigLen + 2 + (P.bodySer k h).length) = P.bodySer k h ∧
      slice f (P.sigLen + 2 + (P.bodySer k h).length) (P.sigLen + 6 + (P.bodySer k h).length) = crlf ++ crlf ∧
      slice f (P.sigLen + 6 + (P.bodySer k h).length) 4094 = zeros (maxBody P - (P.bodySer k h).length) ∧
      slice f 4094 4096 = crlf := by
  obtain ⟨hl, rfl⟩ := serFrame_eq_some hf
  have h1 := hP.sig_length k
  have h2 := hP.sig_short
  simp only [maxBody] at hl ⊢
  have hc : crlf.length = 2 := rfl
  generalize P.bodySer k h = b at *
  refine ⟨?_, ?_, ?_, ?_, ?_, ?_⟩
  · have := slice_append [] (P.sig k) (crlf ++ b ++ crlf ++ crlf ++ zeros (4088 - P.sigLen - b.length) ++
        crlf) 0 P.sigLen rfl (by simp [h1])
    simpa using this
  · have := slice_append (P.sig k) crlf (b ++ crlf ++ crlf ++ zeros (4088 - P.sigLen - b.length) ++
        crlf) P.sigLen (P.sigLen + 2) h1.symm (by simp [h1, hc])
    simpa using this
  · have := slice_append (P.sig k ++ crlf) b (crlf ++ crlf ++ zeros (4088 - P.sigLen - b.length) ++
        crlf) (P.sigLen + 2) (P.sigLen + 2 + b.length) (by simp [h1, hc]) (by simp [h1, hc])
    simpa using this
  · have := slice_append (P.sig k ++ crlf ++ b) (crlf ++ crlf) (zeros (4088 - P.sigLen - b.length) ++
        crlf) (P.sigLen + 2 + b.length) (P.sigLen + 6 + b.length) (by simp [h1, hc]; omega) (by simp [h1, hc]; omega)
    simpa using this
  · have := slice_append (P.sig k ++ crlf ++ b ++ crlf ++
        crlf) (zeros (4088 - P.sigLen - b.length)) crlf (P.sigLen + 6 + b.length) 4094
        (by simp [h1, hc]; omega) (by simp [h1, hc, zeros]; omega)
    simpa using this
  · have := slice_append (P.sig k ++ crlf ++ b ++ crlf ++ crlf ++
        zeros (4088 - P.sigLen - b.length)) crlf [] 4094 4096
        (by simp [h1, hc, zeros]; omega) (by simp [h1, hc, zeros]; omega)
    simpa using this

/-- What a frame that ParseFrame accepts looks like (R222). -/
theorem parseFrame_valid {P : Params} {f : Bytes} (h0 : parseFrame P f ≠ .unrecognized)
    (h1 : parseFrame P f ≠ .invalid) :
    ∃ k j h, signatureKind P f = some k ∧ slice f P.sigLen (P.sigLen + 2) = crlf ∧ slice f 4094 4096 = crlf ∧
      firstCr f (P.sigLen + 2) = some j ∧ j + 4 ≤ 4094 ∧ slice f j (j + 4) = crlf ++ crlf ∧
      allZero (slice f (j + 4) 4094) = true ∧ P.bodyParse k (slice f (P.sigLen + 2) j) = some h ∧
      parseFrame P f = verdictOf k h := by
  unfold parseFrame at h0 h1 ⊢
  cases hk : signatureKind P f with
  | none => simp [hk] at h0
  | some k =>
    simp only [hk] at h0 h1 ⊢
    split_ifs at h1 ⊢ with a b
    · simp at h1
    · simp at h1
    · cases hj : firstCr f (P.sigLen + 2) with
      | none => simp [hj] at h1
      | some j =>
        simp only [hj] at h1 ⊢
        split_ifs at h1 ⊢ with c d e
        · simp at h1
        · simp at h1
        · cases hb : P.bodyParse k (slice f (P.sigLen + 2) j) with
          | none => simp [hb] at h1
          | some h =>
            exact ⟨k, j, h, rfl, by simpa using a, by simpa using b, rfl, by omega, by simpa using d, by simpa using e,
                hb, rfl⟩
        · simp at h1

theorem parseFrame_of_parts {P : Params} {f : Bytes} {k : Kind} {j : Nat} {h : k.Record} (hk : signatureKind P f =
    some k)
    (a : slice f P.sigLen (P.sigLen + 2) = crlf) (b : slice f 4094 4096 = crlf) (hj : firstCr f (P.sigLen + 2) = some j)
    (c : j + 4 ≤ 4094) (d : slice f j (j + 4) = crlf ++ crlf) (e : allZero (slice f (j + 4) 4094) = true)
    (hb : P.bodyParse k (slice f (P.sigLen + 2) j) = some h) : parseFrame P f = verdictOf k h := by
  unfold parseFrame
  simp only [hk, hj]
  rw [if_neg (by simpa using a), if_neg (by simpa using b), if_neg (by omega), if_neg (by simpa using d),
      if_neg (by simpa using e), hb]

theorem slice_byte {f v : Bytes} {lo hi : Nat} (h : slice f lo hi = v) (i : Nat) (hi' : lo + i < hi) : f[lo + i]? =
    v[i]? := by
  rw [← h, slice_getElem?, if_pos hi']

theorem allZero_zeros (n : Nat) : allZero (zeros n) = true := by simp [allZero, zeros]

theorem allZero_iff (b : Bytes) : allZero b = true ↔ ∀ x ∈ b, x = 0 := by simp [allZero]

/-- The first CR after the signature line is the one that ends the body. -/
theorem firstCr_frame {P : Params} (hP : P.Lawful) {k : Kind} {h : k.Record} {f : Bytes} (hf : serFrame P k h =
    some f) :
    firstCr f (P.sigLen + 2) = some (P.sigLen + 2 + (P.bodySer k h).length) := by
  obtain ⟨hl, -⟩ := serFrame_eq_some hf
  have hlen := serFrame_length hP hf
  obtain ⟨-, -, h3, h4, -, -⟩ := parts_of_frame hP hf
  have hs := hP.sig_short
  simp only [maxBody, frameSize] at hl hlen
  apply firstCr_eq_some (by omega) (by omega)
  · exact slice_byte h4 0 (by omega)
  · intro i h1 h2 hc
    have := slice_byte h3 (i - (P.sigLen + 2)) (by omega)
    rw [show P.sigLen + 2 + (i - (P.sigLen + 2)) = i by omega, hc] at this
    exact hP.body_no_cr k h (List.mem_of_getElem? this.symm)
  · omega

theorem set_byte (f : Bytes) (i : Nat) (x : Byte) (hi : i < f.length) : (f.set i x)[i]? = some x := by
  simp [hi]

/-- A signature is not empty: three distinct ones have a common length (R14). -/
theorem sigLen_pos {P : Params} (hP : P.Lawful) : 0 < P.sigLen := by
  by_contra h
  have a := hP.sig_length .first
  have b := hP.sig_length .block
  rw [show P.sigLen = 0 by omega, List.length_eq_zero_iff] at a b
  have := hP.sig_distinct _ _ (a.trans b.symm)
  cases this

end Sys2Proof.Machine
end

