-- ==== Sys2Proof/Laws/Encoder.lean ====
section
/-! SUPPORT. The encode procedures (spec/43_encoder.md): what each of them does, said once. -/

namespace Sys2Proof.Machine

/-! acceptBytes -/
theorem acceptBytes_cons (P : Params) (x : Byte) (xs : Bytes) (p : EncPart) :
    acceptBytes P (x :: xs) p =
      if p.enc.inBuf.length + 1 = p.enc.cfg.par * P.chunkSize then
        (flush P (bufferByte x p)).bind fun _ q => acceptBytes P xs q
      else acceptBytes P xs (bufferByte x p) := by
  rw [acceptBytes]
  simp [bufferByte]

/-- Bytes that do not fill the batch are only buffered (R256). -/
theorem acceptBytes_short (P : Params) : ∀ (d : Bytes) (p : EncPart),
    p.enc.inBuf.length + d.length < p.enc.cfg.par * P.chunkSize →
    acceptBytes P d p = .ok () { p with enc := { p.enc with inBuf := p.enc.inBuf ++ d, srcLog := p.enc.srcLog ++
        d } } := by
  intro d
  induction d with
  | nil => intro p _; simp [acceptBytes]
  | cons x d ih =>
    intro p h
    simp only [List.length_cons] at h
    rw [acceptBytes_cons, if_neg (by omega), ih]
    · simp [bufferByte]
    · simp [bufferByte]; omega

theorem Run.bind_assoc {ε σ α β γ : Type} (r : Run ε σ α) (f : α → σ → Run ε σ β) (g : β → σ → Run ε σ γ) :
    (r.bind f).bind g = r.bind fun a s => (f a s).bind g := by
  cases r <;> rfl

theorem ceilDiv_spec (n m : Nat) (hm : 0 < m) : (∀ i, i < ceilDiv n m ↔ i * m < n) := by
  intro i
  unfold ceilDiv
  rw [Nat.lt_div_iff_mul_lt hm]
  omega

theorem roundup_spec (n m : Nat) (hm : 0 < m) : n ≤ roundup n m ∧ roundup n m < n + m ∧ roundup n m % m = 0 := by
  unfold roundup
  have h1 := Nat.div_add_mod (n + m - 1) m
  have h2 := Nat.mod_lt (n + m - 1) hm
  have h3 : (n + m - 1) / m * m = m * ((n + m - 1) / m) := Nat.mul_comm _ _
  refine ⟨by omega, by omega, Nat.mul_mod_left _ _⟩

theorem slice_len (b : Bytes) (lo hi : Nat) : (slice b lo hi).length = min hi b.length - lo := by
  simp [slice]; omega

theorem slices_length (P : Params) (b : Bytes) : (slices P b).length = ceilDiv b.length P.chunkSize := by simp [slices]

theorem slices_flatten_take (P : Params) (b : Bytes) (n : Nat) :
    ((List.range n).map fun i => slice b (i * P.chunkSize) ((i + 1) * P.chunkSize)).flatten =
        b.take (n * P.chunkSize) := by
  induction n with
  | zero => simp
  | succ n ih =>
    rw [List.range_succ, List.map_append, List.flatten_append, ih]
    simp only [List.map_cons, List.map_nil, List.flatten_cons, List.flatten_nil, List.append_nil, slice]
    have : (n + 1) * P.chunkSize - n * P.chunkSize = P.chunkSize := by rw [Nat.add_mul, Nat.one_mul]; omega
    rw [this, Nat.add_mul, Nat.one_mul, List.take_add]

theorem toI64_toInt (P : Params) (v : I64) : toI64 P v.toInt = v := by
  have h1 := BitVec.le_toInt (x := v)
  have h2 := BitVec.toInt_lt (x := v)
  unfold toI64
  rw [if_pos ⟨by simpa using h1, by simpa using h2⟩]
  simp

theorem toInt_toI64 (P : Params) (n : Int) (h1 : -2 ^ 63 ≤ n) (h2 : n < 2 ^ 63) : (toI64 P n).toInt = n := by
  unfold toI64
  rw [if_pos ⟨h1, h2⟩, BitVec.toInt_ofInt]
  apply Int.bmod_eq_of_le <;> omega

theorem toInt_toI64_nat (P : Params) (n : Nat) (h : n < 2 ^ 63) : (toI64 P n).toInt = n :=
  toInt_toI64 P n (by omega) (by exact_mod_cast h)

/-- What Transform gives, all-zero chunks (R266 step b). -/
theorem transform_zero (P : Params) (cfg : EncCfg) (key : Option Key) (s : Bytes) (pos idx : Int) (r : Nat) (hz :
    allZero s = true) :
    transform P cfg key s pos idx r = (some (⟨toI64 P idx, 0, 0, toI64 P pos, toI64 P s.length, P.sha1 s, P.sha1 [],
        true, false, 0⟩, []), r) := by
  unfold transform; dsimp only; rw [if_pos hz]

/-- All Transform gives for the other chunks, its pad and its draws included (R266 steps c to f). -/
theorem transform_draws {P : Params} {cfg : EncCfg} {key : Option Key} {s : Bytes} {pos idx : Int} {r r' : Nat}
    {h : BlockHeader} {d : Bytes} (hz : allZero s = false) (ht : transform P cfg key s pos idx r = (some (h, d), r')) :
    ∃ c pad, (if cfg.compress then P.compress (P.compLevels cfg.level) s else some s) = some c ∧
      pad.length = roundup c.length padAlign - c.length ∧
      (if cfg.encrypt then key.bind fun k => tcEncrypt P k (toI64 P pos) (c ++ pad) else some (c ++ pad)) = some d ∧
      h = ⟨toI64 P idx, toI64 P d.length, toI64 P c.length, toI64 P pos, toI64 P s.length, P.sha1 s, P.sha1 d,
        false, false, 0⟩ ∧
      pad = (if cfg.encrypt then randBytes P r pad.length else zeros pad.length) ∧
      r' = if cfg.encrypt then r + pad.length else r := by
  unfold transform at ht; dsimp only at ht; rw [if_neg (by simp [hz])] at ht
  cases hc : (if cfg.compress then P.compress (P.compLevels cfg.level) s else some s) with
  | none => rw [hc] at ht; simp at ht
  | some c =>
    rw [hc] at ht; dsimp only at ht
    split at ht
    · simp at ht
    · rename_i d' hd
      injection ht with h1 h2
      injection h1 with h1
      injection h1 with h1 h3
      subst h3
      have hl : (if cfg.encrypt then randBytes P r (roundup c.length padAlign - c.length)
          else zeros (roundup c.length padAlign - c.length)).length = roundup c.length padAlign - c.length := by
        split_ifs
        · exact randBytes_length _ _ _
        · simp [zeros]
      refine ⟨c, _, rfl, hl, hd, h1.symm, by rw [hl], by rw [hl]; exact h2.symm⟩

/-- What Transform gives, the other chunks (R266 steps c to f). -/
theorem transform_data {P : Params} {cfg : EncCfg} {key : Option Key} {s : Bytes} {pos idx : Int} {r r' : Nat}
    {h : BlockHeader} {d : Bytes} (hz : allZero s = false) (ht : transform P cfg key s pos idx r = (some (h, d), r')) :
    ∃ c pad, (if cfg.compress then P.compress (P.compLevels cfg.level) s else some s) = some c ∧
      pad.length = roundup c.length padAlign - c.length ∧
      (if cfg.encrypt then key.bind fun k => tcEncrypt P k (toI64 P pos) (c ++ pad) else some (c ++ pad)) = some d ∧
      h = ⟨toI64 P idx, toI64 P d.length, toI64 P c.length, toI64 P pos, toI64 P s.length, P.sha1 s, P.sha1 d,
        false, false, 0⟩ :=
  have ⟨c, pad, h1, h2, h3, h4, _⟩ := transform_draws hz ht
  ⟨c, pad, h1, h2, h3, h4⟩

/-- The payload of a chunk has a multiple of 4096 bytes (R267). -/
theorem transform_data_length {P : Params} (hP : P.Lawful) {cfg : EncCfg} {key : Option Key} {c pad d : Bytes} {pos :
    I64}
    (hpad : pad.length = roundup c.length padAlign - c.length)
    (hd : (if cfg.encrypt then key.bind fun k => tcEncrypt P k pos (c ++ pad) else some (c ++ pad)) = some d) :
    d.length = roundup c.length padAlign := by
  have hr := roundup_spec c.length padAlign (by decide)
  have hl : (c ++ pad).length = roundup c.length padAlign := by simp [hpad]; omega
  split_ifs at hd
  · cases key with
    | none => simp at hd
    | some k =>
      simp only [Option.bind_some, tcEncrypt] at hd
      split_ifs at hd with h1
      cases hd
      rw [hP.tcEnc_length _ _ _ h1, hl]
  · cases hd; exact hl

theorem elide_iff (h : BlockHeader) (t : I64) (e : Enc) : elide h t e = true ↔
    h.isAllZero = true ∧ e.prevAllZero = true ∧ t.toInt - e.lastFrameTime.toInt < e.cfg.keepAlive.toInt := by
  simp [elide, and_assoc]

/-- What framing a batch keeps: OUT, the log, and what the options and the source log hold. -/
structure FrameKeeps (p q : EncPart) : Prop where
  out : q.out = p.out
  outLog : q.enc.outLog = p.enc.outLog
  firstEmitted : q.enc.firstEmitted = p.enc.firstEmitted
  first : q.enc.first = p.enc.first
  state : q.enc.state = p.enc.state
  fatal : q.enc.fatal = p.enc.fatal
  cfg : q.enc.cfg = p.enc.cfg
  key : q.enc.key = p.enc.key
  inBuf : q.enc.inBuf = p.enc.inBuf
  srcLog : q.enc.srcLog = p.enc.srcLog
  srcPos : q.enc.srcPos = p.enc.srcPos
  nextIdx : q.enc.nextIdx = p.enc.nextIdx
  final : q.enc.final = p.enc.final
  rand : q.randDraws = p.randDraws

theorem FrameKeeps.refl (p : EncPart) : FrameKeeps p p := by constructor <;> rfl

theorem FrameKeeps.trans {p q r : EncPart} (h : FrameKeeps p q) (h' : FrameKeeps q r) : FrameKeeps p r := by
  constructor
  · exact h'.out.trans h.out
  · exact h'.outLog.trans h.outLog
  · exact h'.firstEmitted.trans h.firstEmitted
  · exact h'.first.trans h.first
  · exact h'.state.trans h.state
  · exact h'.fatal.trans h.fatal
  · exact h'.cfg.trans h.cfg
  · exact h'.key.trans h.key
  · exact h'.inBuf.trans h.inBuf
  · exact h'.srcLog.trans h.srcLog
  · exact h'.srcPos.trans h.srcPos
  · exact h'.nextIdx.trans h.nextIdx
  · exact h'.final.trans h.final
  · exact h'.rand.trans h.rand

/-- What one run leaves, however it ends. -/
def Run.state {ε σ α : Type} : Run ε σ α → σ
  | .ok _ s => s
  | .stop _ s => s

@[simp] theorem Run.state_ok {ε σ α : Type} (a : α) (s : σ) : (Run.ok a s : Run ε σ α).state = s := rfl

@[simp] theorem Run.state_stop {ε σ α : Type} (a : ε) (s : σ) : (Run.stop a s : Run ε σ α).state = s := rfl

/-- What FrameChunk leaves (R269): the output goes to the accumulator, not to OUT. -/
theorem frameChunk_keeps (P : Params) (h : BlockHeader) (d : Bytes) (p : EncPart) :
    FrameKeeps p (frameChunk P h d p).state := by
  unfold frameChunk
  dsimp only
  split_ifs
  · constructor <;> rfl
  · split <;> constructor <;> rfl

/-- What FrameChunk puts out is whole frames and payloads. -/
theorem frameChunk_out {P : Params} {h : BlockHeader} {d o : Bytes} {p q : EncPart} (hr : frameChunk P h d p =
    .ok o q) :
    o = [] ∨ ∃ h' fb, serFrame P .block h' = some fb ∧ o = fb ++ d := by
  unfold frameChunk at hr
  dsimp only at hr
  split_ifs at hr
  · cases hr; exact .inl rfl
  · split at hr
    · cases hr
    · rename_i fb hfb
      cases hr; exact .inr ⟨_, fb, hfb, rfl⟩

theorem frameAll_keeps (P : Params) : ∀ (cs : List (BlockHeader × Bytes)) (acc : Bytes) (p : EncPart),
    FrameKeeps p (frameAll P cs acc p).state := by
  intro cs
  induction cs with
  | nil => intro acc p; exact .refl p
  | cons c cs ih =>
    intro acc p
    have h1 := frameChunk_keeps P c.1 c.2 p
    rw [frameAll]
    cases hr : frameChunk P c.1 c.2 p with
    | ok o q => rw [hr] at h1; exact h1.trans (ih _ _)
    | stop e q => rw [hr] at h1; exact h1

/-- What the FirstHeader frames do (R259). -/
theorem emitFirst_cases (P : Params) (p : EncPart) :
    (p.enc.firstEmitted = true ∧ emitFirst P p = .ok () p) ∨
    (p.enc.firstEmitted = false ∧ emitFirst P p = .stop .hdrOverflow p) ∨
    ∃ h ff, p.enc.firstEmitted = false ∧ p.enc.first = some h ∧ serFrame P .first h = some ff ∧
      emitFirst P p = .ok () { p with
        enc := { p.enc with firstEmitted := true, outLog := p.enc.outLog ++ ff ++ ff }
        out := p.out ++ ff ++ ff } := by
  unfold emitFirst
  by_cases h0 : p.enc.firstEmitted = true
  · rw [if_pos h0]; exact .inl ⟨h0, rfl⟩
  · rw [if_neg h0]
    have h0' : p.enc.firstEmitted = false := by simpa using h0
    cases h1 : p.enc.first with
    | none => exact .inr (.inl ⟨h0', rfl⟩)
    | some h =>
      simp only [Option.bind_some]
      cases h2 : serFrame P .first h with
      | none => exact .inr (.inl ⟨h0', rfl⟩)
      | some ff => exact .inr (.inr ⟨h, ff, h0', rfl, h2, rfl⟩)

/-- What the block part of a Flush does when it is OK (R258). -/
theorem flushBatch_ok {P : Params} {p q : EncPart} (h : flushBatch P p = .ok () q) :
    ∃ cs out r, (transformAll P p.enc.cfg p.enc.key (slices P p.enc.inBuf) p.enc.srcPos.toInt p.enc.nextIdx.toInt
        p.randDraws).2 = r ∧
      collectSome (transformAll P p.enc.cfg p.enc.key (slices P p.enc.inBuf) p.enc.srcPos.toInt p.enc.nextIdx.toInt
        p.randDraws).1 = some cs ∧
      ∃ u, frameAll P cs [] { p with randDraws := r } = .ok out u ∧
        q = batchDone P (slices P p.enc.inBuf).length (outAppend out u) := by
  unfold flushBatch at h
  dsimp only at h
  split at h
  · cases h
  · rename_i cs hcs
    cases hf : frameAll P cs [] { p with randDraws := (transformAll P p.enc.cfg p.enc.key (slices P p.enc.inBuf)
        p.enc.srcPos.toInt p.enc.nextIdx.toInt p.randDraws).2 } with
    | stop c u => rw [hf] at h; cases h
    | ok out u => rw [hf] at h; cases h; exact ⟨cs, out, _, rfl, hcs, u, hf, rfl⟩

theorem flushBatch_stop {P : Params} {p q : EncPart} {c : EncFatal} (h : flushBatch P p = .stop c q) :
    FrameKeeps { p with randDraws := q.randDraws } q := by
  unfold flushBatch at h
  dsimp only at h
  split at h
  · cases h; constructor <;> rfl
  · rename_i cs hcs
    have hk := frameAll_keeps P cs [] { p with randDraws := (transformAll P p.enc.cfg p.enc.key (slices P p.enc.inBuf)
        p.enc.srcPos.toInt p.enc.nextIdx.toInt p.randDraws).2 }
    cases hf : frameAll P cs [] { p with randDraws := (transformAll P p.enc.cfg p.enc.key (slices P p.enc.inBuf)
        p.enc.srcPos.toInt p.enc.nextIdx.toInt p.randDraws).2 } with
    | ok out u => rw [hf] at h; cases h
    | stop c u =>
      rw [hf] at h hk
      injection h with _ h
      subst h
      have e : u.randDraws = _ := hk.rand
      rw [e]; exact hk

/-- What an archive keeps from ENC.INIT to ENC.FINAL: its options, its key, its FirstHeader, its life cycle state. -/
structure ArchiveKeeps (p q : EncPart) : Prop where
  state : q.enc.state = p.enc.state
  fatal : q.enc.fatal = p.enc.fatal
  cfg : q.enc.cfg = p.enc.cfg
  key : q.enc.key = p.enc.key
  first : q.enc.first = p.enc.first
  final : q.enc.final = p.enc.final

theorem ArchiveKeeps.refl (p : EncPart) : ArchiveKeeps p p := ⟨rfl, rfl, rfl, rfl, rfl, rfl⟩

theorem ArchiveKeeps.trans {p q r : EncPart} (h : ArchiveKeeps p q) (h' : ArchiveKeeps q r) : ArchiveKeeps p r :=
  ⟨h'.state.trans h.state, h'.fatal.trans h.fatal, h'.cfg.trans h.cfg, h'.key.trans h.key, h'.first.trans h.first,
    h'.final.trans h.final⟩

theorem FrameKeeps.archive {p q : EncPart} (h : FrameKeeps p q) : ArchiveKeeps p q :=
  ⟨h.state, h.fatal, h.cfg, h.key, h.first, h.final⟩

/-- A chunk's payload, and so every batch's output, is whole 4096-byte units (R111, R267). -/
theorem transform_grid {P : Params} (hP : P.Lawful) {cfg : EncCfg} {key : Option Key} {s : Bytes} {pos idx :
    Int} {r r' : Nat}
    {h : BlockHeader} {d : Bytes} (ht : transform P cfg key s pos idx r = (some (h, d), r')) : d.length % frameSize =
        0 := by
  by_cases hz : allZero s = true
  · rw [transform_zero _ _ _ _ _ _ _ hz] at ht; cases ht; rfl
  · obtain ⟨c, pad, -, hpad, hd, -⟩ := transform_data (by simpa using hz) ht
    rw [transform_data_length hP hpad hd]
    exact (roundup_spec c.length padAlign (by decide)).2.2

theorem transformAll_grid {P : Params} (hP : P.Lawful) (cfg : EncCfg) (key : Option Key) :
    ∀ (ss : List Bytes) (pos idx : Int) (r : Nat)
    (h : BlockHeader) (d : Bytes), some (h, d) ∈ (transformAll P cfg key ss pos idx r).1 → d.length % frameSize = 0 := by
  intro ss
  induction ss with
  | nil => intro pos idx r h d hm; simp [transformAll] at hm
  | cons s ss ih =>
    intro pos idx r h d hm
    simp only [transformAll, List.mem_cons] at hm
    rcases hm with hm | hm
    · exact transform_grid hP (r' := (transform P cfg key s pos idx r).2) (by rw [hm])
    · exact ih _ _ _ h d hm

theorem mem_of_collectSome {α : Type} {l : List (Option α)} {cs : List α} (h : collectSome l = some cs) :
    ∀ c ∈ cs, some c ∈ l := by
  induction l generalizing cs with
  | nil => cases h; simp
  | cons a l ih =>
    cases a with
    | none => cases h
    | some a =>
      simp only [collectSome, Option.map_eq_some_iff] at h
      obtain ⟨cs', h1, rfl⟩ := h
      intro c hc
      rcases List.mem_cons.mp hc with rfl | hc
      · simp
      · exact List.mem_cons_of_mem _ (ih h1 c hc)

theorem frameAll_grid {P : Params} (hP : P.Lawful) : ∀ (cs : List (BlockHeader × Bytes)) (acc out : Bytes) (p q :
    EncPart),
    (∀ c ∈ cs, c.2.length % frameSize = 0) → acc.length % frameSize = 0 → frameAll P cs acc p = .ok out q →
    out.length % frameSize = 0 := by
  intro cs
  induction cs with
  | nil => intro acc out p q _ ha h; cases h; exact ha
  | cons c cs ih =>
    intro acc out p q hc ha h
    rw [frameAll] at h
    cases hf : frameChunk P c.1 c.2 p with
    | stop e u => rw [hf] at h; cases h
    | ok o u =>
      rw [hf] at h
      refine ih (acc ++ o) out u q (fun c' hc' => hc c' (List.mem_cons_of_mem _ hc')) ?_ h
      have h1 := hc c List.mem_cons_self
      rcases frameChunk_out hf with rfl | ⟨h', fb, hfb, rfl⟩
      · simpa using ha
      · have h2 := serFrame_length hP hfb
        simp only [List.length_append, frameSize] at *
        omega

theorem frameAll_ok_keeps {P : Params} {cs : List (BlockHeader × Bytes)} {acc out : Bytes} {p q : EncPart}
    (h : frameAll P cs acc p = .ok out q) : FrameKeeps p q := by
  have := frameAll_keeps P cs acc p
  rw [h] at this; exact this

/-- ENC with an archive open: its invariant, with a batch that may have just become full. -/
structure EncLoop (P : Params) (e : Enc) (out : Bytes) : Prop where
  state : e.state = .active
  no_fatal : e.fatal = none
  no_final : e.final = none
  par : 1 ≤ e.cfg.par
  key : e.key.isSome
  first : e.first.isSome
  buffer : e.inBuf.length ≤ e.cfg.par * P.chunkSize
  position : e.srcPos.toInt + e.inBuf.length = e.srcLog.length
  grid : ∃ n : Nat, e.srcPos.toInt = (n * (e.cfg.par * P.chunkSize) : Nat)
  index : e.nextIdx.toInt = ceilDiv e.srcPos.toInt.toNat P.chunkSize
  outLog_on_out : e.outLog <:+ out
  outLog_grid : e.outLog.length % frameSize = 0
  source_bound : e.srcLog.length ≤ maxSource

theorem encLoop_of_inv {P : Params} {e : Enc} {out : Bytes} (h : EncInv P e out) (hs : e.state = .active) :
    EncLoop P e out where
  state := hs
  no_fatal := by
    cases hf : e.fatal with
    | none => rfl
    | some c => have := h.fatal_iff_failed.mp (by rw [hf]; rfl); rw [hs] at this; cases this
  no_final := by
    cases hf : e.final with
    | none => rfl
    | some c => have := h.final_iff_finalized.mp (by rw [hf]; rfl); rw [hs] at this; cases this
  par := (h.active_open hs).1
  key := (h.active_open hs).2.1
  first := (h.active_open hs).2.2
  buffer := (h.active_buffer hs).le
  position := h.active_position hs
  grid := h.active_grid hs
  index := h.index.2
  outLog_on_out := h.outLog_on_out
  outLog_grid := h.outLog_grid
  source_bound := h.source_bound

theorem encInv_of_loop {P : Params} {e : Enc} {out : Bytes} (h : EncLoop P e out) (hb :
    e.inBuf.length < e.cfg.par * P.chunkSize) :
    EncInv P e out where
  fatal_iff_failed := by rw [h.no_fatal, h.state]; simp
  idle_is_reset := fun hi => by rw [h.state] at hi; cases hi
  active_open := fun _ => ⟨h.par, h.key, h.first⟩
  active_buffer := fun _ => hb
  active_position := fun _ => h.position
  active_grid := fun _ => h.grid
  index := ⟨by obtain ⟨n, hn⟩ := h.grid; rw [hn]; exact Int.natCast_nonneg _, h.index⟩
  outLog_on_out := h.outLog_on_out
  outLog_grid := h.outLog_grid
  source_bound := h.source_bound
  final_iff_finalized := by rw [h.no_final, h.state]; simp

/-- A FAILED ENC keeps its invariant. -/
theorem encInv_fatal {P : Params} {e : Enc} {out : Bytes} (h : EncLoop P e out) (c : EncFatal) :
    EncInv P { e with fatal := some c, state := .failed } out where
  fatal_iff_failed := by simp
  idle_is_reset := fun hi => by cases hi
  active_open := fun hi => by cases hi
  active_buffer := fun hi => by cases hi
  active_position := fun hi => by cases hi
  active_grid := fun hi => by cases hi
  index := ⟨by obtain ⟨n, hn⟩ := h.grid; rw [hn]; exact Int.natCast_nonneg _, h.index⟩
  outLog_on_out := h.outLog_on_out
  outLog_grid := h.outLog_grid
  source_bound := h.source_bound
  final_iff_finalized := by simp [h.no_final]

/-- What the FirstHeader frames leave. -/
theorem emitFirst_loop {P : Params} (hP : P.Lawful) {p : EncPart} (h : EncLoop P p.enc p.out) :
    EncLoop P (emitFirst P p).state.enc (emitFirst P p).state.out ∧ ArchiveKeeps p (emitFirst P p).state ∧
      (emitFirst P p).state.enc.inBuf = p.enc.inBuf ∧ (emitFirst P p).state.enc.srcLog = p.enc.srcLog ∧
      (emitFirst P p).state.enc.srcPos = p.enc.srcPos := by
  rcases emitFirst_cases P p with ⟨-, e⟩ | ⟨-, e⟩ | ⟨hd, ff, -, -, hs, e⟩ <;> rw [e]
  · exact ⟨h, .refl p, rfl, rfl, rfl⟩
  · exact ⟨h, .refl p, rfl, rfl, rfl⟩
  · have hl := serFrame_length hP hs
    refine ⟨⟨h.state, h.no_fatal, h.no_final, h.par, h.key, h.first, h.buffer, h.position, h.grid, h.index, ?_, ?_,
        h.source_bound⟩,
      ⟨rfl, rfl, rfl, rfl, rfl, rfl⟩, rfl, rfl, rfl⟩
    · obtain ⟨x, hx⟩ := h.outLog_on_out
      exact ⟨x, by simp [← hx, List.append_assoc]⟩
    · have := h.outLog_grid
      simp only [Run.state_ok, List.length_append, frameSize] at *
      omega

theorem frameKeeps_loop {P : Params} {p q : EncPart} (hk : FrameKeeps p q) (h : EncLoop P p.enc p.out) :
    EncLoop P q.enc q.out := by
  refine ⟨?_, ?_, ?_, ?_, ?_, ?_, ?_, ?_, ?_, ?_, ?_, ?_, ?_⟩
  · rw [hk.state]; exact h.state
  · rw [hk.fatal]; exact h.no_fatal
  · rw [hk.final]; exact h.no_final
  · rw [hk.cfg]; exact h.par
  · rw [hk.key]; exact h.key
  · rw [hk.first]; exact h.first
  · rw [hk.inBuf, hk.cfg]; exact h.buffer
  · rw [hk.srcPos, hk.inBuf, hk.srcLog]; exact h.position
  · rw [hk.srcPos, hk.cfg]; exact h.grid
  · rw [hk.nextIdx, hk.srcPos]; exact h.index
  · rw [hk.outLog, hk.out]; exact h.outLog_on_out
  · rw [hk.outLog]; exact h.outLog_grid
  · rw [hk.srcLog]; exact h.source_bound

theorem ceilDiv_add (n m k : Nat) (hm : 0 < m) : ceilDiv (k * m + n) m = k + ceilDiv n m := by
  unfold ceilDiv
  rw [show k * m + n + m - 1 = (n + m - 1) + m * k by rw [Nat.mul_comm m k]; omega, Nat.add_mul_div_left _ _ hm,
      Nat.add_comm]

theorem ceilDiv_le (n m : Nat) (hm : 0 < m) : ceilDiv n m ≤ n := by
  by_contra h
  have := (ceilDiv_spec n m hm n).mp (by omega)
  have := Nat.le_mul_of_pos_right n hm
  omega

/-- What a Flush that is OK leaves (R258): every buffered byte is cut into chunks. -/
theorem flush_ok {P : Params} (hP : P.Lawful) {p q : EncPart} (h : EncLoop P p.enc p.out) (hf : flush P p = .ok () q) :
    ArchiveKeeps p q ∧ q.enc.inBuf = [] ∧ q.enc.srcLog = p.enc.srcLog ∧ q.enc.srcPos.toInt = p.enc.srcLog.length ∧
      q.enc.nextIdx.toInt = ceilDiv p.enc.srcLog.length P.chunkSize ∧ q.enc.outLog <:+ q.out ∧
      q.enc.outLog.length % frameSize = 0 := by
  unfold flush at hf
  have he := emitFirst_loop hP h
  cases hem : emitFirst P p with
  | stop e u => rw [hem] at hf; cases hf
  | ok x v =>
    rw [hem] at hf he
    simp only [Run.bind, Run.state_ok] at hf he
    obtain ⟨hv, hkv, h1, h2, h3⟩ := he
    obtain ⟨cs, out, r, -, hcs, u, hu, rfl⟩ := flushBatch_ok hf
    have hk := frameAll_keeps P cs [] { v with randDraws := r }
    rw [hu] at hk
    simp only [Run.state_ok] at hk
    have hl := frameKeeps_loop hk (P := P) (by exact hv)
    have hgrid : out.length % frameSize = 0 := by
      refine frameAll_grid hP cs [] out _ u ?_ rfl hu
      intro c hc
      exact transformAll_grid hP _ _ _ _ _ _ c.1 c.2 (mem_of_collectSome hcs c hc)
    have hpos := hl.position
    have hib : u.enc.inBuf = v.enc.inBuf := hk.inBuf
    have hsl : u.enc.srcLog = p.enc.srcLog := hk.srcLog.trans h2
    have hb := hl.source_bound
    obtain ⟨n, hn⟩ := hl.grid
    have hni : u.enc.nextIdx.toInt = n * u.enc.cfg.par := by
      rw [hl.index, hn]
      have : n * (u.enc.cfg.par * P.chunkSize) = (n * u.enc.cfg.par) * P.chunkSize + 0 := by ring
      rw [Int.toNat_natCast, this, ceilDiv_add _ _ _ hP.chunkSize_pos]
      have h0 : ceilDiv 0 P.chunkSize = 0 := Nat.div_eq_of_lt (by have := hP.chunkSize_pos; omega)
      rw [h0]; push_cast; ring
    have hcd : ceilDiv p.enc.srcLog.length P.chunkSize = n * u.enc.cfg.par + (slices P v.enc.inBuf).length := by
      rw [slices_length, ← hib, ← ceilDiv_add _ _ _ hP.chunkSize_pos]
      congr 1
      have e1 : n * u.enc.cfg.par * P.chunkSize = n * (u.enc.cfg.par * P.chunkSize) := by ring
      rw [hsl] at hpos
      rw [e1]; omega
    have hle := ceilDiv_le p.enc.srcLog.length P.chunkSize hP.chunkSize_pos
    simp only [maxSource] at hb
    rw [hsl] at hb hpos
    refine ⟨hkv.trans ⟨hk.state, hk.fatal, hk.cfg, hk.key, hk.first, hk.final⟩, rfl, hsl, ?_, ?_, ?_, ?_⟩
    · show (toI64 P (u.enc.srcPos.toInt + u.enc.inBuf.length)).toInt = _
      rw [hpos, toInt_toI64_nat P _ (by omega)]
    · show (toI64 P (u.enc.nextIdx.toInt + (slices P v.enc.inBuf).length)).toInt = _
      have : u.enc.nextIdx.toInt + ((slices P v.enc.inBuf).length : Int) =
          (ceilDiv p.enc.srcLog.length P.chunkSize : Nat) := by
        rw [hni, hcd]; push_cast; ring
      rw [this, toInt_toI64_nat P _ (by omega)]
    · obtain ⟨x, hx⟩ := hl.outLog_on_out
      exact ⟨x, by show x ++ (u.enc.outLog ++ out) = u.out ++ out; rw [← hx, List.append_assoc]⟩
    · show (u.enc.outLog ++ out).length % frameSize = 0
      have := hl.outLog_grid
      simp only [List.length_append, frameSize] at *
      omega

/-- What a Flush that fails leaves: the archive as it was, with the FirstHeader frames if it emitted them (R268). -/
theorem flush_stop {P : Params} (hP : P.Lawful) {p q : EncPart} {c : EncFatal} (h : EncLoop P p.enc p.out)
    (hf : flush P p = .stop c q) : EncLoop P q.enc q.out := by
  unfold flush at hf
  have he := (emitFirst_loop hP h).1
  cases hem : emitFirst P p with
  | stop e u => rw [hem] at hf he; cases hf; exact he
  | ok x v =>
    rw [hem] at hf he
    exact frameKeeps_loop (flushBatch_stop hf) he

theorem acceptBytes_loop {P : Params} (hP : P.Lawful) : ∀ (d : Bytes) (p : EncPart), EncLoop P p.enc p.out →
    p.enc.inBuf.length < p.enc.cfg.par * P.chunkSize → p.enc.srcLog.length + d.length ≤ maxSource →
    (∀ q, acceptBytes P d p = .ok () q → EncLoop P q.enc q.out ∧ q.enc.inBuf.length < q.enc.cfg.par * P.chunkSize ∧
        ArchiveKeeps p q) ∧
    ∀ c q, acceptBytes P d p = .stop c q → EncLoop P q.enc q.out := by
  intro d
  induction d with
  | nil => intro p h hb _; exact ⟨fun q hq => by cases hq; exact ⟨h, hb, .refl p⟩, fun c q hq => by cases hq⟩
  | cons x d ih =>
    intro p h hb hs
    simp only [List.length_cons] at hs
    have hbuf : EncLoop P (bufferByte x p).enc (bufferByte x p).out := by
      refine ⟨h.state, h.no_fatal, h.no_final, h.par, h.key, h.first, ?_, ?_, h.grid, h.index, h.outLog_on_out,
          h.outLog_grid, ?_⟩
      · simp [bufferByte]; omega
      · have := h.position; simp [bufferByte]; omega
      · simp [bufferByte]; omega
    have hpos : 0 < p.enc.cfg.par * P.chunkSize := Nat.mul_pos h.par hP.chunkSize_pos
    rw [acceptBytes_cons]
    split_ifs with hfull
    · cases hf : flush P (bufferByte x p) with
      | stop e u => exact ⟨fun q hq => (by cases hq), fun c q hq => by cases hq; exact flush_stop hP hbuf hf⟩
      | ok a u =>
        simp only [Run.bind]
        obtain ⟨hk, h1, h2, h3, h4, h5, h6⟩ := flush_ok hP hbuf hf
        have hlog : u.enc.srcLog.length = p.enc.srcLog.length + 1 := by rw [h2]; simp [bufferByte]
        have hu : EncLoop P u.enc u.out := by
          refine ⟨hk.state.trans hbuf.state, hk.fatal.trans hbuf.no_fatal, hk.final.trans hbuf.no_final, ?_, ?_, ?_,
              ?_, ?_, ?_, ?_, h5, h6, ?_⟩
          · rw [hk.cfg]; exact h.par
          · rw [hk.key]; exact h.key
          · rw [hk.first]; exact h.first
          · rw [h1]; exact Nat.zero_le _
          · rw [h1, h2, h3]; simp
          · obtain ⟨n, hn⟩ := h.grid
            refine ⟨n + 1, ?_⟩
            have e1 := h.position
            rw [h3, hk.cfg]
            have e2 : ((bufferByte x p).enc.srcLog.length : Int) = p.enc.srcLog.length + 1 := by simp [bufferByte]
            rw [e2, ← e1, hn]
            show _ = (((n + 1) * (p.enc.cfg.par * P.chunkSize) : Nat) : Int)
            rw [Nat.add_mul, Nat.one_mul]
            omega
          · rw [h4, h3]; simp
          · omega
        have := ih u hu (by rw [h1, hk.cfg]; exact hpos) (by omega)
        exact ⟨fun q hq => by
          obtain ⟨a1, a2, a3⟩ := this.1 q hq
          exact ⟨a1, a2, ⟨(hk.trans a3).state, (hk.trans a3).fatal, (hk.trans a3).cfg, (hk.trans a3).key,
              (hk.trans a3).first, (hk.trans a3).final⟩⟩, this.2⟩
    · have := ih (bufferByte x p) hbuf (by simp [bufferByte]; omega) (by simp [bufferByte]; omega)
      exact ⟨fun q hq => by
        obtain ⟨a1, a2, a3⟩ := this.1 q hq
        exact ⟨a1, a2, ⟨a3.state, a3.fatal, a3.cfg, a3.key, a3.first, a3.final⟩⟩, this.2⟩

theorem closeArchive_cases (P : Params) (p : EncPart) :
    closeArchive P p = .stop .hdrOverflow (nowDrawn p) ∨
    ∃ first fe fz, serFrame P .block (eofHeader P p.enc (P.now p.nowDraws)) = some fe ∧ p.enc.first = some first ∧
      serFrame P .final (finalHeader P p.enc first fe (P.now p.nowDraws)) = some fz ∧
      closeArchive P p = .ok (finalHeader P p.enc first fe (P.now p.nowDraws)) { p with
        enc := { p.enc with
          outLog := p.enc.outLog ++ fe ++ fz ++ fz
          final := some (finalHeader P p.enc first fe (P.now p.nowDraws))
          state := .finalized }
        out := p.out ++ fe ++ fz ++ fz
        nowDraws := p.nowDraws + 1 } := by
  obtain ⟨⟨st, fa, cfg, ky, fi, fem, ib, sl, ol, sp, ni, dc, pz, lf, el, fin⟩, o, nd, rd⟩ := p
  unfold closeArchive
  dsimp only [nowDrawn]
  cases h1 : serFrame P .block (eofHeader P ⟨st, fa, cfg, ky, fi, fem, ib, sl, ol, sp, ni, dc, pz, lf, el,
      fin⟩ (P.now nd)) with
  | none => exact .inl rfl
  | some fe =>
    cases fi with
    | none => exact .inl rfl
    | some first =>
      dsimp only
      cases h3 : serFrame P .final (finalHeader P ⟨st, fa, cfg, ky, some first, fem, ib, sl, ol, sp, ni, dc, pz, lf,
          el, fin⟩ first fe (P.now nd)) with
      | none => exact .inl rfl
      | some fz => exact .inr ⟨first, fe, fz, rfl, rfl, h3, rfl⟩

theorem encInv_reset (P : Params) (hP : P.Lawful) (out : Bytes) : EncInv P Enc.reset out := by
  refine ⟨by decide, fun _ => rfl, (fun h => by cases h), (fun h => by cases h), (fun h => by cases h),
      (fun h => by cases h), ⟨by decide, ?_⟩, ⟨out, by simp [Enc.reset]⟩, by decide, by decide, by decide⟩
  show (0 : I64).toInt = ((ceilDiv (0 : I64).toInt.toNat P.chunkSize : Nat) : Int)
  rw [show (0 : I64).toInt = 0 by decide]
  have : ceilDiv 0 P.chunkSize = 0 := Nat.div_eq_of_lt (by have := hP.chunkSize_pos; omega)
  simp [this]

theorem par_pos {P : Params} {c : Csrs} (hc : CsrLegal P c) : 1 ≤ c.parallelism.toNat := by
  have h1 := hc.par_pos
  have h2 := BitVec.toInt_eq_toNat_bmod c.parallelism
  by_contra h4
  have : c.parallelism.toNat = 0 := by omega
  rw [this] at h2
  simp at h2; omega

/-- A Flush keeps the archive's options, key, FirstHeader and life cycle state. -/
theorem flush_archive {P : Params} {p q : EncPart} (h : flush P p = .ok () q) : ArchiveKeeps p q := by
  unfold flush at h
  rcases emitFirst_cases P p with ⟨-, e⟩ | ⟨-, e⟩ | ⟨f, ff, -, -, -, e⟩ <;> rw [e] at h <;>
    simp only [Run.bind] at h
  · obtain ⟨cs, out, r, -, -, u, hu, rfl⟩ := flushBatch_ok h
    have hk := (frameAll_ok_keeps hu).archive
    exact ⟨hk.state, hk.fatal, hk.cfg, hk.key, hk.first, hk.final⟩
  · cases h
  · obtain ⟨cs, out, r, -, -, u, hu, rfl⟩ := flushBatch_ok h
    have hk := (frameAll_ok_keeps hu).archive
    exact ⟨hk.state, hk.fatal, hk.cfg, hk.key, hk.first, hk.final⟩

/-- Accepting source bytes keeps the archive's options, key, FirstHeader and life cycle state. -/
theorem acceptBytes_archive {P : Params} : ∀ (d : Bytes) {p q : EncPart}, acceptBytes P d p = .ok () q →
    ArchiveKeeps p q := by
  intro d
  induction d with
  | nil => intro p q h; cases h; exact .refl p
  | cons x d ih =>
    intro p q h
    have hb : ArchiveKeeps p (bufferByte x p) := ⟨rfl, rfl, rfl, rfl, rfl, rfl⟩
    rw [acceptBytes_cons] at h
    split_ifs at h
    · cases hf : flush P (bufferByte x p) with
      | stop c u => rw [hf] at h; cases h
      | ok a u => rw [hf] at h; exact (hb.trans (flush_archive hf)).trans (ih h)
    · exact hb.trans (ih h)

/-- A byte string is not all-zero when it holds a byte other than 0. -/
theorem allZero_false_iff (b : Bytes) : allZero b = false ↔ ∃ x ∈ b, x ≠ 0 := by simp [allZero]

/-- A chunk that is not all-zero transforms where COMPRESS gives a result, or is off, and the key is there (R266, R267). -/
theorem transform_total {P : Params} (hP : P.Lawful) {cfg : EncCfg} {key : Option Key} {s c : Bytes} (pos idx : Int) (r : Nat)
    (hz : allZero s = false) (hk : cfg.encrypt = true → key.isSome)
    (hc : (if cfg.compress then P.compress (P.compLevels cfg.level) s else some s) = some c) :
    ∃ h d r', transform P cfg key s pos idx r = (some (h, d), r') := by
  unfold transform
  dsimp only
  rw [if_neg (by simp [hz]), hc]
  dsimp only
  have hd : ∃ d, (if cfg.encrypt then key.bind fun k => tcEncrypt P k (toI64 P pos)
      (c ++ if cfg.encrypt then randBytes P r (roundup c.length padAlign - c.length)
        else zeros (roundup c.length padAlign - c.length))
      else some (c ++ if cfg.encrypt then randBytes P r (roundup c.length padAlign - c.length)
        else zeros (roundup c.length padAlign - c.length))) = some d := by
    have hr := roundup_spec c.length padAlign (by decide)
    by_cases he : cfg.encrypt = true
    · obtain ⟨k, rfl⟩ := Option.isSome_iff_exists.mp (hk he)
      simp only [he, if_true, Option.bind_some, tcEncrypt]
      rw [if_pos]
      · exact ⟨_, rfl⟩
      · apply hP.tcDomain_padAlign
        rw [List.length_append, randBytes_length, Nat.add_sub_cancel' hr.1]; exact hr.2.2
    · simp only [he, Bool.false_eq_true, if_false]; exact ⟨_, rfl⟩
  obtain ⟨d, hd⟩ := hd
  rw [hd]
  exact ⟨_, _, _, rfl⟩

/-- Where COMPRESS fails, Transform fails and draws nothing (R267, R268). -/
theorem transform_fails {P : Params} {cfg : EncCfg} (key : Option Key) {s : Bytes} (pos idx : Int) (r : Nat)
    (hz : allZero s = false) (hc : (if cfg.compress then P.compress (P.compLevels cfg.level) s else some s) = none) :
    transform P cfg key s pos idx r = (none, r) := by
  unfold transform
  dsimp only
  rw [if_neg (by simp [hz]), hc]

/-- A list in which every transform gave a result is collected whole. -/
theorem collectSome_map {α : Type} (cs : List α) : collectSome (cs.map some) = some cs := by
  induction cs with
  | nil => rfl
  | cons c cs ih => simp [collectSome, ih]

/-- One transform that failed fails the list (R268). -/
theorem collectSome_none {α : Type} {l : List (Option α)} (h : none ∈ l) : collectSome l = none := by
  induction l with
  | nil => simp at h
  | cons a l ih =>
    cases a with
    | none => rfl
    | some a => simp only [List.mem_cons, reduceCtorEq, false_or] at h; simp [collectSome, ih h]

/-- Every slice of a batch is transformed. -/
theorem transformAll_length (P : Params) (cfg : EncCfg) (key : Option Key) : ∀ (ss : List Bytes) (pos idx : Int) (r : Nat),
    (transformAll P cfg key ss pos idx r).1.length = ss.length := by
  intro ss
  induction ss with
  | nil => intros; rfl
  | cons s ss ih => intro pos idx r; simp [transformAll, ih]

/-- Slice `i` of a batch is transformed at its own position with its own index (R258, R262). -/
theorem transformAll_getElem? (P : Params) (cfg : EncCfg) (key : Option Key) :
    ∀ (ss : List Bytes) (pos idx : Int) (r i : Nat) (b : Bytes), ss[i]? = some b →
    ∃ r', (transformAll P cfg key ss pos idx r).1[i]? =
      some (transform P cfg key b (pos + i * P.chunkSize) (idx + i) r').1 := by
  intro ss
  induction ss with
  | nil => intro _ _ _ _ _ h; simp at h
  | cons s ss ih =>
    intro pos idx r i b h
    cases i with
    | zero => simp at h; subst h; exact ⟨r, by simp [transformAll]⟩
    | succ i =>
      obtain ⟨r', hr⟩ := ih (pos + P.chunkSize) (idx + 1) (transform P cfg key s pos idx r).2 i b (by simpa using h)
      refine ⟨r', ?_⟩
      simp only [transformAll, List.getElem?_cons_succ, hr]
      push_cast
      rw [Int.add_mul, Int.one_mul, Int.add_assoc, Int.add_assoc, Int.add_comm (P.chunkSize : Int), Int.add_comm 1]

/-- Framing fails only with HDR_OVERFLOW (R268). -/
theorem frameAll_stop (P : Params) : ∀ (cs : List (BlockHeader × Bytes)) (acc : Bytes) (p u : EncPart) (c : EncFatal),
    frameAll P cs acc p = .stop c u → c = .hdrOverflow := by
  intro cs
  induction cs with
  | nil => intro _ _ _ _ h; cases h
  | cons x cs ih =>
    intro acc p u c h
    rw [frameAll] at h
    cases hf : frameChunk P x.1 x.2 p with
    | ok o q => rw [hf] at h; exact ih _ _ _ _ h
    | stop e q =>
      rw [hf] at h; cases h
      unfold frameChunk at hf
      dsimp only at hf
      split_ifs at hf
      split at hf <;> cases hf; rfl

end Sys2Proof.Machine
end

