-- ==== Sys2Proof/Laws/Archive.lean ====
section
/-! SUPPORT. An archive as a list of chunks, as the encode procedures make it and as the decode procedures read it: the
parts of the round trip (spec/44_decoder.md R339, R340). -/

namespace Sys2Proof.Machine

/-- One chunk of an archive: its source bytes and what it put on OUT. -/
structure Item where
  src : Bytes
  out : Bytes

/-- The source bytes of a list of chunks. -/
def itemsSrc (l : List Item) : Bytes := l.flatMap Item.src

/-- What a list of chunks put on OUT. -/
def itemsOut (l : List Item) : Bytes := l.flatMap Item.out

/-- The chunk was transformed at position `pos` and framed, or it is all-zero and was elided. -/
def Item.Made (P : Params) (cfg : EncCfg) (key : Option Key) (pos : Nat) (it : Item) : Prop :=
  (it.out = [] ∧ allZero it.src = true) ∨
    ∃ (idx : I64) (r r' : Nat) (h : BlockHeader) (d : Bytes) (t : I64) (fb : Bytes),
      0 ≤ idx.toInt ∧
      transform P cfg key it.src pos idx.toInt r = (some (h, d), r') ∧
      serFrame P .block { h with timestamp := t } = some fb ∧ it.out = fb ++ d

/-- Chunks made one after another, the first at position `pos`. -/
def ItemsMade (P : Params) (cfg : EncCfg) (key : Option Key) : Nat → List Item → Prop
  | _, [] => True
  | pos, it :: l => it.Made P cfg key pos ∧ ItemsMade P cfg key (pos + it.src.length) l

theorem itemsMade_append {P : Params} {cfg : EncCfg} {key : Option Key} : ∀ (a b : List Item) (pos : Nat),
    ItemsMade P cfg key pos a → ItemsMade P cfg key (pos + (itemsSrc a).length) b → ItemsMade P cfg key pos (a ++ b) := by
  intro a
  induction a with
  | nil => intro b pos _ h; simpa [itemsSrc] using h
  | cons it a ih =>
    intro b pos ha hb
    refine ⟨ha.1, ih b _ ha.2 ?_⟩
    simpa [itemsSrc, Nat.add_assoc] using hb

theorem frameAll_made {P : Params} {cfg : EncCfg} {key : Option Key} :
    ∀ (ss : List Bytes) (pos idx r : Nat) (cs : List (BlockHeader × Bytes))
    (acc out : Bytes) (p q : EncPart),
    (∀ i, i + 1 < ss.length → (ss[i]?.map List.length) = some P.chunkSize) →
    idx + ss.length < 2 ^ 63 →
    collectSome (transformAll P cfg key ss pos idx r).1 = some cs → frameAll P cs acc p = .ok out q →
    ∃ items, ItemsMade P cfg key pos items ∧ itemsSrc items = ss.flatten ∧ out = acc ++ itemsOut items ∧ items.length =
        ss.length := by
  intro ss
  induction ss with
  | nil =>
    intro pos idx r cs acc out p q _ _ hc hf
    cases hc
    cases hf
    exact ⟨[], trivial, rfl, by simp [itemsOut], rfl⟩
  | cons s ss ih =>
    intro pos idx r cs acc out p q hlen hidx hc hf
    simp only [List.length_cons] at hidx
    simp only [transformAll] at hc
    cases ht : transform P cfg key s pos idx r with
    | mk o r' =>
      rw [ht] at hc
      cases o with
      | none => cases hc
      | some hd =>
        simp only [collectSome, Option.map_eq_some_iff] at hc
        obtain ⟨cs', hc', rfl⟩ := hc
        rw [frameAll] at hf
        cases hfc : frameChunk P hd.1 hd.2 p with
        | stop e u => rw [hfc] at hf; cases hf
        | ok o u =>
          rw [hfc] at hf
          simp only [Run.bind] at hf
          have hmade : (⟨s, o⟩ : Item).Made P cfg key pos := by
            unfold frameChunk at hfc
            dsimp only at hfc
            split_ifs at hfc with he
            · cases hfc
              refine .inl ⟨rfl, ?_⟩
              have hz := ((elide_iff _ _ _).mp he).1
              by_contra hnz
              obtain ⟨c, pad, -, -, -, hh⟩ := transform_data (by simpa using hnz) ht
              rw [hh] at hz; cases hz
            · split at hfc
              · cases hfc
              · rename_i fb hfb
                cases hfc
                have hix : (toI64 P idx).toInt = idx := toInt_toI64_nat P idx (by omega)
                exact .inr ⟨toI64 P idx, r, r', hd.1, hd.2, _, fb, by rw [hix]; omega, by rw [hix]; exact ht, hfb, rfl⟩
          have hlen' : ∀ i, i + 1 < ss.length → (ss[i]?.map List.length) = some P.chunkSize := by
            intro i hi
            have := hlen (i + 1) (by simpa using hi)
            simpa using this
          have e1 : ((idx : Int) + 1) = ((idx + 1 : Nat) : Int) := by push_cast; rfl
          have e2 : ((pos : Int) + P.chunkSize) = ((pos + P.chunkSize : Nat) : Int) := by push_cast; rfl
          rw [e1, e2] at hc'
          obtain ⟨items, h1, h2, h3, h4⟩ := ih (pos + P.chunkSize) (idx + 1) r' cs' (acc ++
              o) out u q hlen' (by omega) hc' hf
          refine ⟨⟨s, o⟩ :: items, ⟨hmade, ?_⟩, ?_, ?_, by simp [h4]⟩
          · cases hss : ss with
            | nil =>
              rw [hss] at h4
              rw [List.length_eq_zero_iff.mp h4]; trivial
            | cons s' ss' =>
              have := hlen 0 (by simp [hss])
              simp at this
              show ItemsMade P cfg key (pos + s.length) items
              rw [this]; exact h1
          · simp [itemsSrc] at h2 ⊢; exact h2
          · rw [h3]; simp [itemsOut]

/-- How far an archive has come: the chunks made so far are those of the source before the buffered bytes, and OUT's log
is the FirstHeader frames and what the chunks put out. -/
structure Trace (P : Params) (p : EncPart) : Prop where
  made : ∃ items, ItemsMade P p.enc.cfg p.enc.key 0 items ∧ itemsSrc items ++ p.enc.inBuf = p.enc.srcLog ∧
    (p.enc.firstEmitted = false → p.enc.outLog = [] ∧ items = []) ∧
    (p.enc.firstEmitted = true → ∃ h ff, p.enc.first = some h ∧ serFrame P .first h = some ff ∧
      p.enc.outLog = ff ++ ff ++ itemsOut items)

theorem slices_facts (P : Params) (b : Bytes) (hP : 0 < P.chunkSize) : (slices P b).flatten = b ∧
    ∀ i, i + 1 < (slices P b).length → ((slices P b)[i]?.map List.length) = some P.chunkSize := by
  have hs := ceilDiv_spec b.length P.chunkSize hP
  refine ⟨?_, ?_⟩
  · unfold slices
    rw [slices_flatten_take]
    apply List.take_of_length_le
    have := hs (ceilDiv b.length P.chunkSize)
    simp at this; exact this
  · intro i hi
    rw [slices_length] at hi
    have h1 := (hs (i + 1)).mp hi
    have h2 : (i + 1) * P.chunkSize = i * P.chunkSize + P.chunkSize := by ring
    have h3 := slice_len b (i * P.chunkSize) ((i + 1) * P.chunkSize)
    simp only [slices]
    rw [List.getElem?_map, List.getElem?_range (by omega)]
    simp; omega

theorem emitFirst_trace {P : Params} {p v : EncPart} (ht : Trace P p) (h : emitFirst P p = .ok () v) :
    Trace P v ∧ v.enc.firstEmitted = true := by
  obtain ⟨items, h1, h2, h3, h4⟩ := ht.made
  rcases emitFirst_cases P p with ⟨h0, e⟩ | ⟨-, e⟩ | ⟨hd, ff, h0, hfi, hs, e⟩ <;> rw [e] at h <;> cases h
  · exact ⟨ht, h0⟩
  · obtain ⟨h5, rfl⟩ := h3 h0
    refine ⟨⟨[], trivial, h2, (fun h => by cases h), fun _ => ⟨hd, ff, hfi, hs, ?_⟩⟩, rfl⟩
    rw [h5]; simp [itemsOut]

theorem flush_trace {P : Params} (hP : P.Lawful) {p q : EncPart} (hl : EncLoop P p.enc p.out) (ht : Trace P p)
    (h : flush P p = .ok () q) : Trace P q ∧ q.enc.firstEmitted = true := by
  unfold flush at h
  have hloop := (emitFirst_loop hP hl).1
  cases he : emitFirst P p with
  | stop e u => rw [he] at h; cases h
  | ok x v =>
    rw [he] at h hloop
    simp only [Run.bind, Run.state_ok] at h hloop
    obtain ⟨htv, hfe⟩ := emitFirst_trace ht he
    obtain ⟨items, h1, h2, -, h4⟩ := htv.made
    obtain ⟨hd, ff, h5, h6, h7⟩ := h4 hfe
    obtain ⟨cs, out, r, -, hcs, u, hu, rfl⟩ := flushBatch_ok h
    have hk := frameAll_ok_keeps hu
    obtain ⟨hsl, hsz⟩ := slices_facts P v.enc.inBuf hP.chunkSize_pos
    have hlog := congrArg List.length h2
    simp only [List.length_append] at hlog
    have hpos : v.enc.srcPos.toInt = ((itemsSrc items).length : Nat) := by
      have := hloop.position; omega
    have hb := hloop.source_bound
    simp only [maxSource] at hb
    have hni : v.enc.nextIdx.toInt = (ceilDiv (itemsSrc items).length P.chunkSize : Nat) := by
      rw [hloop.index, hpos]; rfl
    rw [hpos, hni] at hcs
    have hsc : (slices P v.enc.inBuf).length = ceilDiv v.enc.inBuf.length P.chunkSize := slices_length P _
    have c1 := ceilDiv_le (itemsSrc items).length P.chunkSize hP.chunkSize_pos
    have c2 := ceilDiv_le v.enc.inBuf.length P.chunkSize hP.chunkSize_pos
    obtain ⟨items', m1, m2, m3, -⟩ := frameAll_made _ _ _ _ _ _ _ _ _ hsz (by rw [hsc]; omega) hcs hu
    refine ⟨⟨items ++ items', ?_, ?_, fun hf => ?_, fun _ => ⟨hd, ff, ?_, h6, ?_⟩⟩, ?_⟩
    · show ItemsMade P u.enc.cfg u.enc.key 0 _
      rw [hk.cfg, hk.key]
      exact itemsMade_append _ _ _ h1 (by simpa using m1)
    · show itemsSrc (items ++ items') ++ [] = u.enc.srcLog
      rw [hk.srcLog]
      show _ = v.enc.srcLog
      rw [← h2]
      simp only [itemsSrc, List.flatMap_append, List.append_nil] at m2 ⊢
      rw [m2, hsl]
    · have : u.enc.firstEmitted = v.enc.firstEmitted := hk.firstEmitted
      rw [show u.enc.firstEmitted = _ from hf] at this
      rw [hfe] at this; cases this
    · show u.enc.first = _; rw [hk.first]; exact h5
    · show u.enc.outLog ++ out = _
      rw [hk.outLog]
      show v.enc.outLog ++ out = _
      rw [h7, m3]
      simp [itemsOut, List.append_assoc]
    · show u.enc.firstEmitted = _; rw [hk.firstEmitted]; exact hfe

theorem acceptBytes_trace {P : Params} (hP : P.Lawful) : ∀ (d : Bytes) (p q : EncPart), EncLoop P p.enc p.out →
    p.enc.inBuf.length < p.enc.cfg.par * P.chunkSize → p.enc.srcLog.length + d.length ≤ maxSource → Trace P p →
    acceptBytes P d p = .ok () q → Trace P q ∧ q.enc.srcLog = p.enc.srcLog ++ d := by
  intro d
  induction d with
  | nil => intro p q _ _ _ ht h; cases h; exact ⟨ht, by simp⟩
  | cons x d ih =>
    intro p q hl hb hs ht h
    have hone := acceptBytes_loop hP [x] p hl hb (by simp at hs ⊢; omega)
    have htb : Trace P (bufferByte x p) := by
      obtain ⟨items, h1, h2, h3, h4⟩ := ht.made
      exact ⟨items, h1, by simp [bufferByte, ← h2], h3, h4⟩
    have hlb : EncLoop P (bufferByte x p).enc (bufferByte x p).out := by
      simp only [List.length_cons] at hs
      refine ⟨hl.state, hl.no_fatal, hl.no_final, hl.par, hl.key, hl.first, ?_, ?_, hl.grid, hl.index,
          hl.outLog_on_out, hl.outLog_grid, ?_⟩
      · simp [bufferByte]; omega
      · have := hl.position; simp [bufferByte]; omega
      · simp [bufferByte]; omega
    rw [acceptBytes_cons] at h
    rw [acceptBytes_cons] at hone
    split_ifs at h with hfull
    · rw [if_pos hfull] at hone
      cases hf : flush P (bufferByte x p) with
      | stop e u => rw [hf] at h; cases h
      | ok a u =>
        rw [hf] at h hone
        have hlu := hone.1 u rfl
        have hsrc := (flush_ok hP hlb hf).2.2.1
        have hlen : u.enc.srcLog.length = p.enc.srcLog.length + 1 := by rw [hsrc]; simp [bufferByte]
        obtain ⟨r1, r2⟩ := ih u q hlu.1 hlu.2.1 (by simp at hs; omega) (flush_trace hP hlb htb hf).1 h
        exact ⟨r1, by rw [r2, hsrc]; simp [bufferByte]⟩
    · rw [if_neg hfull] at hone
      have hlu := hone.1 _ rfl
      obtain ⟨r1, r2⟩ := ih _ q hlu.1 hlu.2.1 (by simp [bufferByte] at hs ⊢; omega) htb h
      exact ⟨r1, by rw [r2]; simp [bufferByte]⟩


/-- The pending chunks of a batch, decoded and written with no event, turn the SINK `m` into `m'`. -/
def Pending (P : Params) (e c : Bool) (key : Option Key) (batch : List BatchEntry) (m m' : Sink) : Prop :=
  ∀ d : Dec, ∃ n, writeAll (batch.map fun b => (b, decodeChunk P e c key b.hdr b.payload)) ⟨d, m⟩ =
    .ok () ⟨noteEvents [] n d, m'⟩

theorem pending_nil (P : Params) (e c : Bool) (key : Option Key) (m : Sink) : Pending P e c key [] m m :=
  fun d => ⟨0, by rw [noteEvents_nil]; rfl⟩

theorem writeAll_append : ∀ (a b : List (BatchEntry × (Option Bytes × List SoftCause))) (p : DecPart),
    writeAll (a ++ b) p = (writeAll a p).bind fun _ q => writeAll b q := by
  intro a
  induction a with
  | nil => intro b p; rfl
  | cons x a ih =>
    intro b p
    rw [List.cons_append, writeAll, writeAll, Run.bind_assoc]
    congr 1; funext _ q; exact ih b q

theorem pending_snoc {P : Params} {e c : Bool} {key : Option Key} {batch : List BatchEntry} {m m' m'' : Sink} {b :
    BatchEntry}
    (h : Pending P e c key batch m m')
    (hb : (decodeChunk P e c key b.hdr b.payload = (none, []) ∧ m'' = m') ∨
      ∃ v, decodeChunk P e c key b.hdr b.payload = (some v, []) ∧ sinkWrite m' b.hdr.srcDataPosition.toInt v =
          some m'') :
    Pending P e c key (batch ++ [b]) m m'' := by
  intro d
  obtain ⟨n, hn⟩ := h d
  rw [List.map_append, writeAll_append, hn]
  simp only [Run.bind, List.map_cons, List.map_nil, writeAll]
  rcases hb with ⟨h1, rfl⟩ | ⟨v, h1, h2⟩
  · exact ⟨n, by rw [h1]; simp [writeChunk, recordEvents]⟩
  · refine ⟨n + v.length, ?_⟩
    rw [h1]
    simp only [writeChunk, recordEvents, List.foldl_nil]
    rw [h2]
    simp [noteEvents, Nat.add_assoc]

/-- The contents of SINK so far: the source below `pos`, zeros above. -/
def Holds (X : Bytes) (pos : Nat) (m : Sink) : Prop :=
  Memory.wf m = true ∧ ∀ a, Memory.get m a = if a < pos then X.getD a 0 else 0

/-- DEC in STREAMING on an archive of `X`, at source position `pos`, with no event so far. -/
structure Follows (P : Params) (e c : Bool) (key : Option Key) (X : Bytes) (pos : Nat) (p : DecPart) : Prop where
  state : p.dec.state = .streaming
  first : archiveFlags p.dec = (e, c)
  keyEq : p.dec.key = key
  errors : p.dec.errors = 0
  warnings : p.dec.warnings = 0
  batch : p.dec.batch.length < p.dec.par
  outLen : p.dec.outLen ≤ X.length
  sink : ∃ m, Pending P e c key p.dec.batch p.sink m ∧ Holds X pos m

theorem follows_runBatch {P : Params} {e c : Bool} {key : Option Key} {p : DecPart} {m : Sink}
    (hf : archiveFlags p.dec = (e, c)) (hk : p.dec.key = key) (h : Pending P e c key p.dec.batch p.sink m) :
    ∃ n, runBatch P p = .ok () ⟨{ (noteEvents [] n p.dec) with batch := [] }, m⟩ := by
  obtain ⟨n, hn⟩ := h p.dec
  refine ⟨n, ?_⟩
  unfold runBatch
  have : (p.dec.batch.map fun b => (b, decodeEntry P p.dec b)) = p.dec.batch.map fun b =>
      (b, decodeChunk P e c key b.hdr b.payload) := by
    simp only [decodeEntry, hf, hk]
  rw [this, show writeAll (p.dec.batch.map fun b => (b, decodeChunk P e c key b.hdr b.payload)) p = _ from hn]
  rfl

/-- A block frame whose chunk decodes with no event is taken. -/
theorem follows_block {P : Params} {e c : Bool} {key : Option Key} {X : Bytes} {pos : Nat} {p : DecPart} {fb d rest b :
    Bytes}
    {h : BlockHeader} (hp : Follows P e c key X pos p) (hin : p.dec.inBuf = fb ++ d ++ rest) (hfl : fb.length = 4096)
    (hfb : parseFrame P fb = .block h) (hs : sane h = true) (hd : h.destDataSize.toInt = d.length)
    (hpos : h.srcDataPosition.toInt = pos) (hlen : h.srcDataLength.toInt = b.length) (hX : pos + b.length ≤ X.length)
    (hb : ∀ i, i < b.length → X.getD (pos + i) 0 = b.getD i 0)
    (hdec : (b = [] ∧ decodeChunk P e c key h d = (none, [])) ∨ decodeChunk P e c key h d = (some b, []))
    (hX63 : X.length < 2 ^ 63) :
    ∃ q, parseTurn P false p = .ok true q ∧ Follows P e c key X (pos + b.length) q ∧ q.dec.inBuf = rest ∧
      q.dec.final = p.dec.final := by
  obtain ⟨m, hm, hw, hg⟩ := hp.sink
  have hsl : slice p.dec.inBuf 4096 (4096 + d.length) = d := by
    have : p.dec.inBuf.drop 4096 = d ++ rest := by rw [hin, List.append_assoc, ← hfl, List.drop_left]
    unfold slice
    rw [this, show 4096 + d.length - 4096 = d.length by omega, List.take_left]
  have hdr : p.dec.inBuf.drop (4096 + d.length) = rest := by
    rw [hin, ← hfl, ← List.length_append, List.drop_left]
  have hlen' : p.dec.inBuf.length = 4096 + d.length + rest.length := by
    rw [hin]; simp only [List.length_append, hfl]
  obtain ⟨m', hm', hholds⟩ : ∃ m', Pending P e c key (p.dec.batch ++ [⟨h, d, p.dec.cursor⟩]) p.sink m' ∧
      Holds X (pos + b.length) m' := by
    rcases hdec with ⟨rfl, hdec⟩ | hdec
    · exact ⟨m, pending_snoc hm (.inl ⟨hdec, rfl⟩), hw, hg⟩
    · obtain ⟨m', hm'⟩ := sinkWrite_isSome (m := m) (pos := h.srcDataPosition.toInt) (v := b) (by rw [hpos]; omega) (by
        rw [hpos]; simp only [sinkSize]; omega)
      refine ⟨m', pending_snoc hm (.inr ⟨b, hdec, hm'⟩), ?_⟩
      rcases sinkWrite_eq_some hm' with ⟨rfl, rfl⟩ | ⟨-, -, rfl⟩
      · exact ⟨hw, hg⟩
      · have hpn : h.srcDataPosition.toInt.toNat = pos := by rw [hpos]; rfl
        rw [hpn]
        refine ⟨memory_writeBytes_wf _ _ _ hw, fun a => ?_⟩
        by_cases ha : a < pos ∨ pos + b.length ≤ a
        · rw [memory_get_writeBytes_outside _ _ _ _ ha, hg a]
          rcases ha with ha | ha
          · rw [if_pos ha, if_pos (by omega)]
          · rw [if_neg (by omega), if_neg (by omega)]
        · push Not at ha
          have hi : a - pos < b.length := by omega
          have := memory_get_writeBytes_inside m pos b (a - pos) hi hw
          rw [show pos + (a - pos) = a by omega] at this
          rw [this, if_pos (by omega)]
          have h3 := hb (a - pos) hi
          rw [show pos + (a - pos) = a by omega] at h3
          rw [h3]; simp [hi]
  have hpar : (p.dec.batch ++ [(⟨h, d, p.dec.cursor⟩ : BatchEntry)]).length ≤ p.dec.par := by
    have := hp.batch
    simp; omega
  have hturn : parseTurn P false p = parseBlock P false h p := by
    unfold parseTurn
    dsimp only
    rw [if_neg (by rw [hp.state]; simp), show p.dec.inBuf.take frameSize = fb by
      rw [hin, List.append_assoc]; simp only [frameSize, ← hfl, List.take_left], hfb]
    rfl
  have henq : enqueue h (raiseOutLen h p.dec) = { p.dec with
      outLen := max p.dec.outLen (pos + b.length)
      batch := p.dec.batch ++ [⟨h, d, p.dec.cursor⟩]
      inBuf := rest
      cursor := p.dec.cursor + (4096 + d.length) } := by
    simp only [enqueue, raiseOutLen, consume, hd, hpos, hlen, frameSize, Int.toNat_natCast, hsl, hdr]
    rfl
  rw [hturn]
  unfold parseBlock
  have hns : ¬ ¬ sane h = true := not_not.mpr hs
  rw [if_neg hns]
  dsimp only
  rw [if_neg (show ¬ (raiseOutLen h p.dec).inBuf.length < frameSize + h.destDataSize.toInt.toNat by
    rw [hd, show (raiseOutLen h p.dec).inBuf = p.dec.inBuf from rfl, hlen']; simp only [frameSize,
        Int.toNat_natCast]; omega), henq]
  dsimp only
  split_ifs with hfull
  · obtain ⟨n, hn⟩ := follows_runBatch (P := P) (e := e) (c := c) (key := key) (m := m')
      (p := ⟨{ p.dec with
        outLen := max p.dec.outLen (pos + b.length)
        batch := p.dec.batch ++ [⟨h, d, p.dec.cursor⟩]
        inBuf := rest
        cursor := p.dec.cursor + (4096 + d.length) }, p.sink⟩) hp.first hp.keyEq hm'
    rw [hn]
    refine ⟨_, rfl, ⟨hp.state, hp.first, hp.keyEq, hp.errors, hp.warnings, ?_, ?_, m', pending_nil _ _ _ _ _, hholds⟩,
        rfl, rfl⟩
    · exact Nat.lt_of_le_of_lt (Nat.zero_le _) hp.batch
    · exact max_le hp.outLen hX
  · refine ⟨_, rfl, ⟨hp.state, hp.first, hp.keyEq, hp.errors, hp.warnings, ?_, ?_, m', hm', hholds⟩, rfl, rfl⟩
    · exact Nat.lt_of_le_of_ne hpar hfull
    · exact max_le hp.outLen hX


/-- Every header Transform makes is sane, and says what it is of. -/
theorem transform_sane {P : Params} (hP : P.Lawful) {cfg : EncCfg} {key : Option Key} {b d : Bytes} {pos r r' :
    Nat} {idx : I64}
    {h : BlockHeader} (hi : 0 ≤ idx.toInt) (hb : pos + b.length < 2 ^ 63) (hd : d.length < 2 ^ 63)
    (ht : transform P cfg key b pos idx.toInt r = (some (h, d), r')) :
    sane h = true ∧ h.destDataSize.toInt = d.length ∧ h.srcDataPosition.toInt = pos ∧ h.srcDataLength.toInt =
        b.length := by
  have e1 : (toI64 P (pos : Int)).toInt = pos := toInt_toI64_nat P pos (by omega)
  have e2 : (toI64 P (b.length : Int)).toInt = b.length := toInt_toI64_nat P _ (by omega)
  have e3 : (toI64 P idx.toInt) = idx := toI64_toInt P idx
  by_cases hz : allZero b = true
  · rw [transform_zero _ _ _ _ _ _ _ hz] at ht
    cases ht
    have z : (0 : I64).toInt = 0 := by decide
    simp only [sane_iff, e1, e2, e3, z]
    refine ⟨⟨hi, ?_, ?_, ?_, ?_, ?_⟩, ?_, trivial, trivial⟩ <;> first | omega | simp
  · obtain ⟨c, pad, -, hpad, hdd, rfl⟩ := transform_data (by simpa using hz) ht
    have hl := transform_data_length hP hpad hdd
    have hr := (roundup_spec c.length padAlign (by decide)).1
    rw [← hl] at hr
    clear hl hpad
    have e4 : (toI64 P (c.length : Int)).toInt = c.length := toInt_toI64_nat P _ (by omega)
    have e5 : (toI64 P (d.length : Int)).toInt = d.length := toInt_toI64_nat P _ (by omega)
    simp only [sane_iff, e1, e2, e3, e4, e5]
    refine ⟨⟨hi, ?_, ?_, ?_, ?_, ?_⟩, trivial, trivial, trivial⟩ <;> omega

theorem parseLoop_turn {P : Params} {final : Bool} {p q : DecPart} (hl : frameSize ≤ p.dec.inBuf.length)
    (h : parseTurn P final p = .ok true q) : parseLoop P final p = parseLoop P final q := by
  rw [parseLoop_eq, if_neg (by omega), h]; rfl

theorem follows_skip {P : Params} {e c : Bool} {key : Option Key} {X b : Bytes} {pos : Nat} {p : DecPart}
    (h : Follows P e c key X pos p) (hz : allZero b = true) (hb : ∀ i, i < b.length → X.getD (pos + i) 0 = b.getD i 0) :
    Follows P e c key X (pos + b.length) p := by
  obtain ⟨m, hm, hw, hg⟩ := h.sink
  refine ⟨h.state, h.first, h.keyEq, h.errors, h.warnings, h.batch, h.outLen, m, hm, hw, fun a => ?_⟩
  rw [hg a]
  by_cases ha : a < pos
  · rw [if_pos ha, if_pos (by omega)]
  · rw [if_neg ha]
    split_ifs with h2
    · have h3 := hb (a - pos) (by omega)
      rw [show pos + (a - pos) = a by omega] at h3
      rw [h3]
      have hi : a - pos < b.length := by omega
      have := (allZero_iff b).mp hz b[a - pos] (List.getElem_mem hi)
      simp [hi, this]
    · rfl

theorem follows_items {P : Params} (hP : P.Lawful)
    (hdt : ∀ (P : Params) (cfg : EncCfg) (key : Option Key) (b : Bytes) (p i : I64) (r r' : Nat) (h : BlockHeader) (d :
        Bytes),
      P.Lawful → b.length < 2 ^ 63 → d.length < 2 ^ 63 → 0 ≤ p.toInt →
      transform P cfg key b p.toInt i.toInt r = (some (h, d), r') →
      decodeChunk P cfg.encrypt cfg.compress key h d = (some b, []))
    (hrt : ∀ (k : Kind) (h : k.Record) (f : Bytes), serFrame P k h = some f → parseFrame P f = verdictOf k h)
    {cfg : EncCfg} {key key' : Option Key} {X : Bytes} (hX : X.length < 2 ^ 63) (hkk : cfg.encrypt = true → key' =
        key) :
    ∀ (items : List Item) (pos : Nat) (p : DecPart) (rest : Bytes), Follows P cfg.encrypt cfg.compress key' X pos p →
      p.dec.inBuf = itemsOut items ++ rest → (itemsOut items).length < 2 ^ 63 → ItemsMade P cfg key pos items →
      X.drop pos = itemsSrc items → pos ≤ X.length →
      ∃ q, parseLoop P false p = parseLoop P false q ∧ Follows P cfg.encrypt cfg.compress key' X X.length q ∧
        q.dec.inBuf = rest ∧ q.dec.final = p.dec.final := by
  intro items
  induction items with
  | nil =>
    intro pos p rest hp hin _ _ hx hpx
    have : pos = X.length := by
      have := congrArg List.length hx; simp [itemsSrc] at this; omega
    subst this
    exact ⟨p, rfl, hp, by simpa [itemsOut] using hin, rfl⟩
  | cons it items ih =>
    intro pos p rest hp hin hol hm hx hpx
    have hx' : X.drop pos = it.src ++ itemsSrc items := by simpa [itemsSrc] using hx
    have hlen : pos + it.src.length ≤ X.length := by
      have := congrArg List.length hx'
      simp at this; omega
    have hnext : X.drop (pos + it.src.length) = itemsSrc items := by
      rw [← List.drop_drop, hx', List.drop_left]
    have hget : ∀ i, i < it.src.length → X.getD (pos + i) 0 = it.src.getD i 0 := by
      intro i hi
      have h1 : (X.drop pos)[i]? = it.src[i]? := by rw [hx', List.getElem?_append_left hi]
      rw [List.getElem?_drop] at h1
      simp only [List.getD_eq_getElem?_getD, h1]
    have hout : itemsOut (it :: items) = it.out ++ itemsOut items := by simp [itemsOut]
    rw [hout] at hin hol
    simp only [List.length_append] at hol
    rcases hm.1 with ⟨h1, h2⟩ | ⟨idx, r, r', h, d, t, fb, hidx, ht, hs, ho⟩
    · rw [h1] at hin
      exact ih _ p rest (follows_skip hp h2 hget) (by simpa using hin) (by omega) hm.2 hnext hlen
    · rw [ho] at hin hol
      simp only [List.length_append] at hol
      have hfl : fb.length = 4096 := serFrame_length hP hs
      obtain ⟨s1, s2, s3, s4⟩ := transform_sane hP (d := d) hidx (by omega) (by omega) ht
      have hpos : (toI64 P (pos : Int)).toInt = pos := toInt_toI64_nat P pos (by omega)
      have b1 : it.src.length < 2 ^ 63 := Nat.lt_of_le_of_lt ((Nat.le_add_left _ _).trans hlen) hX
      have b2 : d.length < 2 ^ 63 := Nat.lt_of_le_of_lt ((Nat.le_add_left _ _).trans (Nat.le_add_right _ _)) hol
      have hdec := hdt P cfg key it.src (toI64 P (pos :
          Int)) idx r r' h d hP b1 b2 (by rw [hpos]; exact Int.natCast_nonneg _) (by rw [hpos]; exact ht)
      have hdec' : decodeChunk P cfg.encrypt cfg.compress key' h d = (some it.src, []) := by
        rw [← hdec]
        by_cases he : cfg.encrypt = true
        · rw [hkk he]
        · simp [decodeChunk, he]
      obtain ⟨q, hq, hq2, hq3, hq4⟩ := follows_block (h := { h with timestamp := t }) (d := d) (b := it.src) (fb := fb)
        (rest := itemsOut items ++
            rest) hp (by rw [hin]; simp [List.append_assoc]) hfl (hrt .block _ fb hs) s1 s2 s3 s4 hlen hget (.inr hdec') hX
      obtain ⟨u, hu1, hu2, hu3, hu4⟩ := ih _ q rest hq2 hq3 (by omega) hm.2 hnext hlen
      refine ⟨u, ?_, hu2, hu3, hu4.trans hq4⟩
      rw [parseLoop_turn ?_ hq, hu1]
      rw [hin]; simp only [List.length_append, hfl, frameSize]; omega

/-- The start of an archive: the FirstHeader is accepted, its repeat is skipped. -/
theorem follows_start {P : Params} (hP : P.Lawful)
    (hrt : ∀ (k : Kind) (h : k.Record) (f : Bytes), serFrame P k h = some f → parseFrame P f = verdictOf k h)
    {par : Nat} {pw ff rest X : Bytes} {h : FirstHeader} {key : Option Key} (hpar : 1 ≤ par)
    (hs : serFrame P .first h = some ff) (hv : h.version = formatVersion)
    (hk : unwrapKey P h pw = .ok key) :
    ∃ q, parseLoop P false ⟨{ (openDecode par pw) with inBuf := ff ++ ff ++ rest }, []⟩ = parseLoop P false q ∧
      Follows P h.encrypted h.compressed key X 0 q ∧ q.dec.inBuf = rest ∧ q.dec.final = none := by
  have hfl : ff.length = 4096 := serFrame_length hP hs
  have hpf := hrt .first h ff hs
  have hkey : (if h.encrypted = true then key else none) = key := by
    unfold unwrapKey at hk
    split_ifs at hk ⊢ with he
    · rfl
    · injection hk
  let opened (buf : Bytes) (cursor : Nat) : Dec := { (openDecode par pw) with
    inBuf := buf
    cursor := cursor
    state := .streaming
    first := some h
    key := key }
  refine ⟨⟨opened rest 8192, []⟩, ?_,
    ⟨rfl, rfl, rfl, rfl, rfl, hpar, Nat.zero_le _, [], pending_nil _ _ _ _ _, rfl, fun a => by simp⟩, rfl, rfl⟩
  have t1 : parseTurn P false ⟨{ (openDecode par pw) with inBuf := ff ++ ff ++ rest }, []⟩ =
      .ok true ⟨opened (ff ++ rest) 4096, []⟩ := by
    unfold parseTurn
    dsimp only
    rw [if_pos (show (openDecode par pw).state = .awaitFirst from rfl), show (ff ++ ff ++ rest).take frameSize = ff by
      rw [List.append_assoc]; simp only [frameSize, ← hfl, List.take_left], hpf]
    simp only [verdictOf, acceptFirst]
    rw [if_neg (not_not.mpr hv)]
    have : (openDecode par pw).password = pw := rfl
    simp only [this, hk, consume]
    have hd : (ff ++ ff ++ rest).drop frameSize = ff ++ rest := by
      rw [List.append_assoc]; simp only [frameSize, ← hfl, List.drop_left]
    rw [hd, show (openDecode par pw).key = none from rfl, hkey]
    rfl
  have t2 : parseTurn P false ⟨opened (ff ++ rest) 4096, []⟩ = .ok true ⟨opened rest 8192, []⟩ := by
    unfold parseTurn
    dsimp only
    rw [if_neg (by simp [opened]), show (opened (ff ++ rest) 4096).inBuf.take frameSize = ff by
      simp only [opened, frameSize, ← hfl, List.take_left], hpf]
    simp only [verdictOf, parseStreaming, consume, opened]
    have hd : (ff ++ rest).drop frameSize = rest := by simp only [frameSize, ← hfl, List.drop_left]
    rw [hd]
    rfl
  rw [parseLoop_turn (by simp only [List.length_append, hfl, frameSize]; omega) t1,
      parseLoop_turn (by simp only [opened, List.length_append, hfl, frameSize]; omega) t2]


theorem follows_final {P : Params} {e c : Bool} {key : Option Key} {X : Bytes} {pos : Nat} {p : DecPart} {fz rest :
    Bytes}
    {fin : FinalHeader} (hp : Follows P e c key X pos p) (hin : p.dec.inBuf = fz ++ rest) (hfl : fz.length = 4096)
    (hfz : parseFrame P fz = .final fin) (hf : p.dec.final = none ∨ p.dec.final = some fin) :
    ∃ q, parseTurn P false p = .ok true q ∧ Follows P e c key X pos q ∧ q.dec.inBuf = rest ∧ q.dec.final = some fin := by
  have h1 : p.dec.inBuf.take frameSize = fz := by rw [hin]; simp only [frameSize, ← hfl, List.take_left]
  have h2 : p.dec.inBuf.drop frameSize = rest := by rw [hin]; simp only [frameSize, ← hfl, List.drop_left]
  unfold parseTurn
  dsimp only
  rw [if_neg (by rw [hp.state]; simp), h1, hfz]
  refine ⟨_, rfl, ⟨hp.state, hp.first, hp.keyEq, hp.errors, hp.warnings, hp.batch, hp.outLen, hp.sink⟩, h2, ?_⟩
  show some (p.dec.final.getD fin) = some fin
  rcases hf with h | h <;> rw [h] <;> rfl

theorem follows_end {P : Params} {e c : Bool} {key : Option Key} {X : Bytes} {p : DecPart} {fin : FinalHeader}
    (hX : X.length < 2 ^ 63) (hp : Follows P e c key X X.length p) (hin : p.dec.inBuf = []) (hf : p.dec.final =
        some fin)
    (ht : fin.totalSourceSize.toInt = X.length) (hs : fin.sourceSha1 = P.sha1 X) :
    ∃ r, finishDecode P p = .ok () r ∧ r.dec.state = .finalized ∧ r.dec.errors = 0 ∧ r.dec.warnings = 0 ∧
      r.dec.outLen = X.length ∧ Memory.readBytes r.sink 0 X.length = X := by
  obtain ⟨m, hm, hw, hg⟩ := hp.sink
  have hread : Memory.readBytes m 0 X.length = X := by
    apply List.ext_getElem
    · simp [Memory.readBytes]
    · intro i h1 h2
      simp [Memory.readBytes, hg, h2]
  unfold finishDecode
  rw [parseLoop_eq, if_pos (by rw [hin]; simp [frameSize])]
  simp only [Run.bind]
  unfold drainDecode
  rw [if_neg (by rw [hp.state]; simp)]
  have hdt : dropTail p.dec = p.dec := by unfold dropTail; rw [hin]; rfl
  dsimp only
  rw [hdt]
  have fin' : ∀ d : Dec, d.final = some fin → d.outLen ≤ X.length → d.errors = 0 → d.warnings = 0 →
      ∃ r, closeDecode P ⟨d, m⟩ = .ok () r ∧ r.dec.state = .finalized ∧ r.dec.errors = 0 ∧ r.dec.warnings = 0 ∧
      r.dec.outLen = X.length ∧ Memory.readBytes r.sink 0 X.length = X := by
    intro d h1 h2 h3 h4
    have h2' : d.outLen ≤ 2 ^ 63 - 1 := by omega
    rcases closeDecode_cases P ⟨d, m⟩ h2' with ⟨h5, -⟩ | ⟨f, o, ev, h5, h6, h7, h8⟩
    · rw [show d.final = none from h5] at h1; cases h1
    · have : f = fin := Option.some.inj ((show d.final = some f from h5).symm.trans h1)
      subst this
      have ho : o = X.length := by
        rw [h6, ht, if_pos (Int.natCast_nonneg _)]
        simpa using h2
      rw [ho, hread, hs] at h7
      rw [if_pos rfl] at h7
      subst h7
      rw [noteEvents_nil] at h8
      exact ⟨_, h8, rfl, h3, h4, ho, hread⟩
  split_ifs with hb
  · have hb' : p.dec.batch = [] := by simpa using hb
    have : p.sink = m := by
      obtain ⟨n, hn⟩ := hm p.dec
      rw [hb'] at hn
      simp only [List.map_nil, writeAll] at hn
      injection hn with _ hn
      exact congrArg DecPart.sink hn
    rw [← this] at fin'
    exact fin' p.dec hf hp.outLen hp.errors hp.warnings
  · obtain ⟨n, hn⟩ := follows_runBatch hp.first hp.keyEq hm
    rw [show ({ dec := p.dec, sink := p.sink } : DecPart) = p from rfl, hn]
    exact fin' { (noteEvents [] n p.dec) with batch := [] } hf hp.outLen hp.errors hp.warnings

end Sys2Proof.Machine
end

