-- ==== Sys2Proof/Laws/Exec.lean ====
section
/-! SUPPORT. How each command can end: one lemma per command that says every way it answers and what it then leaves
(spec/45_control.md R355, R364), and the CSR table. -/

namespace Sys2Proof.Machine

theorem setEncPart_encPart (s : State) : setEncPart (encPart s) s = s := rfl

theorem setDecPart_decPart (s : State) : setDecPart (decPart s) s = s := rfl

/-- a command of ENC: it answers `r` and leaves ENC's part at `p` -/
theorem encEnd_shape {α : Type} (r : Run EncFatal EncPart α) (f : α → Response) (s : State) :
    ∃ q p, encEnd r f s = complete q (setEncPart p s) ∧
      ((∃ a, r = .ok a p ∧ q = f a) ∨ ∃ c p', r = .stop c p' ∧ q = statusResponse .fatal ∧
        p = { p' with enc := { p'.enc with fatal := some c, state := .failed } }) := by
  cases r with
  | ok a p => exact ⟨_, p, rfl, .inl ⟨a, rfl, rfl⟩⟩
  | stop c p => exact ⟨statusResponse .fatal, { p with enc := { p.enc with fatal := some c, state := .failed } }, rfl,
      .inr ⟨c, p, rfl, rfl, rfl⟩⟩

/-- Every way ENC.INIT can end (R251). -/
theorem encInit_shape (P : Params) (s : State) :
    (s.enc.state ≠ .idle ∧ encInit P s = completeStatus .badState s) ∨
    (s.enc.state = .idle ∧ optionsLegal (sampleOptions s.csr) = false ∧ encInit P s = completeStatus .badOperand s) ∨
    (s.enc.state = .idle ∧ optionsLegal (sampleOptions s.csr) = true ∧
      encInit P s = completeStatus .ok (setEncPart (openArchive P (sampleOptions s.csr) s.ops.data (encPart s)) s))  := by
  unfold encInit
  by_cases h : s.enc.state = .idle <;> by_cases h' : optionsLegal (sampleOptions s.csr) = true <;>
    simp [h, h', operandData]

/-- Every way ENC.WRITE can end (R256). -/
theorem encWrite_shape (P : Params) (s : State) :
    (s.enc.state ≠ .active ∧ encWrite P s = completeStatus .badState s) ∨
    (s.enc.state = .active ∧ maxSource < s.enc.srcLog.length + s.ops.data.length ∧ encWrite P s =
        completeStatus .badOperand s) ∨
    (s.enc.state = .active ∧ s.enc.srcLog.length + s.ops.data.length ≤ maxSource ∧
      encWrite P s = encEnd (acceptBytes P s.ops.data (encPart s)) (fun _ => statusResponse .ok) s) := by
  unfold encWrite
  by_cases h : s.enc.state = .active <;> by_cases h' : maxSource < s.enc.srcLog.length + s.ops.data.length <;>
    simp [h, h', operandData]
  omega

/-- Every way ENC.FINAL can end (R277). -/
theorem encFinal_shape (P : Params) (s : State) :
    (s.enc.state = .finalized ∧ encFinal P s = complete (finalResponse s.enc.final) s) ∨
    (s.enc.state = .active ∧ encFinal P s = encEnd (finishArchive P (encPart s)) (fun h => finalResponse (some h)) s) ∨
    ((s.enc.state = .idle ∨ s.enc.state = .failed) ∧ encFinal P s = completeStatus .badState s) := by
  unfold encFinal
  cases s.enc.state <;> simp

/-- Every way DEC.INIT can end (R300). -/
theorem decInit_shape (s : State) :
    (s.dec.state ≠ .idle ∧ execDecInit s = .next (completeStatus .badState s)) ∨
    (s.dec.state = .idle ∧ execDecInit s = .next (completeStatus .ok
      { s with dec := openDecode s.csr.parallelism.toNat s.ops.data, input := [] })) := by
  unfold execDecInit
  by_cases h : s.dec.state = .idle <;> simp [h, operandData]

/-- A command of DEC that answers: with OK, or FATAL and DEC failed (R410). -/
theorem decEnd_next {r : Run DecStop DecPart Unit} {s t : State} (h : decEnd r s = .next t) :
    ∃ p, t = complete (statusResponse (match r with | .ok _ _ => .ok | .stop _ _ => .fatal)) (setDecPart p s) ∧
      (r = .ok () p ∨ ∃ c q, r = .stop (.fatal c) q ∧ p = { q with dec :=
          { q.dec with fatal := some c, state := .failed } }) := by
  cases r with
  | ok a p => cases h; exact ⟨p, rfl, .inl rfl⟩
  | stop e p =>
    cases e with
    | fatal c => cases h; exact ⟨{ p with dec := { p.dec with fatal := some c, state := .failed } }, rfl,
        .inr ⟨c, p, rfl, rfl⟩⟩
    | fault f => cases h

/-- Every way DEC.FEED can end (R303). -/
theorem decFeed_shape (P : Params) (s : State) :
    (decRunning s.dec = false ∧ decFeed P s = .next (completeStatus .badState s)) ∨
    (decRunning s.dec = true ∧ decFeed P s =
        decEnd (parseLoop P false (decPart (takeInput s.ops.data s))) (takeInput s.ops.data s)) := by
  unfold decFeed
  by_cases h : decRunning s.dec = true <;> simp [h, operandData]

/-- Every way DEC.FINAL can end (R330). -/
theorem decFinal_shape (P : Params) (s : State) :
    (s.dec.state = .finalized ∧ decFinal P s = .next (completeStatus .ok s)) ∨
    (s.dec.state ≠ .finalized ∧ decRunning s.dec = false ∧ decFinal P s = .next (completeStatus .badState s)) ∨
    (s.dec.state ≠ .finalized ∧ decRunning s.dec = true ∧ decFinal P s = decEnd (finishDecode P (decPart s)) s) := by
  unfold decFinal
  by_cases h : s.dec.state = .finalized <;> by_cases h' : decRunning s.dec = true <;> simp [h, h']

/-- Every way CSR.WR can end (R362). -/
theorem csrWr_shape (P : Params) (a : CsrAddr) (s : State) :
    csrWr P a s = completeStatus .badOperand s ∨
    ∃ c, csrAt a = some c ∧ csrAccess c ≠ .ro ∧ csrWr P a s = completeStatus .ok (writeCsr P c s.ops.value s) := by
  unfold csrWr
  cases h : csrAt a with
  | none => simp
  | some c =>
    by_cases h' : csrAccess c = .ro
    · simp [h']
    · right; exact ⟨c, rfl, h', by simp [h', operandValue]⟩

/-- Every way a command of SCU can end (R203, R204). -/
theorem cipher_shape (s : State) (r : Option Bytes) : ∃ q, cipherAnswer r s = complete q s ∧
    (q.status = .ok ∨ q = statusResponse .badOperand) := by
  cases r <;> exact ⟨_, rfl, by simp [statusResponse]⟩

/-- Every way SC.ENC can end (R203). -/
theorem scEnc_shape (P : Params) (s : State) : ∃ q, scEnc P s = complete q s ∧
    (q.status = .ok ∨ q = statusResponse .badOperand) := by
  unfold scEnc; split
  · exact ⟨_, rfl, by simp⟩
  · exact cipher_shape _ _

/-- Every way SC.DEC can end (R204). -/
theorem scDec_shape (P : Params) (s : State) : ∃ q, scDec P s = complete q s ∧
    (q.status = .ok ∨ q = statusResponse .badOperand) := by
  unfold scDec; split
  · exact ⟨_, rfl, by simp⟩
  · exact cipher_shape _ _

/-- Every way a FR.SER command can end (R226 to R228). -/
theorem frSer_shape (P : Params) (k : Kind) (s : State) : ∃ q, frSer P k s = complete q s ∧
    (q.status = .ok ∨ q = statusResponse .badOperand ∨ q = statusResponse .serOverflow) := by
  unfold frSer; split
  · exact ⟨_, rfl, by simp⟩
  · split <;> exact ⟨_, rfl, by simp [statusResponse]⟩

/-- Every way FR.PARSE can end (R229). -/
theorem frParse_shape (P : Params) (s : State) : ∃ q, frParse P s = complete q s ∧
    (q.status = .ok ∨ q = statusResponse .badOperand) := by
  unfold frParse; split
  · exact ⟨_, rfl, by simp⟩
  · exact ⟨_, rfl, by simp [statusResponse]⟩

/-- Every way CSR.RD can end (R361). -/
theorem csrRd_shape (a : CsrAddr) (s : State) : ∃ q, execCsrRd a s = .next (answer q s) ∧
    (q.status = .ok ∨ q = statusResponse .badOperand) := by
  unfold execCsrRd; split <;> exact ⟨_, rfl, by simp [statusResponse]⟩

theorem next_inj {a b : State} (h : (Host.Outcome.next a : Host.Outcome State Fault Refusal) = .next b) : a = b :=
    by injection h

theorem decEnd_ops (r : Run DecStop DecPart Unit) (s : State) (o : Operands) :
    (∀ t, decEnd r s = .next t → decEnd r { s with ops := o } = .next { t with ops := o }) ∧
    (∀ f, decEnd r s = .fault f → decEnd r { s with ops := o } = .fault f) := by
  cases r with
  | ok a p => exact ⟨fun t h => by cases h; rfl, fun f h => by cases h⟩
  | stop e p => cases e <;> exact ⟨fun t h => by cases h <;> rfl, fun f h => by cases h <;> rfl⟩

theorem encEnd_ops {α : Type} (r : Run EncFatal EncPart α) (f) (s : State) (o : Operands) :
    encEnd r f { s with ops := o } = { encEnd r f s with ops := o } := by
  cases r <;> rfl

theorem writeCsr_frame (P : Params) (c : Csr) (v : U64) (s : State) (e : State) (he : writeCsr P c v s = e) :
    (¬ (c = .ctrl ∧ v.getLsbD 0 = true) → e.enc = s.enc) ∧ (¬ (c = .ctrl ∧ v.getLsbD 1 = true) → e.dec = s.dec) ∧
    e.out = s.out ∧ e.input = s.input ∧ e.sink = s.sink ∧ e.nowDraws = s.nowDraws ∧ e.randDraws = s.randDraws ∧
    e.cmds = s.cmds ∧ e.ops = s.ops := by
  subst he
  cases c <;> simp [writeCsr]
  split_ifs <;> simp_all

theorem mem_mappedCsrs (c : Csr) : c ∈ mappedCsrs := by cases c <;> decide

theorem csrAt_some {a : CsrAddr} {c : Csr} (h : csrAt a = some c) : a = csrAddress c := by
  have := List.find?_some h
  simp only [beq_iff_eq] at this
  exact this.symm

theorem csrAt_none {a : CsrAddr} (h : csrAt a = none) (c : Csr) : a ≠ csrAddress c := by
  intro e
  have := List.find?_eq_none.mp h c (mem_mappedCsrs c)
  simp [e] at this

theorem csrAt_address (c : Csr) : csrAt (csrAddress c) = some c := by cases c <;> decide

/-- An update of one side commutes with the commands of SCU and FCU, which only answer. -/
theorem answer_only_commutes (P : Params) (U : State → State) (hops : ∀ s, (U s).ops = s.ops)
    (hU : ∀ q s, complete q (U s) = U (complete q s)) (s : State) :
    scEnc P (U s) = U (scEnc P s) ∧ scDec P (U s) = U (scDec P s) ∧ (∀ k, frSer P k (U s) = U (frSer P k s)) ∧
      frParse P (U s) = U (frParse P s) := by
  refine ⟨?_, ?_, fun k => ?_, ?_⟩
  · simp only [scEnc, hops]; split
    · exact hU _ _
    · unfold cipherAnswer; split <;> exact hU _ _
  · simp only [scDec, hops]; split
    · exact hU _ _
    · unfold cipherAnswer; split <;> exact hU _ _
  · simp only [frSer, hops]; split
    · exact hU _ _
    · split <;> exact hU _ _
  · simp only [frParse, hops]; split <;> exact hU _ _

/-- How a procedure of ENC ends neither reads nor writes DEC, the IN stream and SINK (R124). -/
theorem encEnd_dec {α : Type} (r : Run EncFatal EncPart α) (f) (s : State) (d : Dec) (b : Bytes) (m : Sink) :
    encEnd r f { s with dec := d, input := b, sink := m } = { encEnd r f s with dec := d, input := b, sink := m } := by
  cases r <;> rfl

/-- How a procedure of ENC ends writes no CSR but CMD_STATUS. -/
theorem encEnd_csr {α : Type} (r : Run EncFatal EncPart α) (f : α → Response) (s : State) :
    (encEnd r f s).csr = { s.csr with cmdStatus := (encEnd r f s).csr.cmdStatus } := by
  cases r <;> rfl

/-- How a procedure of DEC ends neither reads nor writes ENC, OUT and the draws (R124). -/
theorem decEnd_enc (r' : Run DecStop DecPart Unit) (s t : State) (e : Enc) (o : Bytes) (n r : Nat)
    (h : decEnd r' s = .next t) :
    decEnd r' { s with enc := e, out := o, nowDraws := n, randDraws := r } =
      .next { t with enc := e, out := o, nowDraws := n, randDraws := r } := by
  cases r' with
  | ok a p => cases h; rfl
  | stop st p => cases st <;> cases h; rfl

/-- How a procedure of DEC ends writes no CSR but CMD_STATUS. -/
theorem decEnd_csr (r : Run DecStop DecPart Unit) {s t : State} (h : decEnd r s = .next t) :
    t.csr = { s.csr with cmdStatus := t.csr.cmdStatus } := by
  cases r with
  | ok a p => cases h; rfl
  | stop st p => cases st <;> cases h; rfl

end Sys2Proof.Machine
end

