-- ==== Sys2Proof/Laws/PerInstr.lean ====
section
/-! SUPPORT. The statements made per command: which fields a command's word has (spec/30_encoding.md R140, R147). -/

namespace Sys2Proof.Laws

/-- The CSR address a command's word carries: 0 but for CSR.RD and CSR.WR (R140, R146). -/
def wordAddress : Instr → CsrAddr
  | .nop => 0
  | .csrRd a => a
  | .csrWr a => a
  | .scEnc => 0
  | .scDec => 0
  | .frSerFirst => 0
  | .frSerBlock => 0
  | .frSerFinal => 0
  | .frParse => 0
  | .encInit => 0
  | .encWrite => 0
  | .encFinal => 0
  | .decInit => 0
  | .decFeed => 0
  | .decFinal => 0

/-- The word of a command passes the checks every word passes, its RSV field is 0, and its CSRA field is the address the
command names, 0 if it names none. -/
def WordFields.Statement (i : Instr) : Prop :=
  wordWellFormed (encode i) = true ∧ wordRsv (encode i) = 0 ∧ wordCsra (encode i) = wordAddress i

theorem WordFields.nop : WordFields.Statement .nop := by unfold WordFields.Statement; decide

theorem WordFields.csrRd (a : CsrAddr) : WordFields.Statement (.csrRd a) := by
  have hu : wordUnit (encode (.csrRd a)) = 0 := by
    ext i hi; simp only [wordUnit, encode]; interval_cases i <;> simp
  have hr : wordRsv (encode (.csrRd a)) = 0 := by
    ext i hi; simp only [wordRsv, encode]; interval_cases i <;> simp
  refine ⟨?_, hr, ?_⟩
  · simp only [wordUnit, wordRsv] at hu hr
    simp [wordWellFormed, wordRsvZero, wordUnitKnown, hu, hr]
  · ext i hi; simp only [wordCsra, wordAddress, encode]; interval_cases i <;> simp

theorem WordFields.csrWr (a : CsrAddr) : WordFields.Statement (.csrWr a) := by
  have hu : wordUnit (encode (.csrWr a)) = 0 := by
    ext i hi; simp only [wordUnit, encode]; interval_cases i <;> simp
  have hr : wordRsv (encode (.csrWr a)) = 0 := by
    ext i hi; simp only [wordRsv, encode]; interval_cases i <;> simp
  refine ⟨?_, hr, ?_⟩
  · simp only [wordUnit, wordRsv] at hu hr
    simp [wordWellFormed, wordRsvZero, wordUnitKnown, hu, hr]
  · ext i hi; simp only [wordCsra, wordAddress, encode]; interval_cases i <;> simp

theorem WordFields.scEnc : WordFields.Statement .scEnc := by unfold WordFields.Statement; decide

theorem WordFields.scDec : WordFields.Statement .scDec := by unfold WordFields.Statement; decide

theorem WordFields.frSerFirst : WordFields.Statement .frSerFirst := by unfold WordFields.Statement; decide

theorem WordFields.frSerBlock : WordFields.Statement .frSerBlock := by unfold WordFields.Statement; decide

theorem WordFields.frSerFinal : WordFields.Statement .frSerFinal := by unfold WordFields.Statement; decide

theorem WordFields.frParse : WordFields.Statement .frParse := by unfold WordFields.Statement; decide

theorem WordFields.encInit : WordFields.Statement .encInit := by unfold WordFields.Statement; decide

theorem WordFields.encWrite : WordFields.Statement .encWrite := by unfold WordFields.Statement; decide

theorem WordFields.encFinal : WordFields.Statement .encFinal := by unfold WordFields.Statement; decide

theorem WordFields.decInit : WordFields.Statement .decInit := by unfold WordFields.Statement; decide

theorem WordFields.decFeed : WordFields.Statement .decFeed := by unfold WordFields.Statement; decide

theorem WordFields.decFinal : WordFields.Statement .decFinal := by unfold WordFields.Statement; decide

end Sys2Proof.Laws
end

