-- ==== Sys2Proof/Laws/Rc1.lean ====
section
/-! SUPPORT. The parts of RC1 (spec/30_encoding.md R163 to R170): each value read back from its text, and its characters
printable. -/

namespace Sys2Proof.Machine

theorem eat_append (p b : Bytes) : eat p (p ++ b) = some b := by
  induction p with
  | nil => rfl
  | cons x p ih => simp [eat, ih]

/-- No byte of this kind at the head of a text. -/
def headNot (f : Byte → Bool) : Bytes → Prop
  | [] => True
  | x :: _ => f x = false

theorem takeWhile_head {f : Byte → Bool} {a r : Bytes} (ha : ∀ x ∈ a, f x = true) (hr : headNot f r) :
    (a ++ r).takeWhile f = a ∧ (a ++ r).dropWhile f = r := by
  induction a with
  | nil => cases r with
    | nil => simp
    | cons x r => simp only [headNot] at hr; simp [hr]
  | cons y a ih =>
    have hy := ha y (by simp)
    obtain ⟨h1, h2⟩ := ih (fun x hx => ha x (by simp [hx]))
    simp [hy, h1, h2]

theorem digitChar_val (d : Nat) (h : d < 10) : (digitChar d).toNat = 0x30 + d := by
  simp [digitChar]; omega

theorem digitChar_isDigit (d : Nat) (h : d < 10) : isDigitChar (digitChar d) = true := by
  simp [isDigitChar, digitChar_val d h]; omega

theorem decimalNat_digits (n : Nat) : ∀ x ∈ decimalNat n, isDigitChar x = true := by
  unfold decimalNat
  split_ifs
  · intro x hx; simp at hx; subst hx; decide
  · intro x hx
    simp only [List.mem_reverse, List.mem_map] at hx
    obtain ⟨d, hd, rfl⟩ := hx
    exact digitChar_isDigit d (Nat.digits_lt_base (by decide) hd)

theorem decimalNat_ne_nil (n : Nat) : decimalNat n ≠ [] := by
  unfold decimalNat
  split_ifs with h
  · simp
  · simp [h, Nat.digits_ne_nil_iff_ne_zero]

theorem digitsValue_reverse (l : List Nat) (h : ∀ d ∈ l, d < 10) : digitsValue ((l.map digitChar).reverse) =
    Nat.ofDigits 10 l := by
  unfold digitsValue
  rw [List.foldl_reverse]
  induction l with
  | nil => rfl
  | cons d l ih =>
    simp only [List.map_cons, List.foldr_cons, Nat.ofDigits_cons]
    rw [ih (fun x hx => h x (by simp [hx])), digitChar_val d (h d (by simp))]
    simp; omega

theorem digitsValue_decimalNat (n : Nat) : digitsValue (decimalNat n) = n := by
  unfold decimalNat
  split_ifs with h
  · subst h; decide
  · rw [digitsValue_reverse _ (fun d hd => Nat.digits_lt_base (by decide) hd), Nat.ofDigits_digits]

theorem readInt_rc1Int (v : I64) (r : Bytes) (hr : headNot isDigitChar r) : readInt (rc1Int v ++ r) = some (v, r) := by
  unfold rc1Int
  have hd := takeWhile_head (decimalNat_digits v.toInt.natAbs) hr
  have hne : (decimalNat v.toInt.natAbs).isEmpty = false := by
    cases h : decimalNat v.toInt.natAbs with
    | nil => exact absurd h (decimalNat_ne_nil _)
    | cons => rfl
  split_ifs with hv
  · have : eat [0x2D] (0x2D :: decimalNat v.toInt.natAbs ++ r) = some (decimalNat v.toInt.natAbs ++ r) := by simp [eat]
    unfold readInt
    rw [this]; try dsimp only
    rw [hd.1, hd.2, hne, digitsValue_decimalNat]
    have : -(v.toInt.natAbs : Int) = v.toInt := by omega
    rw [this]; simp
  · have : eat [0x2D] (decimalNat v.toInt.natAbs ++ r) = none := by
      cases h : decimalNat v.toInt.natAbs with
      | nil => exact absurd h (decimalNat_ne_nil _)
      | cons x l =>
        have := decimalNat_digits v.toInt.natAbs x (by simp [h])
        have hx : (0x2D : Byte) ≠ x := by rintro rfl; revert this; decide
        simp [eat]; intro h; exact absurd h hx
    unfold readInt
    rw [this]; try dsimp only
    rw [hd.1, hd.2, hne, digitsValue_decimalNat]
    have : (v.toInt.natAbs : Int) = v.toInt := by omega
    rw [this]; simp

theorem readBool_rc1Bool (b : Bool) (r : Bytes) : readBool (rc1Bool b ++ r) = some (b, r) := by
  cases b
  · have h1 : eat (ascii "true") (rc1Bool false ++ r) = none := by
      have : ascii "true" = [0x74, 0x72, 0x75, 0x65] := by decide
      have : rc1Bool false = [0x66, 0x61, 0x6C, 0x73, 0x65] := by decide
      simp_all [eat]
    unfold readBool; rw [h1]
    simp only [rc1Bool, Bool.false_eq_true, if_false, eat_append]
  · unfold readBool
    simp only [rc1Bool, if_true, eat_append]

theorem hexValue_hexDigit : ∀ n < 16, hexValue (hexDigit n) = some n := by decide

theorem hexByte_hexPair (x : Byte) : hexByte (hexDigit (x.toNat / 16)) (hexDigit (x.toNat % 16)) = some x := by
  unfold hexByte
  rw [hexValue_hexDigit _ (by omega), hexValue_hexDigit _ (by omega)]
  simp only [Option.some.injEq]
  rw [Nat.div_add_mod]; simp

theorem unHex_toHex (b : Bytes) : unHex (toHex b) = some b := by
  induction b with
  | nil => rfl
  | cons x b ih =>
    have : toHex (x :: b) = hexDigit (x.toNat / 16) :: hexDigit (x.toNat % 16) :: toHex b := by simp [toHex, hexPair]
    rw [this, unHex, hexByte_hexPair, ih]

theorem toHex_chars (b : Bytes) : ∀ x ∈ toHex b, (hexValue x).isSome = true := by
  intro x hx
  simp only [toHex, List.mem_flatMap, hexPair, List.mem_cons, List.not_mem_nil, or_false] at hx
  obtain ⟨y, -, rfl | rfl⟩ := hx <;> rw [hexValue_hexDigit _ (by omega)] <;> rfl

theorem readHex_rc1Hex (b r : Bytes) : readHex (rc1Hex b ++ r) = some (b, r) := by
  have h1 : eat [0x22] (rc1Hex b ++ r) = some (toHex b ++ (0x22 :: r)) := by simp [rc1Hex, rc1Quote, eat]
  have h2 := takeWhile_head (f := fun x => (hexValue x).isSome) (toHex_chars b) (r :=
      0x22 :: r) (by show (hexValue 0x22).isSome = false; decide)
  unfold readHex
  rw [h1]
  simp only [Option.bind_eq_bind, Option.bind_some]
  rw [h2.1, h2.2, unHex_toHex]
  simp [eat]

theorem readDigest_rc1Hex (d : Digest) (r : Bytes) : readDigest (rc1Hex d.val ++ r) = some (d, r) := by
  unfold readDigest
  rw [readHex_rc1Hex]
  simp [fixedBytes_ofBytes_val]

theorem readEscaped_quote (r : Bytes) : readEscaped (0x22 :: r) = some ([], r) := by
  rw [readEscaped.eq_def]; dsimp only; rw [if_pos rfl]

theorem readEscaped_plain (x : Byte) (r : Bytes) (h1 : x ≠ 0x22) (h2 : x ≠ 0x5C) :
    readEscaped (x :: r) = (readEscaped r).map fun p => (x :: p.1, p.2) := by
  rw [readEscaped.eq_def]; dsimp only; rw [if_neg h1, if_neg h2]

theorem readEscaped_pair (y : Byte) (r : Bytes) (h : y = 0x22 ∨ y = 0x5C) :
    readEscaped (0x5C :: y :: r) = (readEscaped r).map fun p => (y :: p.1, p.2) := by
  rw [readEscaped.eq_def]; dsimp only; rw [if_neg (by decide), if_pos rfl, if_pos h]

theorem readEscaped_hex (hi lo : Byte) (r : Bytes) :
    readEscaped (0x5C :: 0x75 :: 0x30 :: 0x30 :: hi :: lo :: r) =
      match hexByte hi lo, readEscaped r with
      | some v, some p => some (v :: p.1, p.2)
      | _, _ => none := by
  rw [readEscaped.eq_def]; dsimp only; rw [if_neg (by decide), if_pos rfl, if_neg (by decide), if_pos (by decide)] <;>
    cases hexByte hi lo <;> cases readEscaped r <;> rfl

theorem readEscaped_escape (b r : Bytes) : readEscaped (b.flatMap rc1Escape ++ 0x22 :: r) = some (b, r) := by
  induction b with
  | nil => exact readEscaped_quote r
  | cons x b ih =>
    rw [List.flatMap_cons, List.append_assoc]
    generalize b.flatMap rc1Escape ++ 0x22 :: r = t at ih
    unfold rc1Escape
    split_ifs with h1 h2 h3
    · subst h1
      show readEscaped (0x5C :: 0x22 :: t) = _
      rw [readEscaped_pair _ _ (.inl rfl), ih]; rfl
    · subst h2
      show readEscaped (0x5C :: 0x5C :: t) = _
      rw [readEscaped_pair _ _ (.inr rfl), ih]; rfl
    · show readEscaped (x :: t) = _
      rw [readEscaped_plain _ _ h1 h2, ih]; rfl
    · show readEscaped (0x5C :: 0x75 :: 0x30 :: 0x30 :: hexDigit (x.toNat / 16) :: hexDigit (x.toNat % 16) :: t) = _
      rw [readEscaped_hex, hexByte_hexPair, ih]

theorem readText_rc1Text (b r : Bytes) : readText (rc1Text b ++ r) = some (b, r) := by
  have h1 : eat [0x22] (rc1Text b ++ r) = some (b.flatMap rc1Escape ++ 0x22 :: r) := by
    show eat [0x22] (0x22 :: _ ++ r) = _
    simp [eat]
  unfold readText
  rw [h1]
  exact readEscaped_escape b r

theorem headNot_next (name : String) (r : Bytes) : headNot isDigitChar (nextMember name ++ r) := by
  show isDigitChar 0x2C = false; decide

theorem headNot_close (r : Bytes) : headNot isDigitChar ([0x7D] ++ r) := by
  show isDigitChar 0x7D = false; decide

theorem rc1SerFirst_eq (h : FirstHeader) : rc1SerFirst h =
    openMember "version" ++ (rc1Int h.version ++ (nextMember "encrypted" ++ (rc1Bool h.encrypted ++
    (nextMember "compressed" ++ (rc1Bool h.compressed ++ (nextMember "saltedPassword" ++ (rc1Hex h.saltedPassword ++
    (nextMember "wrappedMasterKey" ++ (rc1Hex h.wrappedMasterKey ++
        (nextMember "sourceSizeHint" ++ (rc1Int h.sourceSizeHint ++
    (nextMember "timestamp" ++ (rc1Int h.timestamp ++ (nextMember "hostname" ++
        (rc1Text h.hostname ++ [0x7D]))))))))))))))) := by
  simp [rc1SerFirst, rc1Object, openMember, nextMember, List.intersperse]

theorem rc1SerBlock_eq (h : BlockHeader) : rc1SerBlock h =
    openMember "chunkIndex" ++ (rc1Int h.chunkIndex ++ (nextMember "destDataSize" ++ (rc1Int h.destDataSize ++
    (nextMember "destDataSizeWithoutPadding" ++ (rc1Int h.destDataSizeWithoutPadding ++ (nextMember "srcDataPosition" ++
    (rc1Int h.srcDataPosition ++ (nextMember "srcDataLength" ++ (rc1Int h.srcDataLength ++ (nextMember "srcSha1" ++
    (rc1Hex h.srcSha1.val ++ (nextMember "destSha1" ++ (rc1Hex h.destSha1.val ++ (nextMember "isAllZero" ++
    (rc1Bool h.isAllZero ++ (nextMember "isEoF" ++ (rc1Bool h.isEoF ++ (nextMember "timestamp" ++
    (rc1Int h.timestamp ++ [0x7D]))))))))))))))))))) := by
  simp [rc1SerBlock, rc1Object, openMember, nextMember, List.intersperse]

theorem rc1SerFinal_eq (h : FinalHeader) : rc1SerFinal h =
    openMember "chunkCount" ++ (rc1Int h.chunkCount ++ (nextMember "totalSourceSize" ++ (rc1Int h.totalSourceSize ++
    (nextMember "destContentSize" ++ (rc1Int h.destContentSize ++ (nextMember "destPhysicalSize" ++
    (rc1Int h.destPhysicalSize ++ (nextMember "sourceSha1" ++ (rc1Hex h.sourceSha1.val ++ (nextMember "destSha1" ++
    (rc1Hex h.destSha1.val ++ (nextMember "timestamp" ++ (rc1Int h.timestamp ++ (nextMember "firstHeader" ++
    (rc1SerFirst h.firstHeader ++ [0x7D]))))))))))))))) := by
  simp [rc1SerFinal, rc1Object, openMember, nextMember, List.intersperse]

theorem bind_of {α β : Type} {x : Option α} {a : α} {f : α → Option β} (h : x = some a) : (x >>= f) = f a :=
    by subst h; rfl

theorem readFirst_rc1 (h : FirstHeader) (r : Bytes) : readFirst (rc1SerFirst h ++ r) = some (h, r) := by
  rw [rc1SerFirst_eq]
  simp only [List.append_assoc]
  unfold readFirst
  rw [bind_of (eat_append _ _)]; try dsimp only
  rw [bind_of (readInt_rc1Int _ _ (headNot_next _ _))]; try dsimp only
  rw [bind_of (eat_append _ _)]; try dsimp only
  rw [bind_of (readBool_rc1Bool _ _)]; try dsimp only
  rw [bind_of (eat_append _ _)]; try dsimp only
  rw [bind_of (readBool_rc1Bool _ _)]; try dsimp only
  rw [bind_of (eat_append _ _)]; try dsimp only
  rw [bind_of (readHex_rc1Hex _ _)]; try dsimp only
  rw [bind_of (eat_append _ _)]; try dsimp only
  rw [bind_of (readHex_rc1Hex _ _)]; try dsimp only
  rw [bind_of (eat_append _ _)]; try dsimp only
  rw [bind_of (readInt_rc1Int _ _ (headNot_next _ _))]; try dsimp only
  rw [bind_of (eat_append _ _)]; try dsimp only
  rw [bind_of (readInt_rc1Int _ _ (headNot_next _ _))]; try dsimp only
  rw [bind_of (eat_append _ _)]; try dsimp only
  rw [bind_of (readText_rc1Text _ _)]; try dsimp only
  rw [bind_of (eat_append _ _)]; try dsimp only

theorem readBlock_rc1 (h : BlockHeader) (r : Bytes) : readBlock (rc1SerBlock h ++ r) = some (h, r) := by
  rw [rc1SerBlock_eq]
  simp only [List.append_assoc]
  unfold readBlock
  rw [bind_of (eat_append _ _)]; try dsimp only
  rw [bind_of (readInt_rc1Int _ _ (headNot_next _ _))]; try dsimp only
  rw [bind_of (eat_append _ _)]; try dsimp only
  rw [bind_of (readInt_rc1Int _ _ (headNot_next _ _))]; try dsimp only
  rw [bind_of (eat_append _ _)]; try dsimp only
  rw [bind_of (readInt_rc1Int _ _ (headNot_next _ _))]; try dsimp only
  rw [bind_of (eat_append _ _)]; try dsimp only
  rw [bind_of (readInt_rc1Int _ _ (headNot_next _ _))]; try dsimp only
  rw [bind_of (eat_append _ _)]; try dsimp only
  rw [bind_of (readInt_rc1Int _ _ (headNot_next _ _))]; try dsimp only
  rw [bind_of (eat_append _ _)]; try dsimp only
  rw [bind_of (readDigest_rc1Hex _ _)]; try dsimp only
  rw [bind_of (eat_append _ _)]; try dsimp only
  rw [bind_of (readDigest_rc1Hex _ _)]; try dsimp only
  rw [bind_of (eat_append _ _)]; try dsimp only
  rw [bind_of (readBool_rc1Bool _ _)]; try dsimp only
  rw [bind_of (eat_append _ _)]; try dsimp only
  rw [bind_of (readBool_rc1Bool _ _)]; try dsimp only
  rw [bind_of (eat_append _ _)]; try dsimp only
  rw [bind_of (readInt_rc1Int _ _ (headNot_close _))]; try dsimp only
  rw [bind_of (eat_append _ _)]; try dsimp only

theorem readFinal_rc1 (h : FinalHeader) (r : Bytes) : readFinal (rc1SerFinal h ++ r) = some (h, r) := by
  rw [rc1SerFinal_eq]
  simp only [List.append_assoc]
  unfold readFinal
  rw [bind_of (eat_append _ _)]; try dsimp only
  rw [bind_of (readInt_rc1Int _ _ (headNot_next _ _))]; try dsimp only
  rw [bind_of (eat_append _ _)]; try dsimp only
  rw [bind_of (readInt_rc1Int _ _ (headNot_next _ _))]; try dsimp only
  rw [bind_of (eat_append _ _)]; try dsimp only
  rw [bind_of (readInt_rc1Int _ _ (headNot_next _ _))]; try dsimp only
  rw [bind_of (eat_append _ _)]; try dsimp only
  rw [bind_of (readInt_rc1Int _ _ (headNot_next _ _))]; try dsimp only
  rw [bind_of (eat_append _ _)]; try dsimp only
  rw [bind_of (readDigest_rc1Hex _ _)]; try dsimp only
  rw [bind_of (eat_append _ _)]; try dsimp only
  rw [bind_of (readDigest_rc1Hex _ _)]; try dsimp only
  rw [bind_of (eat_append _ _)]; try dsimp only
  rw [bind_of (readInt_rc1Int _ _ (headNot_next _ _))]; try dsimp only
  rw [bind_of (eat_append _ _)]; try dsimp only
  rw [bind_of (readFirst_rc1 _ _)]; try dsimp only
  rw [bind_of (eat_append _ _)]; try dsimp only

theorem readRecord_rc1 (k : Kind) (h : k.Record) : readRecord k (rc1Ser k h) = some (h, []) := by
  cases k with
  | first => simpa [readRecord, rc1Ser] using readFirst_rc1 h []
  | block => simpa [readRecord, rc1Ser] using readBlock_rc1 h []
  | final => simpa [readRecord, rc1Ser] using readFinal_rc1 h []

/-- Printable ASCII. -/
def printable (b : Bytes) : Prop := ∀ x ∈ b, 0x20 ≤ x.toNat ∧ x.toNat ≤ 0x7E

theorem printable_append {a b : Bytes} (ha : printable a) (hb : printable b) : printable (a ++ b) := by
  intro x hx
  rcases List.mem_append.mp hx with h | h
  · exact ha x h
  · exact hb x h

theorem printable_hexDigit : ∀ n < 16, 0x20 ≤ (hexDigit n).toNat ∧ (hexDigit n).toNat ≤ 0x7E := by decide

theorem printable_hexPair (x : Byte) : printable (hexPair x) := by
  intro y hy
  simp only [hexPair, List.mem_cons, List.not_mem_nil, or_false] at hy
  rcases hy with rfl | rfl <;> exact printable_hexDigit _ (by omega)

theorem printable_toHex (b : Bytes) : printable (toHex b) := by
  intro y hy
  simp only [toHex, List.mem_flatMap] at hy
  obtain ⟨x, -, hx⟩ := hy
  exact printable_hexPair x y hx

theorem printable_quote {b : Bytes} (h : printable b) : printable (rc1Quote b) := by
  have h1 : printable [0x22] := by intro x hx; simp at hx; subst hx; decide
  exact printable_append (a := [0x22] ++ b) (printable_append h1 h) h1

theorem printable_int (v : I64) : printable (rc1Int v) := by
  have h : printable (decimalNat v.toInt.natAbs) := by
    intro x hx
    have := decimalNat_digits _ x hx
    simp [isDigitChar] at this; omega
  unfold rc1Int
  split_ifs
  · exact printable_append (a := [0x2D]) (by intro x hx; simp at hx; subst hx; decide) h
  · exact h

theorem printable_bool (b : Bool) : printable (rc1Bool b) := by
  unfold printable; cases b <;> decide

theorem printable_escape (x : Byte) : printable (rc1Escape x) := by
  unfold rc1Escape
  split_ifs with h1 h2 h3
  · unfold printable; decide
  · unfold printable; decide
  · intro y hy; simp at hy; subst hy; exact h3
  · exact printable_append (a := [0x5C, 0x75, 0x30, 0x30]) (by unfold printable; decide) (printable_hexPair x)

theorem printable_text (b : Bytes) : printable (rc1Text b) := by
  apply printable_quote
  intro y hy
  obtain ⟨x, -, hx⟩ := List.mem_flatMap.mp hy
  exact printable_escape x y hx

theorem printable_hex (b : Bytes) : printable (rc1Hex b) := printable_quote (printable_toHex b)

theorem printable_first (h : FirstHeader) : printable (rc1SerFirst h) := by
  rw [rc1SerFirst_eq]
  repeat' with_reducible apply printable_append
  all_goals first
    | exact printable_int _ | exact printable_bool _ | exact printable_hex _ | exact printable_text _
    | (unfold printable; decide)

theorem printable_block (h : BlockHeader) : printable (rc1SerBlock h) := by
  rw [rc1SerBlock_eq]
  repeat' with_reducible apply printable_append
  all_goals first
    | exact printable_int _ | exact printable_bool _ | exact printable_hex _ | exact printable_text _
    | (unfold printable; decide)

theorem printable_final (h : FinalHeader) : printable (rc1SerFinal h) := by
  rw [rc1SerFinal_eq]
  repeat' with_reducible apply printable_append
  all_goals first
    | exact printable_int _ | exact printable_bool _ | exact printable_hex _ | exact printable_first _
    | (unfold printable; decide)

end Sys2Proof.Machine
end

