-- ==== Sys2Proof/Laws/Words.lean ====
section
/-! SUPPORT. Bits of the command words: the masks of the opcode map and the fields of a word (spec/30_encoding.md R140,
R142). -/

namespace Sys2Proof.Machine

theorem mask_full (w : BitVec 32) : w &&& (0xFFFFFFFF : BitVec 32) = w := by
  ext i hi; interval_cases i <;> simp

theorem csr_bits {w c : BitVec 32} (h : w &&& (0xFFFFF000 : BitVec 32) = c) :
    c ||| (w.extractLsb' 0 12).zeroExtend 32 = w := by
  subst h
  ext i hi; interval_cases i <;> simp

theorem or_mask (a : CsrAddr) : ((0x01000000 : BitVec 32) ||| a.zeroExtend 32) &&& (0xFFFFF000 : BitVec 32) =
    (0x01000000 : BitVec 32) := by
  ext i hi; interval_cases i <;> simp

theorem or_mask' (a : CsrAddr) : ((0x02000000 : BitVec 32) ||| a.zeroExtend 32) &&& (0xFFFFF000 : BitVec 32) =
    (0x02000000 : BitVec 32) := by
  ext i hi; interval_cases i <;> simp

theorem or_csra (a : CsrAddr) : ((0x01000000 : BitVec 32) ||| a.zeroExtend 32).extractLsb' 0 12 = a := by
  ext i hi; interval_cases i <;> simp

theorem or_csra' (a : CsrAddr) : ((0x02000000 : BitVec 32) ||| a.zeroExtend 32).extractLsb' 0 12 = a := by
  ext i hi; interval_cases i <;> simp

theorem extr_24 (a : CsrAddr) : ((0x01000000 : BitVec 32) ||| a.zeroExtend 32).extractLsb' 24 8 = 1#8 := by
  ext i hi; interval_cases i <;> simp

theorem extr_24' (a : CsrAddr) : ((0x02000000 : BitVec 32) ||| a.zeroExtend 32).extractLsb' 24 8 = 2#8 := by
  ext i hi; interval_cases i <;> simp

theorem extr_28 (a : CsrAddr) : ((0x01000000 : BitVec 32) ||| a.zeroExtend 32).extractLsb' 28 4 = 0#4 := by
  ext i hi; interval_cases i <;> simp

theorem extr_28' (a : CsrAddr) : ((0x02000000 : BitVec 32) ||| a.zeroExtend 32).extractLsb' 28 4 = 0#4 := by
  ext i hi; interval_cases i <;> simp

theorem extr_12 (a : CsrAddr) : ((0x01000000 : BitVec 32) ||| a.zeroExtend 32).extractLsb' 12 12 = 0#12 := by
  ext i hi; interval_cases i <;> simp

theorem extr_12' (a : CsrAddr) : ((0x02000000 : BitVec 32) ||| a.zeroExtend 32).extractLsb' 12 12 = 0#12 := by
  ext i hi; interval_cases i <;> simp

theorem word_fields (w : BitVec 32) : w.toNat =
    (w.extractLsb' 24 8).toNat * 2^24 + (w.extractLsb' 12 12).toNat * 2^12 + (w.extractLsb' 0 12).toNat := by
  simp only [BitVec.extractLsb'_toNat, Nat.shiftRight_eq_div_pow]; omega

end Sys2Proof.Machine
end

