-- ==== Sys2Proof/Machine/Assembler.lean ====
section
/-! DEFINITION. The assembler syntax of the spec as abstract syntax, and the pseudo-instructions (spec/30_encoding.md
R185, R186): which command each line is, and which lines each pseudo-instruction expands to. -/

namespace Sys2Proof.Machine

/-- A CSR operand: a CSR name or an address (R185). -/
inductive CsrOperand where
  | name (c : Csr)
  | address (a : CsrAddr)
deriving DecidableEq, Repr

/-- A byte-string operand: `x".."`, `'text'`, `zeros(n)`, or two joined by `++` (R185). -/
inductive BytesOperand where
  | hex (b : Bytes)
  | text (t : String)
  | zeros (n : Nat)
  | append (a b : BytesOperand)
deriving DecidableEq, Repr

/-- A line of assembler: a mnemonic and its operands (R185). -/
inductive Line where
  | nop
  | csrRd (a : CsrOperand)
  | csrWr (a : CsrOperand) (v : U64)
  | scEnc (key : BytesOperand) (sector : U64) (data : BytesOperand)
  | scDec (key : BytesOperand) (sector : U64) (data : BytesOperand)
  | frSerFirst (h : FirstHeader)
  | frSerBlock (h : BlockHeader)
  | frSerFinal (h : FinalHeader)
  | frParse (data : BytesOperand)
  | encInit (password : BytesOperand)
  | encWrite (data : BytesOperand)
  | encFinal
  | decInit (password : BytesOperand)
  | decFeed (data : BytesOperand)
  | decFinal
deriving DecidableEq, Repr

/-- The pseudo-instructions (R186). -/
inductive Pseudo where
  | csrr (a : CsrOperand)
  | csrw (a : CsrOperand) (v : U64)
  | encReset
  | decReset
  | encode (opt par ka : U64) (pw data : BytesOperand)
  | decode (par : U64) (pw data : BytesOperand)
deriving DecidableEq, Repr

/-- The CSRA an operand determines (R185). -/
def csraOf : CsrOperand → CsrAddr
  | .name c => csrAddress c
  | .address a => a

/-- The bytes an operand stands for (R185). -/
def bytesOf : BytesOperand → Bytes
  | .hex b => b
  | .text t => ascii t
  | .zeros n => zeros n
  | .append a b => bytesOf a ++ bytesOf b

/-- The command a mnemonic names (R185). -/
def instrOf : Line → Instr
  | .nop => .nop
  | .csrRd a => .csrRd (csraOf a)
  | .csrWr a _ => .csrWr (csraOf a)
  | .scEnc _ _ _ => .scEnc
  | .scDec _ _ _ => .scDec
  | .frSerFirst _ => .frSerFirst
  | .frSerBlock _ => .frSerBlock
  | .frSerFinal _ => .frSerFinal
  | .frParse _ => .frParse
  | .encInit _ => .encInit
  | .encWrite _ => .encWrite
  | .encFinal => .encFinal
  | .decInit _ => .decInit
  | .decFeed _ => .decFeed
  | .decFinal => .decFinal

/-- The operands of a line (R145, R185). -/
def operandsOf : Line → Operands
  | .nop => Operands.none
  | .csrRd _ => Operands.none
  | .csrWr _ v => { Operands.none with value := v }
  | .scEnc k s d => { Operands.none with key := bytesOf k, sector := s, data := bytesOf d }
  | .scDec k s d => { Operands.none with key := bytesOf k, sector := s, data := bytesOf d }
  | .frSerFirst h => { Operands.none with hdr := some (.first h) }
  | .frSerBlock h => { Operands.none with hdr := some (.block h) }
  | .frSerFinal h => { Operands.none with hdr := some (.final h) }
  | .frParse d => { Operands.none with data := bytesOf d }
  | .encInit d => { Operands.none with data := bytesOf d }
  | .encWrite d => { Operands.none with data := bytesOf d }
  | .encFinal => Operands.none
  | .decInit d => { Operands.none with data := bytesOf d }
  | .decFeed d => { Operands.none with data := bytesOf d }
  | .decFinal => Operands.none

/-- The command of a line: its mnemonic determines its word (R185). -/
def assemble (l : Line) : Command := ⟨Sys2Proof.encode (instrOf l), operandsOf l⟩

/-- The lines a pseudo-instruction expands to, in order (R186). -/
def expand : Pseudo → List Line
  | .csrr a => [.csrRd a]
  | .csrw a v => [.csrWr a v]
  | .encReset => [.csrWr (.name .ctrl) 1]
  | .decReset => [.csrWr (.name .ctrl) 2]
  | .encode opt par ka pw data =>
    [.csrWr (.name .opt) opt, .csrWr (.name .parallelism) par, .csrWr (.name .keepaliveMs) ka, .encInit pw,
      .encWrite data, .encFinal]
  | .decode par pw data => [.csrWr (.name .parallelism) par, .decInit pw, .decFeed data, .decFinal]

end Sys2Proof.Machine
end

