-- ==== Sys2Proof/Tests/Slice0.lean ====
section
/-! SUPPORT. Tests of the model: the static checks, the decoding of every command, one or two steps of every command with
the values of spec/95_test_vectors.md, and, for every statement with hypotheses, a state that meets them. -/

namespace Sys2Proof.Tests

open Sys2Proof.Machine

/-! ### The static checks refuse ill-formed terms -/

theorem test_word_rsv_refused : wordRsvZero 0x00001000 = false ∧ wordRsvZero 0x01000FFF = true := by decide

theorem test_word_unit_refused : wordUnitKnown 0x50000000 = false ∧ wordUnitKnown 0x43000000 = true := by decide

theorem test_word_refused :
    wordWellFormed 0x50000000 = false ∧ wordWellFormed 0x01100000 = false ∧ wordWellFormed 0x11000000 = true := by decide

theorem test_key_refused :
    keyFits (List.replicate 63 0) = false ∧ keyFits (List.replicate 65 0) = false ∧ keyFits (List.replicate 64 0) = true := by
  decide

theorem test_frame_refused : frameFits (List.replicate 4095 0) = false ∧ frameFits (List.replicate 4096 0) = true := by
  decide +kernel

/-- The record of V-FR-1. -/
def firstRec : FirstHeader := ⟨1, false, true, [], [], -1, 0, [0x68]⟩

/-- The record of V-FR-2, with a zero digest for EMPTY_SHA1. -/
def eofRec : BlockHeader := ⟨0, 0, 0, 0, 0, FixedBytes.zero 20, FixedBytes.zero 20, false, true, 0⟩

/-- The record of V-FR-3, with zero digests. -/
def finalRec : FinalHeader := ⟨0, 0, 0, 12288, FixedBytes.zero 20, FixedBytes.zero 20, 0, firstRec⟩

theorem test_record_refused :
    recordFits .first (some (.block eofRec)) = false ∧ recordFits .block none = false ∧
      recordFits .final (some (.final finalRec)) = true := by decide

theorem test_signatures_refused :
    signaturesWellFormed [0x41] [0x41] [0x43] = false ∧ signaturesWellFormed [0x41] [0x42, 0x42] [0x43] = false ∧
      signaturesWellFormed [0x41] [0x0D] [0x43] = false ∧ signaturesWellFormed [0x41] [0x42] [0x43] = true := by decide

theorem test_block_header_refused :
    BlockHeader.wellFormed { eofRec with destDataSizeWithoutPadding := 1 } = false ∧
      BlockHeader.wellFormed { eofRec with srcDataPosition := -1 } = false ∧ BlockHeader.wellFormed eofRec = true := by decide

/-! ### Decoding: UNIT, OP, RSV and CSRA of every command written out (R140, R142) -/

theorem test_decode_nop : decode 0b0000_0000_000000000000_000000000000 = .ok .nop := by decide
theorem test_decode_csrRd : decode 0b0000_0001_000000000000_000000110111 = .ok (.csrRd 0x037) := by decide
theorem test_decode_csrWr : decode 0b0000_0010_000000000000_111111111111 = .ok (.csrWr 0xFFF) := by decide
theorem test_decode_scEnc : decode 0b0001_0001_000000000000_000000000000 = .ok .scEnc := by decide
theorem test_decode_scDec : decode 0b0001_0010_000000000000_000000000000 = .ok .scDec := by decide
theorem test_decode_frSerFirst : decode 0b0010_0001_000000000000_000000000000 = .ok .frSerFirst := by decide
theorem test_decode_frSerBlock : decode 0b0010_0010_000000000000_000000000000 = .ok .frSerBlock := by decide
theorem test_decode_frSerFinal : decode 0b0010_0011_000000000000_000000000000 = .ok .frSerFinal := by decide
theorem test_decode_frParse : decode 0b0010_0100_000000000000_000000000000 = .ok .frParse := by decide
theorem test_decode_encInit : decode 0b0011_0001_000000000000_000000000000 = .ok .encInit := by decide
theorem test_decode_encWrite : decode 0b0011_0010_000000000000_000000000000 = .ok .encWrite := by decide
theorem test_decode_encFinal : decode 0b0011_0011_000000000000_000000000000 = .ok .encFinal := by decide
theorem test_decode_decInit : decode 0b0100_0001_000000000000_000000000000 = .ok .decInit := by decide
theorem test_decode_decFeed : decode 0b0100_0010_000000000000_000000000000 = .ok .decFeed := by decide
theorem test_decode_decFinal : decode 0b0100_0011_000000000000_000000000000 = .ok .decFinal := by decide

/-- V-CTL-20 to V-CTL-26, V-CTL-28. -/
theorem test_decode_illegal :
    decode 0x00000001 = .error .csraNotZero ∧ decode 0x00001000 = .error .rsvNotZero ∧
      decode 0x03000000 = .error .unassignedOp ∧ decode 0x50000000 = .error .reservedUnit ∧
      decode 0x13000000 = .error .unassignedOp ∧ decode 0x11000001 = .error .csraNotZero ∧
      decode 0x01100000 = .error .rsvNotZero ∧ decode 0xFFFFFFFF = .error .reservedUnit := by decide

/-- The host's numbering of a command's bits, and the placing of a word for the next step. -/
theorem test_table_word :
    decodeTableWord 32 0x02000010 = some (.csrWr 0x010) ∧ decodeTableWord 33 0 = none ∧
      (State.reset.withFetchWord 32 0x32000000).cmds = [⟨0x32000000, Operands.none⟩] := by decide

/-! ### Small states -/

/-- The reset state with these operands in use. -/
def withOps (o : Operands) : State := { State.reset with ops := o }

/-- The reset state with this value operand in use. -/
def withValue (v : U64) : State := withOps { Operands.none with value := v }

/-- The reset state with this data operand in use. -/
def withData (d : Bytes) : State := withOps { Operands.none with data := d }

/-- The status of the response a step leaves, none where it does not answer. -/
def statusOf : Host.Outcome State Fault Refusal → Option Status
  | .next t => t.rsp.map (·.status)
  | .fault _ => none
  | .refused _ => none

/-- A reading of the state a step leaves, none where it does not answer. -/
def readOf {α : Type} (f : State → α) : Host.Outcome State Fault Refusal → Option α
  | .next t => some (f t)
  | .fault _ => none
  | .refused _ => none

/-- Parameters for the tests: chunks of 4 bytes, a body codec of one byte that knows one record of each kind, a cipher
that changes every byte, and a NOW that stands still. -/
def smallParams : Params := { Config.sample with
  chunkSize := 4
  parMax := 8
  bodySer := fun _ _ => [0x20]
  bodyParse := fun k b => if b = [0x20] then (match k with
    | .first => some firstRec
    | .block => some eofRec
    | .final => some finalRec) else none
  tcEnc := fun _ _ d => d.map (· ^^^ 0x55)
  tcDec := fun _ _ d => d.map (· ^^^ 0x55)
  rand := fun _ => 0xEE }

/-! ### One step of every command -/

/-- V-CTL-19: NOP answers OK and leaves CMD_STATUS. -/
theorem test_nop :
    readOf (fun t => (t.rsp, t.csr.cmdStatus)) (exec .nop { State.reset with csr := { Csrs.reset with cmdStatus := .badOperand } }) =
      some (some ⟨.ok, 0, [], 0, none⟩, .badOperand) := by decide

/-- V-CTL-2: SIZE_HINT reads −1 after reset. -/
theorem test_csrRd :
    readOf State.rsp (exec (.csrRd 0x014) State.reset) = some (some ⟨.ok, 0xFFFFFFFFFFFFFFFF, [], 0, none⟩) := by decide

/-- V-CTL-15: an unmapped CSR. -/
theorem test_csrRd_unmapped :
    readOf (fun t => (t.rsp, t.csr.cmdStatus)) (exec (.csrRd 0x0FF) State.reset) =
      some (some ⟨.badOperand, 0, [], 0, none⟩, .ok) := by decide

/-- V-CTL-6: OPT keeps bits 7:4 and 1:0. -/
theorem test_csrWr_opt : readOf (fun t => t.csr.opt) (exec (.csrWr 0x010) (withValue 0xFF)) = some 0xF3 := by decide

/-- V-CTL-8, V-CTL-9, V-CTL-10: what PARALLELISM stores. -/
theorem test_csrWr_parallelism :
    clampPar smallParams 0 = 1 ∧ clampPar smallParams 0xFFFFFFFFFFFFFFFF = 1 ∧ clampPar smallParams 100 = 8 := by decide

/-- V-SC-8: a 63-byte key. -/
theorem test_scEnc_short_key :
    statusOf (exec .scEnc (withOps { Operands.none with key := List.replicate 63 0 })) = some .badOperand := by decide

theorem test_scEnc :
    (scEnc smallParams (withOps { Operands.none with key := List.replicate 64 0, data := [0x00, 0xFF] })).rsp =
      some ⟨.ok, 0, [0x55, 0xAA], 0, none⟩ := by decide

/-- V-SC-10: an empty key. -/
theorem test_scDec_no_key : statusOf (exec .scDec State.reset) = some .badOperand := by decide

theorem test_scDec :
    (scDec smallParams (withOps { Operands.none with key := List.replicate 64 0, data := [0x55, 0xAA] })).rsp =
      some ⟨.ok, 0, [0x00, 0xFF], 0, none⟩ := by decide

/-- V-FR-1: the body of 140 bytes begins and ends as shown there. -/
theorem test_frSerFirst_body :
    (rc1Ser .first firstRec).length = 140 ∧
      (rc1Ser .first firstRec).take 13 = [0x7B, 0x22, 0x76, 0x65, 0x72, 0x73, 0x69, 0x6F, 0x6E, 0x22, 0x3A, 0x31, 0x2C] := by
  decide +kernel

/-- R226, R230: a record of another kind. -/
theorem test_frSerFirst_kind :
    statusOf (exec .frSerFirst (withOps { Operands.none with hdr := some (.block eofRec) })) = some .badOperand := by decide

/-- V-FR-2: the body has 254 bytes. -/
theorem test_frSerBlock_body : (rc1Ser .block eofRec).length = 254 := by decide +kernel

/-- R161: the frame of a body of one byte, with a signature of one byte. -/
theorem test_frSerBlock :
    (frSer smallParams .block (withOps { Operands.none with hdr := some (.block eofRec) })).rsp.map
      (fun r => (r.status, r.data.length, r.data.take 9)) =
      some (.ok, 4096, [0x42, 0x0D, 0x0A, 0x20, 0x0D, 0x0A, 0x0D, 0x0A, 0x00]) := by
  decide +kernel

/-- V-FR-3: the body has 360 bytes. -/
theorem test_frSerFinal_body : (rc1Ser .final finalRec).length = 360 := by decide +kernel

theorem test_frSerFinal_none : statusOf (exec .frSerFinal State.reset) = some .badOperand := by decide

/-- V-FR-8: a frame with one padding byte set. -/
theorem test_frParse :
    ((serFrame smallParams .block eofRec).map fun f => parseFrame smallParams (f.set 4000 1)) = some .invalid := by
  decide +kernel

/-- V-FR-16: 4095 bytes. -/
theorem test_frParse_short : statusOf (exec .frParse (withData (List.replicate 4095 0))) = some .badOperand := by
  decide +kernel

/-- V-ENC-1: OPT = 0. -/
theorem test_encInit_refused : statusOf (exec .encInit State.reset) = some .badOperand := by decide

/-- An ENC with an archive open under OPT 0x01 (ENCRYPT), KEEPALIVE_MS 1000: the state ENC.INIT leaves. -/
def openState : State :=
  encInit smallParams { withData [0x70, 0x77] with csr := { Csrs.reset with opt := 0xF1, keepaliveMs := 1000 } }

/-- V-ENC-4: OK, ACTIVE, compressed = false; 64 bytes of key are drawn. -/
theorem test_encInit :
    openState.rsp.map (·.status) = some .ok ∧ openState.enc.state = .active ∧
      openState.enc.first.map (fun h => (h.encrypted, h.compressed)) = some (true, false) ∧ openState.randDraws = 64 := by
  decide +kernel

/-- V-ENC-5: ENC.WRITE in IDLE. -/
theorem test_encWrite_idle : statusOf (exec .encWrite (withData [0x78])) = some .badState := by decide

/-- V-ENC-15 with chunks of 4 bytes: the write that fills the batch flushes it. OUT is the FirstHeader twice, the frame,
and the payload padded to 4096 bytes: 16384 bytes. -/
theorem test_encWrite_flush :
    (encWrite smallParams { openState with ops := { Operands.none with data := [0x41, 0x41, 0x41, 0x41] } }).out.length =
      16384 := by decide +kernel

/-- V-ENC-6: ENC.FINAL in IDLE. -/
theorem test_encFinal_idle : statusOf (exec .encFinal State.reset) = some .badState := by decide

/-- V-FR-3, R279: destPhysicalSize of an empty source counts the bytes before the FinalHeader frames, 12288. -/
theorem test_encFinal_empty :
    (encFinal smallParams openState).enc.final.map (·.destPhysicalSize) = some 12288 := by decide +kernel

/-- DEC.INIT opens a decode with the password and the batch size of PARALLELISM (R300). -/
theorem test_decInit :
    readOf (fun t => (t.dec.state, t.dec.password, t.dec.par)) (exec .decInit (withData [0x70])) =
      some (.awaitFirst, [0x70], 1) := by decide

/-- A decode that has been opened. -/
def awaitState : State := { State.reset with dec := openDecode 1 [] }

/-- R301: DEC.INIT is allowed in IDLE only. -/
theorem test_decInit_refused : statusOf (exec .decInit awaitState) = some .badState := by decide

/-- V-DEC-7: bytes below one frame are buffered. -/
theorem test_decFeed_short :
    readOf (fun t => (t.dec.state, t.dec.inBuf.length, t.dec.cursor))
      (exec .decFeed { awaitState with ops := { Operands.none with data := List.replicate 100 0 } }) =
      some (.awaitFirst, 100, 0) := by decide +kernel

/-- V-DEC-13: with no FirstHeader at offset 0 the decode is fatal, 0x104 in DEC_STATE, with the cursor at 0. -/
theorem test_decFeed_fatal :
    readOf (fun t => (readCsr t .decState, t.dec.cursor, t.dec.inBuf.length))
      (decFeed smallParams { awaitState with ops := { Operands.none with data := List.replicate 4096 0 } }) =
      some (0x104, 0, 4096) := by decide +kernel

/-- V-DEC-8: DEC.FINAL with no input. -/
theorem test_decFinal_empty :
    readOf (fun t => (readCsr t .decState, t.rsp.map (·.status))) (exec .decFinal awaitState) =
      some (0x104, some .fatal) := by decide +kernel

/-- DEC in STREAMING on an archive that is neither encrypted nor compressed, with nothing buffered. -/
def streamDec : Dec := { openDecode 2 [] with state := .streaming, first := some ⟨1, false, false, [], [], 0, 0, []⟩ }

/-- A machine whose DEC is streaming. -/
def streamState : State := { State.reset with dec := streamDec }

/-- V-DEC-5: no FinalHeader seen is TRUNCATED, 0x504 in DEC_STATE. -/
theorem test_decFinal_truncated :
    readOf (fun t => (readCsr t .decState, t.rsp.map (·.status))) (exec .decFinal streamState) =
      some (0x504, some .fatal) := by decide +kernel

/-! ### Reset and the illegal word -/

/-- V-CTL-20: an illegal word sets CMD_STATUS to 0x01. -/
theorem test_step_illegal :
    readOf (fun t => (t.csr.cmdStatus, t.cmds)) (step { State.reset with cmds := [⟨0x00000001, Operands.none⟩] }) =
      some (.illegalCmd, []) := by decide

/-- The step waits where no command is issued. -/
theorem test_step_idle : step State.reset = .next State.reset := rfl

/-- R450: power-on reset gives the CSRs their reset values. -/
theorem test_power_on_reset : (powerOnReset { streamState with csr := { Csrs.reset with opt := 0xF3 } }).csr = Csrs.reset ∧
    (powerOnReset streamState).dec = Dec.reset := by decide

/-! ### A state for every statement with hypotheses -/

/-- The FirstHeader of an archive with no option set, under `swapParams`. -/
def plainFirst : FirstHeader := ⟨1, false, false, [], [], -1, 0, []⟩

/-- The FinalHeader of an empty archive under `swapParams`. -/
def plainFinal : FinalHeader := ⟨0, 0, 0, 12288, FixedBytes.zero 20, FixedBytes.zero 20, 0, plainFirst⟩

/-- Parameters that meet the laws and under which one record of each kind has an empty body. -/
def swapParams : Params := { Config.sample with
  bodySer := fun
    | .first, h => if h = plainFirst then [] else List.replicate (recordCode .first h + 1) 0x20
    | .block, h => if h = eofRec then [] else List.replicate (recordCode .block h + 1) 0x20
    | .final, h => if h = plainFinal then [] else List.replicate (recordCode .final h + 1) 0x20
  bodyParse := fun
    | .first, b => if b = [] then some plainFirst else recordOfCode .first (b.length - 1)
    | .block, b => if b = [] then some eofRec else recordOfCode .block (b.length - 1)
    | .final, b => if b = [] then some plainFinal else recordOfCode .final (b.length - 1) }

theorem swapParams_lawful : swapParams.Lawful := { Config.sample_lawful with
  body_roundtrip := by
    intro k h
    cases k <;> simp only [swapParams]
    · by_cases e : h = plainFirst
      · simp [e]
      · simpa [e] using recordOfCode_recordCode .first h
    · by_cases e : h = eofRec
      · simp [e]
      · simpa [e] using recordOfCode_recordCode .block h
    · by_cases e : h = plainFinal
      · simp [e]
      · simpa [e] using recordOfCode_recordCode .final h
  body_no_cr := by
    intro k h
    cases k <;> simp only [swapParams] <;> split_ifs <;> simp [List.mem_replicate] }

/-- The frame of an empty body with a signature of one byte. -/
def emptyFrame (x : Byte) : Bytes := [x, 0x0D, 0x0A, 0x0D, 0x0A, 0x0D, 0x0A] ++ zeros 4087 ++ [0x0D, 0x0A]

theorem zeros_length (n : Nat) : (zeros n).length = n := List.length_replicate

theorem swap_frames :
    serFrame swapParams .first plainFirst = some (emptyFrame 0x41) ∧ serFrame swapParams .block eofRec = some (emptyFrame 0x42) ∧
      serFrame swapParams .final plainFinal = some (emptyFrame 0x43) :=
  ⟨rfl, rfl, rfl⟩

theorem emptyFrame_length (x : Byte) : (emptyFrame x).length = 4096 := by
  rw [emptyFrame, List.length_append, List.length_append, zeros_length]; rfl

/-- How a frame with an empty body and a signature of one byte parses. -/
theorem emptyFrame_parses {P : Params} {x : Byte} {k : Kind} {h : k.Record} (hs : P.sigLen = 1)
    (hk : signatureKind P (emptyFrame x) = some k) (hb : P.bodyParse k [] = some h) :
    parseFrame P ((emptyFrame x).take 4096) = verdictOf k h := by
  rw [List.take_of_length_le (emptyFrame_length x).le]
  refine parseFrame_of_parts (j := 3) hk ?_ ?_ ?_ (by omega) ?_ ?_ ?_
  · rw [hs]; rfl
  · have := slice_append ([x, 0x0D, 0x0A, 0x0D, 0x0A, 0x0D, 0x0A] ++ zeros 4087) [0x0D, 0x0A] [] 4094 4096
      (by rw [List.length_append, zeros_length]; rfl) (by rw [List.length_append, zeros_length]; rfl)
    rw [List.append_nil] at this
    exact this
  · rw [hs]
    exact firstCr_eq_some (by omega) (by omega) rfl (fun i h1 h2 => by omega) (by rw [emptyFrame_length]; omega)
  · rfl
  · have := slice_append [x, 0x0D, 0x0A, 0x0D, 0x0A, 0x0D, 0x0A] (zeros 4087) [0x0D, 0x0A] 7 4094 rfl (by rw [zeros_length]; rfl)
    rw [emptyFrame, this]
    exact allZero_zeros 4087
  · rw [hs]; exact hb

theorem emptyFrame_first {P : Params} {h : FirstHeader} (hs : P.sigLen = 1)
    (hk : signatureKind P (emptyFrame 0x41) = some .first) (hb : P.bodyParse .first [] = some h) :
    parseFrame P ((emptyFrame 0x41).take 4096) = .first h := emptyFrame_parses (k := .first) hs hk hb

theorem emptyFrame_block {P : Params} {h : BlockHeader} (hs : P.sigLen = 1)
    (hk : signatureKind P (emptyFrame 0x42) = some .block) (hb : P.bodyParse .block [] = some h) :
    parseFrame P ((emptyFrame 0x42).take 4096) = .block h := emptyFrame_parses (k := .block) hs hk hb

theorem emptyFrame_final {P : Params} {h : FinalHeader} (hs : P.sigLen = 1)
    (hk : signatureKind P (emptyFrame 0x43) = some .final) (hb : P.bodyParse .final [] = some h) :
    parseFrame P ((emptyFrame 0x43).take 4096) = .final h := emptyFrame_parses (k := .final) hs hk hb

/-- Parameters under which an empty body parses to these records. -/
def parseParams (h : FirstHeader) (b : BlockHeader) : Params := { Config.sample with
  bodyParse := fun
    | .first, _ => some h
    | .block, _ => some b
    | .final, _ => some plainFinal
  pwVerify := fun t p => t == p
  pwUnseal := fun w _ => some w }

theorem test_hyp_EncodeOfDecode : ∃ i, decode 0x01000037 = .ok i := ⟨_, rfl⟩

theorem test_hyp_OpcodeMapWords :
    (0x05000000 : BitVec 32) ∉ [0x00000000#32, 0x11000000, 0x12000000, 0x21000000, 0x22000000, 0x23000000, 0x24000000,
      0x31000000, 0x32000000, 0x33000000, 0x41000000, 0x42000000, 0x43000000] ∧
      (0x05000000 : BitVec 32) &&& 0xFFFFF000 ≠ 0x01000000 ∧ (0x05000000 : BitVec 32) &&& 0xFFFFF000 ≠ 0x02000000 := by decide

/-- A state with one command issued. -/
def issued (w : BitVec 32) : State := { State.reset with cmds := [⟨w, Operands.none⟩] }

theorem test_hyp_IllegalWordsRefused :
    (issued 0x50000000).cmds = ⟨0x50000000, Operands.none⟩ :: [] ∧ ∃ r, decode 0x50000000 = .error r := ⟨rfl, _, rfl⟩

theorem test_hyp_StepRunsDecodedCommand :
    (issued 0x32000000).cmds = ⟨0x32000000, Operands.none⟩ :: [] ∧ decode 0x32000000 = .ok .encWrite := ⟨rfl, rfl⟩

theorem test_hyp_CmdStatusFollowsResponse : ∃ t, exec .encWrite State.reset = .next t := ⟨_, rfl⟩

theorem test_hyp_RefusedCommandsChangeNothing :
    (∃ t r, exec .encWrite State.reset = .next t ∧ t.rsp = some r ∧ r.status = .badState) ∧
      (∃ t r, exec .scEnc State.reset = .next t ∧ t.rsp = some r ∧ r.status = .badOperand) ∧
      ∃ t r, exec (.csrRd 0x0FF) State.reset = .next t ∧ t.rsp = some r ∧ r.status = .badOperand :=
  ⟨⟨_, _, rfl, rfl, rfl⟩, ⟨_, _, rfl, rfl, rfl⟩, ⟨_, _, rfl, rfl, rfl⟩⟩

/-- An ENC in each of its other states. -/
def withEnc (st : EncState) : State := { State.reset with enc := { Enc.reset with state := st } }

theorem test_hyp_CommandStatesEnforced :
    commandAllowed State.reset .encWrite = false ∧ commandAllowed (withEnc .failed) .encFinal = false ∧
      commandAllowed awaitState .decInit = false ∧
      (commandAllowed State.reset .encInit = true ∧
        ∃ t r, exec .encInit State.reset = .next t ∧ t.rsp = some r) ∧
      (withEnc .finalized).enc.state = .finalized ∧
      ({ streamState with dec := { streamDec with state := .finalized } } : State).dec.state = .finalized :=
  ⟨rfl, rfl, rfl, ⟨rfl, _, _, rfl, rfl⟩, rfl, rfl⟩

theorem test_hyp_UnitsShareNoState :
    (∃ t, exec (.csrWr 0x001) (withValue 2) = .next t) ∧ isEncCommand (.csrWr 0x001) = false ∧
      resetsEnc (withValue 2) (.csrWr 0x001) = false ∧ resetsDec (withValue 1) (.csrWr 0x001) = false ∧
      (isDecCommand .encInit = false ∧ isCsrCommand .encInit = false) ∧
      (isEncCommand .decInit = false ∧ isCsrCommand .decInit = false) ∧ ∀ a, Instr.encWrite ≠ .csrWr a :=
  ⟨⟨_, rfl⟩, by decide, by decide, by decide, by decide, by decide, fun _ h => by cases h⟩

theorem test_hyp_UnnamedOperandsIgnored :
    operandsOfForm (formOf .frParse) { Operands.none with key := [1], data := [2] } =
      operandsOfForm (formOf .frParse) { Operands.none with value := 3, data := [2] } ∧
    ∃ t, exec .frParse (withOps { Operands.none with key := [1], data := [2] }) = .next t := ⟨rfl, _, rfl⟩

/-- A key of zeros. -/
def zeroKey : Key := FixedBytes.zero 64

theorem test_hyp_ScEncEncrypts :
    (∃ (s : State) (k : Key), s.ops.key = k.val ∧ Config.params.tcDomain s.ops.data.length = true) ∧
      (∃ s : State, s.ops.key.length = 64 ∧ s.ops.data = []) ∧ ∃ s : State, s.ops.key.length ≠ 64 :=
  ⟨⟨withOps { Operands.none with key := zeroKey.val }, zeroKey, rfl, Config.lawful.tcDomain_padAlign 0 rfl⟩,
    ⟨withOps { Operands.none with key := zeroKey.val }, by decide, rfl⟩, ⟨State.reset, by decide⟩⟩

theorem test_hyp_ScDecDecrypts :
    (∃ (s : State) (k : Key), s.ops.key = k.val ∧ Config.params.tcDomain s.ops.data.length = true) ∧
      (∃ s : State, s.ops.key.length = 64 ∧ s.ops.data = []) ∧ ∃ s : State, s.ops.key.length ≠ 64 :=
  test_hyp_ScEncEncrypts

theorem test_hyp_ScDecUndoesScEnc :
    ∃ (s : State) (k : Key), s.ops.key = k.val ∧ s.ops.data.length % 4096 = 0 :=
  ⟨withOps { Operands.none with key := zeroKey.val }, zeroKey, rfl, rfl⟩

theorem test_hyp_FrSerSerialises :
    (withOps { Operands.none with hdr := some (.first firstRec) }).ops.hdr = some (.first firstRec) ∧
      (withOps { Operands.none with hdr := some (.block eofRec) }).ops.hdr = some (.block eofRec) ∧
      (withOps { Operands.none with hdr := some (.final finalRec) }).ops.hdr = some (.final finalRec) ∧
      (∀ h, State.reset.ops.hdr ≠ some (.first h)) ∧ (∀ h, State.reset.ops.hdr ≠ some (.block h)) ∧
      ∀ h, State.reset.ops.hdr ≠ some (.final h) :=
  ⟨rfl, rfl, rfl, fun _ h => (by cases h), fun _ h => (by cases h), fun _ h => by cases h⟩

/-- For FrameLayout and FrameRoundTrip. -/
theorem test_hyp_FrameLayout : swapParams.Lawful ∧ ∃ f, serFrame swapParams .block eofRec = some f :=
  ⟨swapParams_lawful, _, swap_frames.2.1⟩

/-- The first and last byte before the body, and the first after it. -/
theorem test_hyp_FrameChangeDetected :
    swapParams.Lawful ∧ serFrame swapParams .block eofRec = some (emptyFrame 0x42) ∧
      ((emptyFrame 0x42)[0]? ≠ some 0x58 ∧ 0 < swapParams.sigLen + 2) ∧
      ((emptyFrame 0x42)[2]? ≠ some 0x58 ∧ 2 < swapParams.sigLen + 2) ∧
      ((emptyFrame 0x42)[3]? ≠ some 0x58 ∧ swapParams.sigLen + 2 + (swapParams.bodySer .block eofRec).length ≤ 3) ∧
      (emptyFrame 0x42)[4095]? ≠ some 0x58 := by
  refine ⟨swapParams_lawful, swap_frames.2.1, by decide +kernel, by decide +kernel, by decide +kernel, ?_⟩
  rw [emptyFrame, List.getElem?_append_right (by rw [List.length_append, zeros_length]; decide), List.length_append,
    zeros_length]
  decide

theorem test_hyp_FrParseClassifies :
    (withData (List.replicate 4096 0x41)).ops.data.length = 4096 ∧
      (withData (List.replicate 4096 0)).ops.data = List.replicate 4096 0 ∧ (withData []).ops.data.length ≠ 4096 :=
  ⟨List.length_replicate, rfl, by decide⟩

/-- OPT at ENC.INIT: ENCRYPT alone, COMPRESS with level 1, nothing, COMPRESS with level 0. -/
theorem test_hyp_EncInitOpensArchive :
    State.reset.enc.state = .idle ∧
      ((0x01 : U64).getLsbD 0 || (0x01 : U64).getLsbD 1) = true ∧
      ¬ ((0x01 : U64).getLsbD 1 = true ∧ (0x01 : U64).extractLsb' 4 4 = 0) ∧
      ((0x12 : U64).getLsbD 0 || (0x12 : U64).getLsbD 1) = true ∧
      ¬ ((0x12 : U64).getLsbD 1 = true ∧ (0x12 : U64).extractLsb' 4 4 = 0) ∧
      ((0x00 : U64).getLsbD 0 || (0x00 : U64).getLsbD 1) = false ∧
      ((0x02 : U64).getLsbD 1 = true ∧ (0x02 : U64).extractLsb' 4 4 = 0) :=
  ⟨rfl, by decide, by decide, by decide, by decide, by decide, by decide⟩

/-- One byte less than a batch; and one byte more than the source may have. -/
theorem test_hyp_EncWriteBuffers :
    (withEnc .active).enc.state = .active ∧
      (withEnc .active).enc.inBuf.length + (zeros 1048575).length < (withEnc .active).enc.cfg.par * 1048576 ∧
      (withEnc .active).enc.srcLog.length + (zeros 1048575).length ≤ 2 ^ 63 - 1 ∧
      2 ^ 63 - 1 < (withEnc .active).enc.srcLog.length + (zeros (2 ^ 63)).length := by
  refine ⟨rfl, ?_, ?_, ?_⟩ <;> rw [zeros_length] <;> decide

/-- An ENC whose first frames are out and whose zero run goes on, with room for one batch of one chunk of 4 bytes. -/
def zeroRunPart : EncPart :=
  ⟨{ Enc.reset with state := .active, firstEmitted := true, prevAllZero := true, cfg := ⟨false, false, 0, 1, 1, -1⟩ }, [], 0, 0⟩

/-- A batch that fills: the Flush is OK where the chunk is elided, and fails where there is no FirstHeader. -/
theorem test_hyp_EncWriteFlushesFullBatch :
    let d : Bytes := [0, 0, 0, 0]
    let full (p : EncPart) : EncPart := { p with enc := { p.enc with inBuf := d, srcLog := d } }
    zeroRunPart.enc.inBuf.length + d.length = zeroRunPart.enc.cfg.par * smallParams.chunkSize ∧
      (∃ u, flush smallParams (full zeroRunPart) = .ok () u) ∧
      ∃ c u, flush smallParams (full ⟨{ zeroRunPart.enc with firstEmitted := false }, [], 0, 0⟩) = .stop c u :=
  ⟨rfl, ⟨_, rfl⟩, ⟨_, _, rfl⟩⟩

/-- A write that fills the buffer of an ENC with no FirstHeader stops: the Flush fails. -/
theorem acceptBytes_stops {P : Params} {p : EncPart} (h : p.enc.inBuf.length + 1 = p.enc.cfg.par * P.chunkSize)
    (h1 : p.enc.firstEmitted = false) (h2 : p.enc.first = none) : ∃ c u, acceptBytes P [0] p = .stop c u := by
  rw [acceptBytes_cons, if_pos h]
  refine ⟨.hdrOverflow, bufferByte 0 p, ?_⟩
  simp [flush, emitFirst, bufferByte, h1, h2, Run.bind]

/-- An ENC that is ACTIVE, with no FirstHeader, with this in the buffer. -/
def noFirst (z : Bytes) : EncPart := ⟨{ zeroRunPart.enc with firstEmitted := false, inBuf := z }, [], 0, 0⟩

/-- At the command: a write that is accepted, and one whose Flush fails. -/
theorem test_hyp_EncWriteFlushesFullBatch_command :
    (withEnc .active).enc.srcLog.length + (withEnc .active).ops.data.length ≤ 2 ^ 63 - 1 ∧
      (∃ u, acceptBytes Config.params (withEnc .active).ops.data (encPart (withEnc .active)) = .ok () u) ∧
      (zeros 1048575).length = 1048575 ∧
      ∀ z : Bytes, z.length = 1048575 → (noFirst z).enc.state = .active ∧ (noFirst z).enc.srcLog = [] ∧
        ∃ c u, acceptBytes Config.params [0] (noFirst z) = .stop c u :=
  ⟨by decide, ⟨_, rfl⟩, zeros_length _, fun z hz => ⟨rfl, rfl, acceptBytes_stops (by
    show z.length + 1 = 1 * Config.params.chunkSize
    rw [hz, Config.params_chunkSize]) rfl rfl⟩⟩

theorem test_hyp_SlicesPartitionSource :
    0 < smallParams.chunkSize ∧ 0 + 1 < (slices smallParams [1, 2, 3, 4, 5]).length := by decide

/-- Parameters under which COMPRESS always fails. -/
def failingParams : Params := { Config.sample with compress := fun _ _ => none }

/-- An all-zero chunk and one that is not, with and without encryption; COMPRESS off, on, and failing; for
TransformHeaderFields and DecodeUndoesTransform. -/
theorem test_hyp_TransformHeaderFields :
    Config.sample.Lawful ∧ (∀ x ∈ ([0] : Bytes), x = 0) ∧ (∃ x ∈ ([1] : Bytes), x ≠ 0) ∧
      (some zeroKey).isSome = true ∧ (Config.sample.compress (Config.sample.compLevels 1) [1]).isSome = true ∧
      failingParams.compress (failingParams.compLevels 1) [1] = none ∧
      ∃ h r', transform Config.sample ⟨false, false, 0, 1, 0, -1⟩ none [1] (0 : I64).toInt (0 : I64).toInt 0 =
        (some (h, [1] ++ zeros 4095), r') ∧ ([1] ++ zeros 4095).length < 2 ^ 63 := by
  refine ⟨Config.sample_lawful, by decide, by decide, rfl, rfl, rfl, _, _, rfl, ?_⟩
  rw [List.length_append, zeros_length]
  decide

theorem failingParams_lawful : failingParams.Lawful :=
  { Config.sample_lawful with decompress_compress := fun _ _ _ h => by cases h }

theorem test_hyp_DecodeUndoesTransform :
    Config.sample.Lawful ∧ 0 ≤ (0 : I64).toInt ∧
      ∃ h d r', transform Config.sample ⟨false, false, 0, 1, 0, -1⟩ none [0] (0 : I64).toInt (0 : I64).toInt 0 =
        (some (h, d), r') ∧ d.length < 2 ^ 63 :=
  ⟨Config.sample_lawful, by decide, _, _, _, rfl, by decide⟩

/-- A zero header inside a zero run is elided; after another chunk it is emitted; with a body too long it overflows. -/
theorem test_hyp_FrameChunkElidesOrEmits :
    let z : BlockHeader := { eofRec with isAllZero := true, isEoF := false }
    let t := smallParams.now zeroRunPart.nowDraws
    (z.isAllZero = true ∧ zeroRunPart.enc.prevAllZero = true ∧
        t.toInt - zeroRunPart.enc.lastFrameTime.toInt < zeroRunPart.enc.cfg.keepAlive.toInt) ∧
      ¬ (eofRec.isAllZero = true) ∧ (∃ fb, serFrame smallParams .block { eofRec with timestamp := t } = some fb) ∧
      serFrame { smallParams with bodySer := fun _ _ => List.replicate 4088 0x20 } .block { eofRec with timestamp := t } = none := by
  refine ⟨by decide, by decide, ⟨_, rfl⟩, by decide +kernel⟩

theorem test_hyp_ZeroRunElided :
    let cs : List (BlockHeader × Bytes) := [({ eofRec with isAllZero := true }, [])]
    (∀ c ∈ cs, c.1.isAllZero = true) ∧ zeroRunPart.enc.prevAllZero = true ∧
      ∀ n, (smallParams.now n).toInt - zeroRunPart.enc.lastFrameTime.toInt < zeroRunPart.enc.cfg.keepAlive.toInt :=
  ⟨by decide, rfl, fun _ => by
    show (0 : I64).toInt - (0 : I64).toInt < (1 : I64).toInt
    decide⟩

/-- A part of ENC with this in the buffer, before its first Flush or after it. -/
def flushPart (emitted : Bool) (b : Bytes) : EncPart :=
  ⟨{ zeroRunPart.enc with firstEmitted := emitted, first := some plainFirst, inBuf := b }, [], 0, 0⟩

/-- Parameters under which every body is too long for a frame. -/
def longParams : Params := { smallParams with bodySer := fun _ _ => zeros 4088 }

theorem longParams_overflows (k : Kind) (h : k.Record) : serFrame longParams k h = none := by
  unfold serFrame
  rw [if_pos]
  show maxBody longParams < (zeros 4088).length
  rw [zeros_length]
  decide

/-- The FirstHeader frames before and at the first Flush, and one that overflows. -/
theorem test_hyp_FlushOutput_first :
    serFrame longParams .first plainFirst = none ∧ (∃ q, FirstOut smallParams (flushPart false []) q) ∧
      FirstOut smallParams (flushPart true [1]) (flushPart true [1]) :=
  ⟨longParams_overflows .first _, ⟨_, .inr ⟨rfl, _, _, rfl, rfl, rfl⟩⟩, .inl ⟨rfl, rfl⟩⟩

/-- What the transforms of a batch give. -/
def batchChunks (P : Params) (p : EncPart) : List (Option (BlockHeader × Bytes)) :=
  (transformAll P p.enc.cfg p.enc.key (slices P p.enc.inBuf) p.enc.srcPos.toInt p.enc.nextIdx.toInt p.randDraws).1

/-- A batch that is framed, one whose frame overflows, and, under the laws, one whose COMPRESS fails. -/
theorem test_hyp_FlushOutput_batch :
    (∃ cs batch u, batchChunks smallParams (flushPart true [1]) = cs.map some ∧
      frameAll smallParams cs [] (flushPart true [1]) = .ok batch u) ∧
    (∃ cs c u, batchChunks longParams (flushPart true [1]) = cs.map some ∧
      frameAll longParams cs [] (flushPart true [1]) = .stop c u) ∧
    failingParams.Lawful ∧ none ∈ batchChunks failingParams { flushPart true [1] with
      enc := { (flushPart true [1]).enc with cfg := ⟨false, true, 1, 1, 0, -1⟩ } } := by
  refine ⟨⟨[_], _, _, rfl, rfl⟩, ⟨[_], .hdrOverflow, nowDrawn (flushPart true [1]), rfl, ?_⟩, failingParams_lawful,
    List.mem_cons_self⟩
  rw [frameAll, show ∀ x d, x.isAllZero = false → frameChunk longParams x d (flushPart true [1]) =
    .stop .hdrOverflow (nowDrawn (flushPart true [1])) from fun x d h => by
      unfold frameChunk elide
      simp [h, longParams_overflows]]
  · rfl
  · rfl

theorem test_hyp_EncFinalClosesArchive : (withEnc .active).enc.state = .active := rfl

theorem test_hyp_EncLifeCycle : ∃ t, exec .encInit { State.reset with csr := { Csrs.reset with opt := 1 } } = .next t := ⟨_, rfl⟩

theorem test_hyp_DecInitOpensDecode : State.reset.dec.state = .idle := rfl

theorem test_hyp_DecFeedBuffersShortInput :
    awaitState.dec.state = .awaitFirst ∧ streamState.dec.state = .streaming ∧
      awaitState.dec.inBuf.length + (zeros 4095).length < 4096 := by
  rw [zeros_length]; decide

/-- The streaming state meets DEC's invariant; for DecFeedInStreamingAnswersOk, DecFinalEndsDecode and DecLifeCycle. -/
theorem test_hyp_streaming : streamState.dec.state = .streaming ∧ DecInv streamState.dec streamState.input :=
  ⟨rfl, ⟨by decide, fun h => (by cases h), fun h => (by cases h), fun h => (by cases h), fun _ => ⟨_, rfl, by decide⟩, by decide,
    fun b hb => (by cases hb), fun b hb => (by cases hb), fun _ => ⟨Nat.le_refl _, rfl⟩, by decide, by decide, by decide,
    fun h => (by cases h)⟩⟩

/-- A decode with one FirstHeader frame buffered. -/
def firstPart : DecPart := ⟨{ openDecode 1 [1] with inBuf := emptyFrame 0x41 }, []⟩

/-- A FirstHeader for each of the checks. -/
theorem test_hyp_FirstFrameChecks :
    let f := firstPart.dec.inBuf.take 4096
    let h (v : I64) (e : Bool) (salted wrapped : Bytes) : FirstHeader := ⟨v, e, false, salted, wrapped, 0, 0, []⟩
    firstPart.dec.state = .awaitFirst ∧
      parseFrame (parseParams (h 2 false [] []) eofRec) f = .first (h 2 false [] []) ∧
      parseFrame (parseParams (h 1 false [] []) eofRec) f = .first (h 1 false [] []) ∧
      parseFrame (parseParams (h 1 true [] []) eofRec) f = .first (h 1 true [] []) ∧
      (parseParams (h 1 true [] []) eofRec).pwVerify [] firstPart.dec.password = false ∧
      parseFrame (parseParams (h 1 true [1] zeroKey.val) eofRec) f = .first (h 1 true [1] zeroKey.val) ∧
      (parseParams (h 1 true [1] zeroKey.val) eofRec).pwVerify [1] firstPart.dec.password = true ∧
      (parseParams (h 1 true [1] zeroKey.val) eofRec).pwUnseal zeroKey.val firstPart.dec.password = some zeroKey.val :=
  ⟨rfl, emptyFrame_first rfl rfl rfl, emptyFrame_first rfl rfl rfl, emptyFrame_first rfl rfl rfl, by decide,
    emptyFrame_first rfl rfl rfl, by decide, rfl⟩

theorem test_hyp_FirstFrameChecks_unwrap :
    ∀ k : Key, (parseParams plainFirst eofRec).pwUnseal [1] firstPart.dec.password ≠ some k.val := by
  intro k h
  have h1 : ([1] : Bytes) = k.val := Option.some.inj h
  have h2 := k.size
  rw [← h1] at h2
  cases h2

/-- A signature begins with no zero byte. -/
theorem parseFrame_zeros (n : Nat) : parseFrame Config.params (zeros n) = .unrecognized := by
  cases hk : signatureKind Config.params (zeros n) with
  | none => unfold parseFrame; rw [hk]
  | some k =>
    exfalso
    have h1 := signatureKind_eq_some hk
    have h0 := sigLen_pos Config.lawful
    have h2 := slice_byte h1 0 (by omega)
    obtain ⟨x, hx⟩ : ∃ x, (Config.params.sig k)[0]? = some x :=
      ⟨_, List.getElem?_eq_getElem (by rw [Config.lawful.sig_length k]; exact h0)⟩
    have h3 := Config.lawful.sig_ascii k x (List.mem_of_getElem? hx)
    rw [hx, zeros, List.getElem?_replicate] at h2
    split_ifs at h2
    cases h2
    simp at h3

/-- At the command: a full frame of zeros, fed or buffered, and less than a frame. -/
theorem test_hyp_FirstFrameChecks_command :
    awaitState.dec.state = .awaitFirst ∧
      4096 ≤ awaitState.dec.inBuf.length + (zeros 4096).length ∧
      FirstFrameFails Config.params ((awaitState.dec.inBuf ++ zeros 4096).take 4096) awaitState.dec.password .noFirstHeader ∧
      awaitState.dec.inBuf.length < 4096 := by
  have h : (awaitState.dec.inBuf ++ zeros 4096).take 4096 = zeros 4096 :=
    List.take_of_length_le (by rw [show awaitState.dec.inBuf ++ zeros 4096 = zeros 4096 from rfl, zeros_length])
  refine ⟨rfl, by rw [zeros_length]; decide, ?_, by decide⟩
  rw [h, FirstFrameFails, parseFrame_zeros]

/-- The parse loop of DEC.FEED and the procedure of DEC.FINAL, each with a result and with a fatal condition; for
DecFeedInStreamingAnswersOk and DecFinalEndsDecode. -/
theorem test_hyp_DecFinalEndsDecode :
    (∃ q, parseLoop Config.params false (feedPart [] (decPart awaitState)) = .ok () q) ∧
      (∃ c q, parseLoop Config.params false (feedPart (zeros 4096) (decPart awaitState)) = .stop (.fatal c) q) ∧
      (∃ q, finishDecode Config.params (decPart { streamState with dec := { streamDec with final := some plainFinal } }) =
        .ok () q) ∧
      ∃ c q, finishDecode Config.params (decPart awaitState) = .stop (.fatal c) q := by
  refine ⟨⟨_, rfl⟩, ⟨.noFirstHeader, feedPart (zeros 4096) (decPart awaitState), ?_⟩, ?_, ⟨_, _, rfl⟩⟩
  · have h : (feedPart (zeros 4096) (decPart awaitState)).dec.inBuf = zeros 4096 := rfl
    rw [parseLoop_eq, h, zeros_length, if_neg (by decide)]
    unfold parseTurn
    dsimp only
    rw [h, if_pos (show (feedPart (zeros 4096) (decPart awaitState)).dec.state = .awaitFirst from rfl),
      List.take_of_length_le (by rw [zeros_length]; decide), parseFrame_zeros]
    rfl
  · rcases closeDecode_cases Config.params (decPart { streamState with dec := { streamDec with final := some plainFinal } })
      (by decide) with ⟨h, -⟩ | ⟨f, o, ev, -, -, -, h⟩
    · cases h
    · exact ⟨_, h⟩

/-- A frame of each verdict in STREAMING. -/
theorem test_hyp_StreamingFramesConsumed :
    streamDec.state = .streaming ∧
      parseFrame swapParams ((List.replicate 4096 (0 : Byte)).take 4096) = .unrecognized ∧
      parseFrame swapParams (((emptyFrame 0x42).set 1 1).take 4096) = .invalid ∧
      parseFrame swapParams ((emptyFrame 0x41).take 4096) = .first plainFirst ∧
      parseFrame swapParams ((emptyFrame 0x43).take 4096) = .final plainFinal :=
  ⟨rfl, rfl, rfl, emptyFrame_first rfl rfl rfl, emptyFrame_final rfl rfl rfl⟩

/-- A BlockHeader of one payload byte, and an insane one. -/
theorem test_hyp_BlockFrameWaitsOrEnqueues :
    let one : BlockHeader := { eofRec with destDataSize := 1, isEoF := false }
    let bad : BlockHeader := { eofRec with srcDataPosition := -1 }
    parseFrame (parseParams plainFirst one) ((emptyFrame 0x42).take 4096) = .block one ∧ sane one = true ∧
      (emptyFrame 0x42).length < 4096 + one.destDataSize.toInt.toNat ∧
      4096 + one.destDataSize.toInt.toNat ≤ (emptyFrame 0x42 ++ [0]).length ∧
      streamDec.batch.length + 1 ≠ streamDec.par ∧
      ({ streamDec with par := 1 } : Dec).batch.length + 1 = ({ streamDec with par := 1 } : Dec).par ∧
      parseFrame (parseParams plainFirst bad) ((emptyFrame 0x42).take 4096) = .block bad ∧ sane bad = false := by
  refine ⟨emptyFrame_block rfl rfl rfl, by decide, ?_, ?_, by decide, by decide, emptyFrame_block rfl rfl rfl, by decide⟩
  · rw [emptyFrame_length]; decide
  · rw [List.length_append, emptyFrame_length]; decide

/-- For ParseLoopEnds and InputSplitIrrelevant: a loop that takes a frame. -/
theorem test_hyp_ParseLoopEnds : ∃ q, parseLoop swapParams false ⟨{ streamDec with inBuf := emptyFrame 0x41 }, []⟩ = .ok () q := by
  rw [parseLoop_eq, if_neg (by
    rw [show ({ streamDec with inBuf := emptyFrame 0x41 } : Dec).inBuf = emptyFrame 0x41 from rfl, emptyFrame_length]
    exact Nat.lt_irrefl 4096)]
  have : parseFrame swapParams ((emptyFrame 0x41).take frameSize) = .first plainFirst := emptyFrame_first rfl rfl rfl
  have : parseTurn swapParams false ⟨{ streamDec with inBuf := emptyFrame 0x41 }, []⟩ =
      .ok true ⟨{ streamDec with inBuf := (emptyFrame 0x41).drop 4096, cursor := 4096 }, []⟩ := by
    unfold parseTurn
    dsimp only
    rw [if_neg (by decide), this]
    rfl
  rw [this]
  simp only [Run.bind, if_true]
  rw [parseLoop_eq, if_pos (by rw [List.length_drop, emptyFrame_length]; decide)]
  exact ⟨_, rfl⟩

/-- One byte less than a frame, and a frame. -/
theorem test_hyp_ParseLoopEnds_length : (zeros 4095).length < 4096 ∧ 4096 ≤ (emptyFrame 0x41).length := by
  rw [zeros_length, emptyFrame_length]; decide

/-- A written chunk, an EoF header, an all-zero header. -/
theorem test_hyp_DecodedChunkFillsItsRange :
    (decodeChunk smallParams false false none { eofRec with isEoF := false } []).1 = some [] ∧ eofRec.isEoF = true ∧
      ({ eofRec with isEoF := false, isAllZero := true } : BlockHeader).isAllZero = true := by decide

/-- A chunk of 4 source bytes whose hashes are zero. -/
def fourHeader : BlockHeader :=
  { eofRec with isEoF := false, srcDataLength := 4, destDataSizeWithoutPadding := 4 }

/-- A sane header with the key there; a payload in and outside TC_DOMAIN; one too short and one that is not; DECOMPRESS
that fails and one that does not; and what comes out too short and of the right length. -/
theorem test_hyp_ChunkEventOrder :
    (fourHeader.isEoF = false ∧ fourHeader.isAllZero = false ∧ sane fourHeader = true ∧ some zeroKey = some zeroKey) ∧
      ({ smallParams with tcDomain := fun n => n == 4096 } : Params).tcDomain 3 = false ∧ smallParams.tcDomain 3 = true ∧
      (([1, 2, 3] : Bytes).length : Int) < fourHeader.destDataSizeWithoutPadding.toInt ∧
      fourHeader.destDataSizeWithoutPadding.toInt ≤ ([1, 2, 3, 4] : Bytes).length ∧
      ({ smallParams with decompress := fun _ => none } : Params).decompress [1, 2, 3, 4] = none ∧
      smallParams.decompress [1, 2, 3, 4] = some [1, 2, 3, 4] ∧
      (([1, 2, 3] : Bytes).length : Int) ≠ fourHeader.srcDataLength.toInt ∧
      (([1, 2, 3, 4] : Bytes).length : Int) = fourHeader.srcDataLength.toInt := by decide

/-- A batch of one EoF header; address 0 is in no range. A batch whose first chunk writes its four bytes, the last of them
covered by no later chunk. -/
theorem test_hyp_RunBatchWritesOnlyItsRanges :
    (∃ q, runBatch smallParams ⟨{ streamDec with batch := [⟨eofRec, [], 0⟩] }, []⟩ = .ok () q) ∧
      ¬ entryCovers ⟨eofRec, [], 0⟩ 0 ∧ sane eofRec = true ∧ streamDec.first = some ⟨1, false, false, [], [], 0, 0, []⟩ ∧
      Memory.wf [] = true ∧ (decodeChunk smallParams false false none fourHeader [1, 2, 3, 4]).1 = some [1, 2, 3, 4] ∧
      ([1, 2, 3, 4] : Bytes)[3]? = some 4 ∧ ¬ entryCovers ⟨{ fourHeader with srcDataLength := 3 }, [], 0⟩ 3 :=
  ⟨⟨_, rfl⟩, fun h => (by cases h.1), by decide, rfl, rfl, by decide, rfl, fun h => absurd h.2.2 (by decide)⟩

/-- An address at or beyond the output length; and one that no sane header covers. -/
theorem test_hyp_DecodeWritesOnlyChunkRanges :
    DecInv streamState.dec streamState.input ∧ (∃ t, exec .decFinal streamState = .next t ∧ t.dec.outLen ≤ 0) ∧
      ∀ b, entryCovers b (2 ^ 63) → b ∉ streamState.dec.batch ∧ ¬ sane b.hdr = true := by
  refine ⟨test_hyp_streaming.2, ⟨_, rfl, by decide⟩, fun b hb => ⟨fun h => (by cases h), fun h => ?_⟩⟩
  have h1 := (sane_iff b.hdr).mp h
  have h2 := hb.2.2
  push_cast at h2
  omega

theorem test_hyp_FinalHashIsAnError :
    let d : Dec := { streamDec with final := some plainFinal }
    d.state = .streaming ∧ d.batch = [] ∧ d.inBuf.length < 4096 ∧ d.final = some plainFinal ∧ d.outLen ≤ 2 ^ 63 - 1 := by
  decide

theorem test_hyp_DecCountersNeverDecrease :
    (∃ t, exec .decFinal streamState = .next t) ∧ resetsDec streamState .decFinal = false := ⟨⟨_, rfl⟩, by decide⟩

theorem test_hyp_DecLifeCycle : ∃ t, exec .decFinal streamState = .next t := ⟨_, rfl⟩

/-- For StepKeepsEncInvariant, StepKeepsDecInvariant, StepKeepsSinkCanonical and InvariantStatesNeverStop. -/
theorem test_hyp_Inv : Inv Config.params streamState ∧ ∃ t, step streamState = .next t :=
  ⟨⟨⟨by decide, by
      have h := Config.lawful.parMax_pos
      show (1 : I64).toInt ≤ _
      rw [show (1 : I64).toInt = 1 by decide]; omega, by decide⟩,
    encInv_reset _ Config.lawful _, test_hyp_streaming.2, ⟨rfl, rfl⟩⟩, _, rfl⟩

/-- A procedure ends with a result, and with OUT's log shorter than 2^63 bytes. -/
def endsShort {α : Type} : Run EncFatal EncPart α → Bool
  | .ok _ p => decide (p.enc.outLog.length < 2 ^ 63)
  | .stop _ _ => false

/-- The archive of the empty source, with no option set. -/
theorem test_hyp_RoundTrip :
    ∃ (p₁ p₂ : EncPart) (fin : FinalHeader),
      acceptBytes swapParams [] (openArchive swapParams ⟨false, false, 0, 1, 0, -1⟩ [] ⟨Enc.reset, [], 0, 0⟩) = .ok () p₁ ∧
      finishArchive swapParams p₁ = .ok fin p₂ ∧ p₂.enc.outLog.length < 2 ^ 63 ∧ [p₂.enc.outLog].flatten = p₂.enc.outLog ∧
      swapParams.Lawful := by
  have h : endsShort (finishArchive swapParams
      (openArchive swapParams ⟨false, false, 0, 1, 0, -1⟩ [] ⟨Enc.reset, [], 0, 0⟩)) = true := by decide +kernel
  revert h
  cases hr : finishArchive swapParams (openArchive swapParams ⟨false, false, 0, 1, 0, -1⟩ [] ⟨Enc.reset, [], 0, 0⟩) with
  | stop e q => intro h; cases h
  | ok fin q => exact fun h => ⟨_, q, fin, rfl, hr, of_decide_eq_true h, by simp, swapParams_lawful⟩

end Sys2Proof.Tests
end

/-! ## What a step can do (spec/45_control.md R355, R362, R364)

One inversion lemma for `exec` and one for `step`: every invariant below is derived from these two, with no command's
meaning opened again. -/

namespace Sys2Proof.Machine

/-- Every way a command can answer: it only answers, or it writes a CSR, or its unit's procedure runs in a state that
allows it (R364). -/
inductive ExecCase (s t : State) : Instr → Prop
  | answers (i : Instr) (q : Response) (ht : t = answer q s ∨ t = complete q s) : ExecCase s t i
  | csrWr (c : Csr) (hc : csrAccess c ≠ .ro)
      (ht : t = completeStatus .ok (writeCsr Config.params c s.ops.value s)) :
      ExecCase s t (.csrWr (csrAddress c))
  | encInit (hs : s.enc.state = .idle) (ho : optionsLegal (sampleOptions s.csr) = true)
      (ht : t = completeStatus .ok
        (setEncPart (openArchive Config.params (sampleOptions s.csr) s.ops.data (encPart s)) s)) :
      ExecCase s t .encInit
  | encWrite (hs : s.enc.state = .active) (hb : s.enc.srcLog.length + s.ops.data.length ≤ maxSource)
      (ht : t = encEnd (acceptBytes Config.params s.ops.data (encPart s)) (fun _ => statusResponse .ok) s) :
      ExecCase s t .encWrite
  | encFinal (hs : s.enc.state = .active)
      (ht : t = encEnd (finishArchive Config.params (encPart s)) (fun h => finalResponse (some h)) s) :
      ExecCase s t .encFinal
  | decInit (hs : s.dec.state = .idle)
      (ht : t = completeStatus .ok
        { s with dec := openDecode s.csr.parallelism.toNat s.ops.data, input := [] }) :
      ExecCase s t .decInit
  | decFeed (hr : decRunning s.dec = true) (ht : decFeed Config.params s = .next t) : ExecCase s t .decFeed
  | decFinal (hr : decRunning s.dec = true) (ht : decFinal Config.params s = .next t) : ExecCase s t .decFinal

/-- A command that answers does so in one of the ways of `ExecCase`. -/
theorem exec_cases {i : Instr} {s t : State} (h : exec i s = .next t) : ExecCase s t i := by
  have only : ∀ {u : State}, (∃ q, u = complete q s) → exec i s = .next u → ExecCase s t i := by
    rintro u ⟨q, hq⟩ hu
    exact .answers i q (.inr ((next_inj (h.symm.trans hu)).trans hq))
  cases i with
  | nop => exact .answers _ _ (.inl (next_inj h.symm))
  | csrRd a =>
    obtain ⟨q, hq, -⟩ := csrRd_shape a s
    exact .answers _ q (.inl (next_inj (h.symm.trans hq)))
  | csrWr a =>
    rcases csrWr_shape Config.params a s with hq | ⟨c, hc, hw, hq⟩
    · exact only ⟨_, hq⟩ rfl
    · obtain rfl := csrAt_some hc
      exact .csrWr c hw ((next_inj h).symm.trans hq)
  | scEnc => obtain ⟨q, hq, -⟩ := scEnc_shape Config.params s; exact only ⟨q, hq⟩ rfl
  | scDec => obtain ⟨q, hq, -⟩ := scDec_shape Config.params s; exact only ⟨q, hq⟩ rfl
  | frSerFirst => obtain ⟨q, hq, -⟩ := frSer_shape Config.params .first s; exact only ⟨q, hq⟩ rfl
  | frSerBlock => obtain ⟨q, hq, -⟩ := frSer_shape Config.params .block s; exact only ⟨q, hq⟩ rfl
  | frSerFinal => obtain ⟨q, hq, -⟩ := frSer_shape Config.params .final s; exact only ⟨q, hq⟩ rfl
  | frParse => obtain ⟨q, hq, -⟩ := frParse_shape Config.params s; exact only ⟨q, hq⟩ rfl
  | encInit =>
    rcases encInit_shape Config.params s with ⟨-, hq⟩ | ⟨-, -, hq⟩ | ⟨hs, ho, hq⟩
    · exact only ⟨_, hq⟩ rfl
    · exact only ⟨_, hq⟩ rfl
    · exact .encInit hs ho ((next_inj h).symm.trans hq)
  | encWrite =>
    rcases encWrite_shape Config.params s with ⟨-, hq⟩ | ⟨-, -, hq⟩ | ⟨hs, hb, hq⟩
    · exact only ⟨_, hq⟩ rfl
    · exact only ⟨_, hq⟩ rfl
    · exact .encWrite hs hb ((next_inj h).symm.trans hq)
  | encFinal =>
    rcases encFinal_shape Config.params s with ⟨-, hq⟩ | ⟨hs, hq⟩ | ⟨-, hq⟩
    · exact only ⟨_, hq⟩ rfl
    · exact .encFinal hs ((next_inj h).symm.trans hq)
    · exact only ⟨_, hq⟩ rfl
  | decInit =>
    rcases decInit_shape s with ⟨-, hq⟩ | ⟨hs, hq⟩
    · exact only ⟨_, rfl⟩ hq
    · exact .decInit hs (next_inj (h.symm.trans hq))
  | decFeed =>
    rcases decFeed_shape Config.params s with ⟨-, hq⟩ | ⟨hr, -⟩
    · exact only ⟨_, rfl⟩ hq
    · exact .decFeed hr h
  | decFinal =>
    rcases decFinal_shape Config.params s with ⟨-, hq⟩ | ⟨-, -, hq⟩ | ⟨-, hr, -⟩
    · exact only ⟨_, rfl⟩ hq
    · exact only ⟨_, rfl⟩ hq
    · exact .decFinal hr h

/-- A property that every command keeps, and that the command port, the operands and the answer to an illegal word do
not touch, is kept by every step (R355). -/
theorem step_keeps {I : State → Prop} (haccept : ∀ c rest s, I s → I (acceptCommand c rest s))
    (hillegal : ∀ s, I s → I (illegalCommand s)) (hexec : ∀ i s t, I s → exec i s = .next t → I t)
    {s t : State} (hs : I s) (h : step s = .next t) : I t := by
  unfold step at h
  split at h
  · exact next_inj h ▸ hs
  · rename_i c rest _
    split at h
    · exact next_inj h ▸ hillegal _ (haccept c rest s hs)
    · exact hexec _ _ _ (haccept c rest s hs) h

/-- A command of ENC leaves DEC, the IN stream and SINK alone, however its procedure ends (R124). -/
theorem encEnd_frame {α : Type} (r : Run EncFatal EncPart α) (f : α → Response) (s : State) :
    (encEnd r f s).dec = s.dec ∧ (encEnd r f s).input = s.input ∧ (encEnd r f s).sink = s.sink := by
  cases r <;> exact ⟨rfl, rfl, rfl⟩

/-- A command of DEC that answers leaves ENC and OUT alone (R124). -/
theorem decEnd_frame {r : Run DecStop DecPart Unit} {s t : State} (h : decEnd r s = .next t) :
    t.enc = s.enc ∧ t.out = s.out := by
  obtain ⟨p, rfl, -⟩ := decEnd_next h
  exact ⟨rfl, rfl⟩

/-! ### The CSR file (spec/10_state.md R42 to R64) -/

/-- A CSR.WR to the address of a CSR that may be written (R362). -/
theorem csrWr_address (P : Params) {c : Csr} (hc : csrAccess c ≠ .ro) (s : State) :
    csrWr P (csrAddress c) s = completeStatus .ok (writeCsr P c s.ops.value s) := by
  simp only [csrWr, csrAt_address, if_neg hc, operandValue]

/-- A CSR.RD of the address of a CSR (R361). -/
theorem execCsrRd_address (c : Csr) (s : State) :
    execCsrRd (csrAddress c) s = .next (answer { statusResponse .ok with value := readCsr s c } s) := by
  simp only [execCsrRd, csrAt_address]

/-- A write to CTRL, with both reset bits at once: no order of the two resets shows (R44). -/
theorem writeCsr_ctrl (P : Params) (v : U64) (s : State) : writeCsr P .ctrl v s = { s with
    enc := if v.getLsbD 0 then Enc.reset else s.enc
    dec := if v.getLsbD 1 then Dec.reset else s.dec } := by
  simp only [writeCsr, resetEnc, resetDec]
  split_ifs <;> rfl

/-- A CSR write leaves ENC as it was, or resets it (R44). -/
theorem writeCsr_enc (P : Params) (c : Csr) (v : U64) (s : State) :
    (writeCsr P c v s).enc = s.enc ∨ (writeCsr P c v s).enc = Enc.reset := by
  by_cases hc : c = .ctrl ∧ v.getLsbD 0 = true
  · obtain ⟨rfl, hv⟩ := hc
    right; rw [writeCsr_ctrl, if_pos hv]
  · exact .inl ((writeCsr_frame P c v s _ rfl).1 hc)

/-- A CSR write leaves DEC as it was, or resets it (R44). -/
theorem writeCsr_dec (P : Params) (c : Csr) (v : U64) (s : State) :
    (writeCsr P c v s).dec = s.dec ∨ (writeCsr P c v s).dec = Dec.reset := by
  by_cases hc : c = .ctrl ∧ v.getLsbD 1 = true
  · obtain ⟨rfl, hv⟩ := hc
    right; rw [writeCsr_ctrl, if_pos hv]
  · exact .inl ((writeCsr_frame P c v s _ rfl).2.1 hc)

/-- A CSR write leaves OUT, the IN stream and SINK alone (R362). -/
theorem writeCsr_ports (P : Params) (c : Csr) (v : U64) (s : State) :
    (writeCsr P c v s).out = s.out ∧ (writeCsr P c v s).input = s.input ∧ (writeCsr P c v s).sink = s.sink := by
  obtain ⟨-, -, hout, hinput, hsink, -⟩ := writeCsr_frame P c v s _ rfl
  exact ⟨hout, hinput, hsink⟩

/-- PARALLELISM stores the clamped value exactly: it fits i64 because the written value does (R47). -/
theorem clampPar_toInt (P : Params) (v : U64) : (clampPar P v).toInt = max 1 (min v.toInt P.parMax) := by
  have hv := BitVec.toInt_lt (x := v)
  simp only [Nat.add_one_sub_one] at hv
  rw [clampPar, BitVec.toInt_ofInt]
  apply Int.bmod_eq_of_le <;> omega

/-- CMD_STATUS has no part in the legality of the CSRs. -/
theorem csrLegal_cmdStatus {P : Params} {c : Csrs} (h : CsrLegal P c) (st : Status) :
    CsrLegal P { c with cmdStatus := st } :=
  ⟨h.par_pos, h.par_max, h.opt_reserved⟩

/-- Every CSR write stores legal values (R46, R47). -/
theorem writeCsr_csrLegal {P : Params} (hP : P.Lawful) (c : Csr) (v : U64) {s : State} (h : CsrLegal P s.csr) :
    CsrLegal P (writeCsr P c v s).csr := by
  cases c with
  | ctrl => rw [writeCsr_ctrl]; exact h
  | opt => exact ⟨h.par_pos, h.par_max, by simp only [writeCsr, BitVec.and_assoc, BitVec.and_self]⟩
  | parallelism =>
    have hmax := hP.parMax_pos
    have hclamp := clampPar_toInt P v
    refine ⟨?_, ?_, h.opt_reserved⟩
    · show 1 ≤ (clampPar P v).toInt
      omega
    · show (clampPar P v).toInt ≤ P.parMax
      omega
  | flags => exact ⟨h.par_pos, h.par_max, h.opt_reserved⟩
  | keepaliveMs => exact ⟨h.par_pos, h.par_max, h.opt_reserved⟩
  | sizeHint => exact ⟨h.par_pos, h.par_max, h.opt_reserved⟩
  | _ => exact h

/-- The power-on values of the CSRs are legal (R77). -/
theorem csrLegal_reset {P : Params} (hP : P.Lawful) : CsrLegal P Csrs.reset := by
  have hmax := hP.parMax_pos
  have hone : Csrs.reset.parallelism.toInt = 1 := by decide
  exact ⟨hone.ge, by omega, by decide⟩

/-- Every command keeps the CSRs legal. -/
theorem exec_csrLegal {i : Instr} {s t : State} (hc : CsrLegal Config.params s.csr) (h : exec i s = .next t) :
    CsrLegal Config.params t.csr := by
  have status : ∀ {u : State}, u.csr = { s.csr with cmdStatus := u.csr.cmdStatus } → CsrLegal Config.params u.csr :=
    fun hu => hu ▸ csrLegal_cmdStatus hc _
  cases exec_cases h with
  | answers _ q ht => rcases ht with rfl | rfl <;> exact status rfl
  | csrWr c _ ht => subst ht; exact csrLegal_cmdStatus (writeCsr_csrLegal Config.lawful c _ hc) _
  | encInit _ _ ht => subst ht; exact status rfl
  | encWrite _ _ ht => subst ht; exact status (encEnd_csr _ _ s)
  | encFinal _ ht => subst ht; exact status (encEnd_csr _ _ s)
  | decInit _ ht => subst ht; exact status rfl
  | decFeed hr _ => exact status (decEnd_csr (s := takeInput s.ops.data s) _ ((decFeed_run hr).symm.trans h))
  | decFinal hr _ => exact status (decEnd_csr _ ((decFinal_run hr).symm.trans h))

/-! ### ENC's invariant (R71) -/

/-- ENC in ENC.FINAL after its last Flush: what its invariant still asks for once the archive is closed, whether
FINALIZED or FAILED. The grid of ACTIVE is gone, since the last batch may be short. -/
structure EncFlushed (P : Params) (e : Enc) (out : Bytes) : Prop where
  no_fatal : e.fatal = none
  no_final : e.final = none
  index : 0 ≤ e.srcPos.toInt ∧ e.nextIdx.toInt = ceilDiv e.srcPos.toInt.toNat P.chunkSize
  outLog_on_out : e.outLog <:+ out
  outLog_grid : e.outLog.length % frameSize = 0
  source_bound : e.srcLog.length ≤ maxSource

/-- The last Flush of an archive leaves it so (R258). -/
theorem flush_flushed {P : Params} (hP : P.Lawful) {p q : EncPart} (h : EncLoop P p.enc p.out)
    (hf : flush P p = .ok () q) : EncFlushed P q.enc q.out := by
  obtain ⟨hkeep, -, hlog, hpos, hidx, hout, hgrid⟩ := flush_ok hP h hf
  refine ⟨hkeep.fatal.trans h.no_fatal, hkeep.final.trans h.no_final, ⟨?_, ?_⟩, hout, hgrid, hlog ▸ h.source_bound⟩
  · rw [hpos]; exact Int.natCast_nonneg _
  · rw [hidx, hpos, Int.toNat_natCast]

/-- A fatal condition after the last Flush leaves ENC's invariant (R410). -/
theorem EncFlushed.failed {P : Params} {e : Enc} {out : Bytes} (h : EncFlushed P e out) (c : EncFatal) :
    EncInv P { e with fatal := some c, state := .failed } out where
  fatal_iff_failed := by simp
  idle_is_reset := nofun
  active_open := nofun
  active_buffer := nofun
  active_position := nofun
  active_grid := nofun
  index := h.index
  outLog_on_out := h.outLog_on_out
  outLog_grid := h.outLog_grid
  source_bound := h.source_bound
  final_iff_finalized := by simp [h.no_final]

/-- Appending whole frames and recording the FinalHeader after the last Flush leaves ENC's invariant (R277). -/
theorem EncFlushed.finalized {P : Params} {e : Enc} {out b : Bytes} (h : EncFlushed P e out)
    (hb : b.length % frameSize = 0) (fin : FinalHeader) :
    EncInv P { e with outLog := e.outLog ++ b, final := some fin, state := .finalized } (out ++ b) where
  fatal_iff_failed := by simp [h.no_fatal]
  idle_is_reset := nofun
  active_open := nofun
  active_buffer := nofun
  active_position := nofun
  active_grid := nofun
  index := h.index
  outLog_on_out := by
    obtain ⟨x, hx⟩ := h.outLog_on_out
    exact ⟨x, by rw [← hx, List.append_assoc]⟩
  outLog_grid := by rw [List.length_append, Nat.add_mod, h.outLog_grid, hb]; rfl
  source_bound := h.source_bound
  final_iff_finalized := by simp

/-- How a command of ENC ends, as far as ENC's invariant goes: it is enough that the procedure leaves it when it is OK
and when a fatal condition marks ENC FAILED. -/
theorem encEnd_inv {α : Type} {P : Params} {r : Run EncFatal EncPart α} (f : α → Response) (s : State)
    (hok : ∀ a p, r = .ok a p → EncInv P p.enc p.out)
    (hstop : ∀ c p, r = .stop c p → EncInv P { p.enc with fatal := some c, state := .failed } p.out) :
    EncInv P (encEnd r f s).enc (encEnd r f s).out := by
  cases r with
  | ok a p => exact hok a p rfl
  | stop c p => exact hstop c p rfl

/-- ENC.INIT opens an archive that meets ENC's invariant, whatever options are sampled, with a batch size of at least
one (R251). -/
theorem openArchive_inv {P : Params} (hP : P.Lawful) {cfg : EncCfg} (hpar : 1 ≤ cfg.par) (pw : Bytes) (p : EncPart) :
    EncInv P (openArchive P cfg pw p).enc (openArchive P cfg pw p).out :=
  encInv_of_loop
    { state := rfl, no_fatal := rfl, no_final := rfl, par := hpar, key := rfl, first := rfl
      buffer := Nat.zero_le _
      position := rfl
      grid := ⟨0, by rw [Nat.zero_mul]; rfl⟩
      index := (encInv_reset P hP []).index.2
      outLog_on_out := List.nil_suffix
      outLog_grid := rfl
      source_bound := Nat.zero_le _ }
    (Nat.mul_pos hpar hP.chunkSize_pos)

/-- What the procedure of ENC.WRITE leaves of ENC's invariant (R256, R410). -/
theorem encWrite_inv {P : Params} (hP : P.Lawful) {s : State} (h : EncInv P s.enc s.out) (hs : s.enc.state = .active)
    {d : Bytes} (hb : s.enc.srcLog.length + d.length ≤ maxSource) (f : Unit → Response) :
    EncInv P (encEnd (acceptBytes P d (encPart s)) f s).enc (encEnd (acceptBytes P d (encPart s)) f s).out := by
  obtain ⟨hok, hstop⟩ := acceptBytes_loop hP d (encPart s) (encLoop_of_inv h hs) (h.active_buffer hs) hb
  refine encEnd_inv f s (fun _ p hp => ?_) fun c p hp => encInv_fatal (hstop c p hp) c
  obtain ⟨hloop, hshort, -⟩ := hok p hp
  exact encInv_of_loop hloop hshort

/-- What the procedure of ENC.FINAL leaves of ENC's invariant, in each of its three ends: a Flush that fails, a closing
frame that does not fit, and the archive closed (R277, R410). -/
theorem encFinal_inv {P : Params} (hP : P.Lawful) {s : State} (h : EncInv P s.enc s.out) (hs : s.enc.state = .active)
    (f : FinalHeader → Response) :
    EncInv P (encEnd (finishArchive P (encPart s)) f s).enc (encEnd (finishArchive P (encPart s)) f s).out := by
  have hl : EncLoop P (encPart s).enc (encPart s).out := encLoop_of_inv h hs
  unfold finishArchive
  cases hf : flush P (encPart s) with
  | stop c q => exact encInv_fatal (flush_stop hP hl hf) c
  | ok _ q =>
    have hq := flush_flushed hP hl hf
    rw [run_bind_ok]
    rcases closeArchive_cases P q with hc | ⟨first, fe, fz, hfe, -, hfz, hc⟩
    · rw [hc]; exact hq.failed .hdrOverflow
    · rw [hc]
      have hgrid : (fe ++ fz ++ fz).length % frameSize = 0 := by
        simp only [List.length_append, serFrame_length hP hfe, serFrame_length hP hfz, frameSize]
      have hfin := hq.finalized hgrid (finalHeader P q.enc first fe (P.now q.nowDraws))
      simp only [← List.append_assoc] at hfin
      exact hfin

/-- Every command keeps ENC's invariant, from CSRs that are legal. -/
theorem exec_encInv {i : Instr} {s t : State} (hc : CsrLegal Config.params s.csr)
    (he : EncInv Config.params s.enc s.out) (h : exec i s = .next t) : EncInv Config.params t.enc t.out := by
  have same : t.enc = s.enc ∧ t.out = s.out → EncInv Config.params t.enc t.out := by
    rintro ⟨h1, h2⟩; rw [h1, h2]; exact he
  cases exec_cases h with
  | answers _ q ht => rcases ht with rfl | rfl <;> exact he
  | csrWr c _ ht =>
    subst ht
    rw [completeStatus_enc, completeStatus_out, (writeCsr_ports _ c _ s).1]
    rcases writeCsr_enc Config.params c s.ops.value s with e | e <;> rw [e]
    · exact he
    · exact encInv_reset _ Config.lawful _
  | encInit _ _ ht => subst ht; exact openArchive_inv Config.lawful (par_pos hc) _ _
  | encWrite hs hb ht => subst ht; exact encWrite_inv Config.lawful he hs hb _
  | encFinal hs ht => subst ht; exact encFinal_inv Config.lawful he hs _
  | decInit _ ht => subst ht; exact he
  | decFeed hr _ => exact same (decEnd_frame (s := takeInput s.ops.data s) ((decFeed_run hr).symm.trans h))
  | decFinal hr _ => exact same (decEnd_frame ((decFinal_run hr).symm.trans h))

/-- Settles O57: by `step_keeps`, from what every command does to the CSRs and to ENC. -/
theorem stepKeepsEncInvariant : Obligations.StepKeepsEncInvariant := by
  intro s t hc he h
  exact step_keeps (I := fun s => CsrLegal Config.params s.csr ∧ EncInv Config.params s.enc s.out)
    (fun _ _ _ hI => hI) (fun _ hI => ⟨csrLegal_cmdStatus hI.1 _, hI.2⟩)
    (fun _ _ _ hI hx => ⟨exec_csrLegal hI.1 hx, exec_encInv hI.1 hI.2 hx⟩) ⟨hc, he⟩ h

/-! ### DEC's invariant (R73) -/

/-- DEC.FINAL without a FinalHeader leaves DEC's invariant: FAILED, with the tail dropped and the batch run (R334,
R410). -/
theorem decInv_truncated {d : Dec} {input : Bytes} (h : DecLoop d input) (ev : List SoftEvent) (n : Nat)
    (c : DecFatal) :
    DecInv { (noteEvents ev n d) with inBuf := [], batch := [], fatal := some c, state := .failed } input where
  fatal_iff_failed := by simp
  idle_is_reset := nofun
  await_is_open := nofun
  await_short := nofun
  streaming_open := nofun
  batch_bound := Nat.zero_lt_of_lt h.batch_bound
  batch_sane := nofun
  batch_below := nofun
  input_from_cursor := nofun
  errors_counted := by
    have := h.errors_counted
    simp only [noteEvents, countSeverity_append]; omega
  warnings_counted := by
    have := h.warnings_counted
    simp only [noteEvents, countSeverity_append]; omega
  outLen_bound := h.outLen_bound
  finalized_done := nofun

/-- The output length DEC.FINAL ends with is no smaller than before and inside SINK (R335). -/
theorem finalOutLen_bound (f : FinalHeader) {n : Nat} (hn : n ≤ 2 ^ 63 - 1) :
    n ≤ (if 0 ≤ f.totalSourceSize.toInt then max n f.totalSourceSize.toInt.toNat else n) ∧
      (if 0 ≤ f.totalSourceSize.toInt then max n f.totalSourceSize.toInt.toNat else n) ≤ 2 ^ 63 - 1 := by
  have ht := BitVec.toInt_lt (x := f.totalSourceSize)
  simp only [Nat.add_one_sub_one] at ht
  split_ifs <;> omega

/-- DEC.FEED keeps DEC's invariant and SINK's form (R303, R313). -/
theorem decFeed_inv {P : Params} {s t : State} (hd : DecInv s.dec s.input) (hm : SinkInv s.sink)
    (hr : decRunning s.dec = true) (h : decFeed P s = .next t) : DecInv t.dec t.input ∧ SinkInv t.sink := by
  rcases decFeed_running P hd hr with ⟨q, -, hloop, hkeep, hshort, e⟩ | ⟨c, -, e⟩
  · obtain rfl := next_inj (h.symm.trans e)
    exact ⟨decInv_of_loop hloop hshort, hkeep.sink hm⟩
  · obtain rfl := next_inj (h.symm.trans e)
    exact ⟨decInv_fatal (decLoop_of_inv hd hr) c, hm⟩

/-- DEC.FINAL keeps DEC's invariant and SINK's form, in each of its three ends: no FirstHeader, no FinalHeader, and the
decode finished (R330, R334, R335). -/
theorem decFinal_inv {P : Params} {s t : State} (hd : DecInv s.dec s.input) (hm : SinkInv s.sink)
    (hr : decRunning s.dec = true) (h : decFinal P s = .next t) : DecInv t.dec t.input ∧ SinkInv t.sink := by
  rcases decFinal_running P hd hr with ⟨-, e⟩ | ⟨q, ev, n, m, -, -, hloop, hkeep, -, hsink, -, e⟩
  · obtain rfl := next_inj (h.symm.trans e)
    have hl : DecLoop s.dec s.input := by simpa using decLoop_of_inv (b := []) hd hr
    exact ⟨decInv_fatal hl _, hm⟩
  · rw [e] at h
    rcases closeDecode_cases P ⟨{ (noteEvents ev n q.dec) with inBuf := [], batch := [] }, m⟩ hloop.outLen_bound with
      ⟨-, hc⟩ | ⟨f, o, ev', hf, ho, -, hc⟩
    · rw [hc] at h
      obtain rfl := next_inj h
      exact ⟨decInv_truncated hloop ev n _, hsink (hkeep.sink hm)⟩
    · rw [hc] at h
      obtain rfl := next_inj h
      have hbound := finalOutLen_bound f hloop.outLen_bound
      exact ⟨decInv_done hloop ev ev' n o (ho ▸ hbound) (by rw [show q.dec.final = some f from hf]; rfl),
        hsink (hkeep.sink hm)⟩

/-- Every command keeps DEC's invariant and SINK's form, from CSRs that are legal. -/
theorem exec_decInv {i : Instr} {s t : State} (hc : CsrLegal Config.params s.csr) (hd : DecInv s.dec s.input)
    (hm : SinkInv s.sink) (h : exec i s = .next t) : DecInv t.dec t.input ∧ SinkInv t.sink := by
  have same : t.dec = s.dec ∧ t.input = s.input ∧ t.sink = s.sink → DecInv t.dec t.input ∧ SinkInv t.sink := by
    rintro ⟨h1, h2, h3⟩; rw [h1, h2, h3]; exact ⟨hd, hm⟩
  cases exec_cases h with
  | answers _ q ht => rcases ht with rfl | rfl <;> exact ⟨hd, hm⟩
  | csrWr c _ ht =>
    subst ht
    obtain ⟨-, hinput, hsink⟩ := writeCsr_ports Config.params c s.ops.value s
    rw [completeStatus_dec, completeStatus_input, completeStatus_sink, hinput, hsink]
    rcases writeCsr_dec Config.params c s.ops.value s with e | e <;> rw [e]
    · exact ⟨hd, hm⟩
    · exact ⟨decInv_reset _, hm⟩
  | encInit _ _ ht => subst ht; exact ⟨hd, hm⟩
  | encWrite _ _ ht => subst ht; exact same (encEnd_frame _ _ s)
  | encFinal _ ht => subst ht; exact same (encEnd_frame _ _ s)
  | decInit _ ht => subst ht; exact ⟨decInv_open _ _ (par_pos hc), hm⟩
  | decFeed hr ht => exact decFeed_inv hd hm hr ht
  | decFinal hr ht => exact decFinal_inv hd hm hr ht

/-- Settles O58: by `step_keeps`, from what every command does to DEC and SINK; that the CSRs stay legal is part of the
property kept, since DEC.INIT takes its batch size from PARALLELISM. -/
theorem stepKeepsDecInvariant : Obligations.StepKeepsDecInvariant := by
  intro s t hc hd hm h
  have hI := step_keeps
    (I := fun s => CsrLegal Config.params s.csr ∧ DecInv s.dec s.input ∧ SinkInv s.sink)
    (fun _ _ _ hI => hI) (fun _ hI => ⟨csrLegal_cmdStatus hI.1 _, hI.2⟩)
    (fun _ _ _ hI hx => ⟨exec_csrLegal hI.1 hx, exec_decInv hI.1 hI.2.1 hI.2.2 hx⟩) ⟨hc, hd, hm⟩ h
  exact hI.2

/-! ### DEC's counters (R73, R302) -/

/-- A command of DEC that takes input leaves the counters at least as large, and SINK in its form, from every state. -/
theorem decRunning_grows {i : Instr} {s t : State} (hi : i = .decFeed ∨ i = .decFinal) (hr : decRunning s.dec = true)
    (h : exec i s = .next t) : DecGrows (decPart s) (decPart t) := by
  rcases hi with rfl | rfl
  · have hg := decEnd_grows (fun _ => parseLoop_grows) ((decFeed_run hr).symm.trans h)
    exact ⟨hg.errors, hg.warnings, hg.totalBytes, hg.cursor, hg.outLen, hg.sink⟩
  · exact decEnd_grows (fun _ => finishDecode_grows) ((decFinal_run hr).symm.trans h)

/-- A command but DEC.INIT, and but a CTRL write that resets DEC, leaves DEC alone or is one of DEC that takes input. -/
theorem exec_dec_eq_or_running {i : Instr} {s t : State} (h : exec i s = .next t) (hinit : i ≠ .decInit)
    (hreset : resetsDec s i = false) :
    t.dec = s.dec ∨ (i = .decFeed ∨ i = .decFinal) ∧ decRunning s.dec = true := by
  cases exec_cases h with
  | answers _ q ht => left; rcases ht with rfl | rfl <;> rfl
  | csrWr c _ ht =>
    left
    subst ht
    refine (writeCsr_frame _ c _ s _ rfl).2.1 ?_
    rintro ⟨rfl, hv⟩
    exact Bool.false_ne_true (hreset.symm.trans hv)
  | encInit _ _ ht => subst ht; exact .inl rfl
  | encWrite _ _ ht => subst ht; exact .inl (encEnd_frame _ _ s).1
  | encFinal _ ht => subst ht; exact .inl (encEnd_frame _ _ s).1
  | decInit => exact absurd rfl hinit
  | decFeed hr => exact .inr ⟨.inl rfl, hr⟩
  | decFinal hr => exact .inr ⟨.inr rfl, hr⟩

/-- Settles O54: a command that leaves DEC alone, or one whose procedures only grow the counters. -/
theorem decCountersNeverDecrease : Obligations.DecCountersNeverDecrease := by
  intro i s t h hinit hreset
  rcases exec_dec_eq_or_running h hinit hreset with e | ⟨hi, hr⟩
  · rw [e]; exact ⟨le_rfl, le_rfl, le_rfl, le_rfl, le_rfl⟩
  · have hg := decRunning_grows hi hr h
    exact ⟨hg.errors, hg.warnings, hg.totalBytes, hg.cursor, hg.outLen⟩

/-! ### Reset (R44, R77 to R79) -/

/-- Settles O15: the address of CTRL is that of a CSR that may be written, and `writeCsr_ctrl` says what is stored. -/
theorem ctrlResetsUnits : Obligations.CtrlResetsUnits := by
  refine ⟨rfl, rfl, fun s => ⟨?_, execCsrRd_address .ctrl s⟩⟩
  have hwr := csrWr_address Config.params (c := .ctrl) (by decide) s
  rw [writeCsr_ctrl] at hwr
  exact congrArg Host.Outcome.next hwr

/-- What every CSR reads at power-on reset, in address order: the table of R77. -/
theorem reset_csr_table : mappedCsrs.map (fun c => (csrAddress c, readCsr State.reset c)) =
    [(0x000, 1), (0x001, 0), (0x002, 0), (0x010, 0), (0x011, 1), (0x012, 0), (0x013, 0),
      (0x014, 0xFFFFFFFFFFFFFFFF), (0x020, 0), (0x021, 0), (0x022, 0), (0x023, 0), (0x024, 0), (0x030, 0), (0x031, 0),
      (0x032, 0), (0x033, 0), (0x034, 0), (0x035, 0), (0x036, 0), (0x037, 0)] := by
  decide

/-- Settles O16: each row of the table is a CSR's address with what that CSR reads at reset. -/
theorem resetCsrValues : Obligations.ResetCsrValues := by
  refine ⟨fun p hp => ?_, fun s => ⟨resetEnc_csr s, resetDec_csr s⟩⟩
  rw [← reset_csr_table] at hp
  obtain ⟨c, -, rfl⟩ := List.mem_map.mp hp
  exact execCsrRd_address c State.reset

/-- Settles O56: each part of the invariant at its reset values. -/
theorem resetMeetsInvariant : Obligations.ResetMeetsInvariant where
  csr := csrLegal_reset Config.lawful
  enc := encInv_reset _ Config.lawful _
  dec := decInv_reset _
  sink := ⟨rfl, rfl⟩

end Sys2Proof.Machine

/-! ## What each unit's commands read and write (spec/20_memory.md R124; spec/60_exceptions.md R425)

DEC's side of the machine is DEC, the IN stream and SINK; ENC's side is what `setEncPart` replaces. Every command writes
one side at most, and a command of one side, or of none, commutes with any change of the other. -/

namespace Sys2Proof.Machine

/-- A state with DEC, the IN stream and SINK replaced: all that a command of DEC may write beside its answer. -/
def setDecSide (d : Dec) (b : Bytes) (m : Sink) (s : State) : State := { s with dec := d, input := b, sink := m }

@[simp] theorem setDecSide_enc (d : Dec) (b : Bytes) (m : Sink) (s : State) : (setDecSide d b m s).enc = s.enc := rfl
@[simp] theorem encPart_setDecSide (d : Dec) (b : Bytes) (m : Sink) (s : State) :
    encPart (setDecSide d b m s) = encPart s := rfl

/-! ### What a command writes -/

/-- What a command that answers writes, by sides: nothing but its answer, a CSR, ENC's side if it is a command of ENC,
or DEC's side if it is one of DEC. -/
inductive WriteCase (s t : State) (i : Instr) : Prop
  | answers (q : Response) (ht : t = answer q s ∨ t = complete q s)
  | csrWr (c : Csr) (hi : i = .csrWr (csrAddress c))
      (ht : t = completeStatus .ok (writeCsr Config.params c s.ops.value s))
  | encSide (hi : isEncCommand i = true) (q : Response) (p : EncPart) (ht : t = complete q (setEncPart p s))
  | decSide (hi : isDecCommand i = true) (q : Response) (d : Dec) (b : Bytes) (m : Sink)
      (ht : t = complete q (setDecSide d b m s))

/-- However a procedure of ENC ends, it has written ENC's side only (R124). -/
theorem encEnd_writes {α : Type} {i : Instr} (hi : isEncCommand i = true) (r : Run EncFatal EncPart α)
    (f : α → Response) (s : State) : WriteCase s (encEnd r f s) i := by
  obtain ⟨q, p, e, -⟩ := encEnd_shape r f s
  exact .encSide hi q p e

/-- A command that answers writes one side at most. -/
theorem exec_writes {i : Instr} {s t : State} (h : exec i s = .next t) : WriteCase s t i := by
  cases exec_cases h with
  | answers _ q ht => exact .answers q ht
  | csrWr c _ ht => exact .csrWr c rfl ht
  | encInit _ _ ht => exact .encSide rfl _ _ ht
  | encWrite _ _ ht => exact ht ▸ encEnd_writes rfl _ _ s
  | encFinal _ ht => exact ht ▸ encEnd_writes rfl _ _ s
  | decInit _ ht => exact .decSide rfl _ _ _ s.sink ht
  | decFeed hr _ =>
    obtain ⟨p, ht, -⟩ := decEnd_next (s := takeInput s.ops.data s) ((decFeed_run hr).symm.trans h)
    exact .decSide rfl _ p.dec _ p.sink ht
  | decFinal hr _ =>
    obtain ⟨p, ht, -⟩ := decEnd_next ((decFinal_run hr).symm.trans h)
    exact .decSide rfl _ p.dec s.input p.sink ht

/-- A command that is not ENC's leaves OUT and the draws alone, and ENC too unless it resets it. -/
theorem exec_leaves_encSide {i : Instr} {s t : State} (h : exec i s = .next t) (hi : isEncCommand i = false) :
    (resetsEnc s i = false → t.enc = s.enc) ∧
      t.out = s.out ∧ t.nowDraws = s.nowDraws ∧ t.randDraws = s.randDraws := by
  cases exec_writes h with
  | answers q ht => rcases ht with rfl | rfl <;> exact ⟨fun _ => rfl, rfl, rfl, rfl⟩
  | csrWr c hc ht =>
    subst hc ht
    obtain ⟨henc, -, hout, -, -, hnow, hrand, -⟩ := writeCsr_frame Config.params c s.ops.value s _ rfl
    refine ⟨fun hreset => henc ?_, hout, hnow, hrand⟩
    rintro ⟨rfl, hv⟩
    exact Bool.false_ne_true (hreset.symm.trans hv)
  | encSide he => exact absurd (hi.symm.trans he) Bool.false_ne_true
  | decSide _ q d b m ht => subst ht; exact ⟨fun _ => rfl, rfl, rfl, rfl⟩

/-- A command that is not DEC's leaves the IN stream and SINK alone, and DEC too unless it resets it. -/
theorem exec_leaves_decSide {i : Instr} {s t : State} (h : exec i s = .next t) (hi : isDecCommand i = false) :
    (resetsDec s i = false → t.dec = s.dec) ∧ t.input = s.input ∧ t.sink = s.sink := by
  cases exec_writes h with
  | answers q ht => rcases ht with rfl | rfl <;> exact ⟨fun _ => rfl, rfl, rfl⟩
  | csrWr c hc ht =>
    subst hc ht
    obtain ⟨-, hdec, -, hinput, hsink, -⟩ := writeCsr_frame Config.params c s.ops.value s _ rfl
    refine ⟨fun hreset => hdec ?_, hinput, hsink⟩
    rintro ⟨rfl, hv⟩
    exact Bool.false_ne_true (hreset.symm.trans hv)
  | encSide _ q p ht => subst ht; exact ⟨fun _ => rfl, rfl, rfl⟩
  | decSide hd => exact absurd (hi.symm.trans hd) Bool.false_ne_true

/-- Every command leaves the command port and its operands alone. -/
theorem exec_leaves_port {i : Instr} {s t : State} (h : exec i s = .next t) : t.cmds = s.cmds ∧ t.ops = s.ops := by
  cases exec_writes h with
  | answers q ht => rcases ht with rfl | rfl <;> exact ⟨rfl, rfl⟩
  | csrWr c _ ht =>
    subst ht
    obtain ⟨-, -, -, -, -, -, -, hcmds, hops⟩ := writeCsr_frame Config.params c s.ops.value s _ rfl
    exact ⟨hcmds, hops⟩
  | encSide _ q p ht => subst ht; exact ⟨rfl, rfl⟩
  | decSide _ q d b m ht => subst ht; exact ⟨rfl, rfl⟩

/-- A command other than CSR.WR writes no CSR but CMD_STATUS. -/
theorem exec_leaves_csr {i : Instr} {s t : State} (h : exec i s = .next t) (hi : ∀ a, i ≠ .csrWr a) :
    t.csr = { s.csr with cmdStatus := t.csr.cmdStatus } := by
  cases exec_writes h with
  | answers q ht => rcases ht with rfl | rfl <;> rfl
  | csrWr c hc _ => exact absurd hc (hi _)
  | encSide _ q p ht => subst ht; rfl
  | decSide _ q d b m ht => subst ht; rfl

/-! ### What a command reads -/

/-- A command of neither unit nor the CSRs commutes with every update `U` that the operands and the answers do not
see. -/
theorem exec_unitless_commutes {U : State → State} (hops : ∀ s, (U s).ops = s.ops)
    (hanswer : ∀ q s, answer q (U s) = U (answer q s)) (hcomplete : ∀ q s, complete q (U s) = U (complete q s))
    {i : Instr} (henc : isEncCommand i = false) (hdec : isDecCommand i = false) (hcsr : isCsrCommand i = false)
    {s t : State} (h : exec i s = .next t) : exec i (U s) = .next (U t) := by
  obtain ⟨hscEnc, hscDec, hser, hparse⟩ := answer_only_commutes Config.params U hops hcomplete s
  cases i with
  | nop => exact next_inj h ▸ congrArg Host.Outcome.next (hanswer _ s)
  | scEnc => exact next_inj h ▸ congrArg Host.Outcome.next hscEnc
  | scDec => exact next_inj h ▸ congrArg Host.Outcome.next hscDec
  | frSerFirst => exact next_inj h ▸ congrArg Host.Outcome.next (hser .first)
  | frSerBlock => exact next_inj h ▸ congrArg Host.Outcome.next (hser .block)
  | frSerFinal => exact next_inj h ▸ congrArg Host.Outcome.next (hser .final)
  | frParse => exact next_inj h ▸ congrArg Host.Outcome.next hparse
  | csrRd => cases hcsr
  | csrWr => cases hcsr
  | encInit => cases henc
  | encWrite => cases henc
  | encFinal => cases henc
  | decInit => cases hdec
  | decFeed => cases hdec
  | decFinal => cases hdec

/-- ENC.INIT does not read DEC's side (R251). -/
theorem encInit_setDecSide (P : Params) (d : Dec) (b : Bytes) (m : Sink) (s : State) :
    encInit P (setDecSide d b m s) = setDecSide d b m (encInit P s) := by
  rcases encInit_shape P s with ⟨hs, e⟩ | ⟨hs, ho, e⟩ | ⟨hs, ho, e⟩ <;> rw [e]
  · exact if_pos hs
  · exact (if_neg (not_not.mpr hs)).trans (if_neg (Bool.eq_false_iff.mp ho))
  · exact (if_neg (not_not.mpr hs)).trans (if_pos ho)

/-- ENC.WRITE does not read DEC's side (R256). -/
theorem encWrite_setDecSide (P : Params) (d : Dec) (b : Bytes) (m : Sink) (s : State) :
    encWrite P (setDecSide d b m s) = setDecSide d b m (encWrite P s) := by
  rcases encWrite_shape P s with ⟨hs, e⟩ | ⟨hs, hb, e⟩ | ⟨hs, hb, e⟩ <;> rw [e]
  · exact if_pos hs
  · exact (if_neg (not_not.mpr hs)).trans (if_pos hb)
  · exact ((if_neg (not_not.mpr hs)).trans (if_neg (not_lt.mpr hb))).trans (encEnd_dec _ _ s d b m)

/-- ENC.FINAL does not read DEC's side (R277). -/
theorem encFinal_setDecSide (P : Params) (d : Dec) (b : Bytes) (m : Sink) (s : State) :
    encFinal P (setDecSide d b m s) = setDecSide d b m (encFinal P s) := by
  simp only [encFinal, setDecSide_enc, encPart_setDecSide]
  split
  · rfl
  · exact encEnd_dec _ _ s d b m
  · rfl
  · rfl

/-- A command of ENC does the same whatever DEC's side holds (R124). -/
theorem exec_enc_setDecSide {i : Instr} (hi : isEncCommand i = true) (d : Dec) (b : Bytes) (m : Sink) {s t : State}
    (h : exec i s = .next t) : exec i (setDecSide d b m s) = .next (setDecSide d b m t) := by
  cases i with
  | encInit => exact next_inj h ▸ congrArg Host.Outcome.next (encInit_setDecSide Config.params d b m s)
  | encWrite => exact next_inj h ▸ congrArg Host.Outcome.next (encWrite_setDecSide Config.params d b m s)
  | encFinal => exact next_inj h ▸ congrArg Host.Outcome.next (encFinal_setDecSide Config.params d b m s)
  | _ => cases hi

/-- DEC.INIT does not read ENC's side (R300). -/
theorem decInit_setEncPart (p : EncPart) {s t : State} (h : execDecInit s = .next t) :
    execDecInit (setEncPart p s) = .next (setEncPart p t) := by
  rcases decInit_shape s with ⟨hs, e⟩ | ⟨hs, e⟩ <;> obtain rfl := next_inj (h.symm.trans e)
  · exact if_pos hs
  · exact if_neg (not_not.mpr hs)

/-- DEC.FEED does not read ENC's side (R303). -/
theorem decFeed_setEncPart {P : Params} (p : EncPart) {s t : State} (h : decFeed P s = .next t) :
    decFeed P (setEncPart p s) = .next (setEncPart p t) := by
  rcases decFeed_shape P s with ⟨hr, e⟩ | ⟨hr, e⟩
  · obtain rfl := next_inj (h.symm.trans e)
    exact if_pos (Bool.eq_false_iff.mp hr)
  · exact (if_neg (not_not.mpr hr)).trans
      (decEnd_enc _ (takeInput s.ops.data s) t p.enc p.out p.nowDraws p.randDraws (e.symm.trans h))

/-- DEC.FINAL does not read ENC's side (R330). -/
theorem decFinal_setEncPart {P : Params} (p : EncPart) {s t : State} (h : decFinal P s = .next t) :
    decFinal P (setEncPart p s) = .next (setEncPart p t) := by
  rcases decFinal_shape P s with ⟨hs, e⟩ | ⟨hs, hr, e⟩ | ⟨hs, hr, e⟩
  · obtain rfl := next_inj (h.symm.trans e)
    exact if_pos hs
  · obtain rfl := next_inj (h.symm.trans e)
    exact (if_neg hs).trans (if_pos (Bool.eq_false_iff.mp hr))
  · exact ((if_neg hs).trans (if_neg (not_not.mpr hr))).trans
      (decEnd_enc _ s t p.enc p.out p.nowDraws p.randDraws (e.symm.trans h))

/-- A command of DEC does the same whatever ENC's side holds (R124). -/
theorem exec_dec_setEncPart {i : Instr} (hi : isDecCommand i = true) (p : EncPart) {s t : State}
    (h : exec i s = .next t) : exec i (setEncPart p s) = .next (setEncPart p t) := by
  cases i with
  | decInit => exact decInit_setEncPart p h
  | decFeed => exact decFeed_setEncPart p h
  | decFinal => exact decFinal_setEncPart p h
  | _ => cases hi

/-- A command of neither DEC nor the CSRs does the same whatever DEC's side holds (R124). -/
theorem exec_setDecSide {i : Instr} (hdec : isDecCommand i = false) (hcsr : isCsrCommand i = false) (d : Dec)
    (b : Bytes) (m : Sink) {s t : State} (h : exec i s = .next t) :
    exec i (setDecSide d b m s) = .next (setDecSide d b m t) := by
  cases henc : isEncCommand i with
  | true => exact exec_enc_setDecSide henc d b m h
  | false =>
    exact exec_unitless_commutes (U := setDecSide d b m) (fun _ => rfl) (fun _ _ => rfl) (fun _ _ => rfl)
      henc hdec hcsr h

/-- A command of neither ENC nor the CSRs does the same whatever ENC's side holds (R124). -/
theorem exec_setEncPart {i : Instr} (henc : isEncCommand i = false) (hcsr : isCsrCommand i = false) (p : EncPart)
    {s t : State} (h : exec i s = .next t) : exec i (setEncPart p s) = .next (setEncPart p t) := by
  cases hdec : isDecCommand i with
  | true => exact exec_dec_setEncPart hdec p h
  | false =>
    exact exec_unitless_commutes (U := setEncPart p) (fun _ => rfl) (fun _ _ => rfl) (fun _ _ => rfl)
      henc hdec hcsr h

/-- Settles O10: what a command writes is read off `exec_writes`; what it does not read is what it commutes with. -/
theorem unitsShareNoState : Obligations.UnitsShareNoState := by
  intro i s t h
  obtain ⟨hcmds, hops⟩ := exec_leaves_port h
  exact ⟨fun hi => (exec_leaves_encSide h hi).1, fun hi => (exec_leaves_encSide h hi).2,
    fun hi => (exec_leaves_decSide h hi).1, fun hi => (exec_leaves_decSide h hi).2, hcmds, hops,
    fun hdec hcsr d b m => exec_setDecSide hdec hcsr d b m h,
    fun henc hcsr e o n r => exec_setEncPart henc hcsr ⟨e, o, n, r⟩ h, exec_leaves_csr h⟩

/-! ### SINK (R104, R105, R107) -/

/-- A command leaves SINK alone, or it is one of DEC that takes input. -/
theorem exec_sink_eq_or_running {i : Instr} {s t : State} (h : exec i s = .next t) :
    t.sink = s.sink ∨ (i = .decFeed ∨ i = .decFinal) ∧ decRunning s.dec = true := by
  cases hi : isDecCommand i with
  | false => exact .inl (exec_leaves_decSide h hi).2.2
  | true =>
    cases exec_cases h with
    | answers _ q ht => left; rcases ht with rfl | rfl <;> rfl
    | decInit _ ht => subst ht; exact .inl rfl
    | decFeed hr => exact .inr ⟨.inl rfl, hr⟩
    | decFinal hr => exact .inr ⟨.inr rfl, hr⟩
    | _ => cases hi

/-- Settles O59: by `step_keeps`; a command that takes input keeps SINK's form from every state, and no other command
writes SINK. -/
theorem stepKeepsSinkCanonical : Obligations.StepKeepsSinkCanonical := by
  intro s t hm h
  refine step_keeps (I := fun s => SinkInv s.sink) (fun _ _ _ hI => hI) (fun _ hI => hI) (fun i s t hI hx => ?_) hm h
  rcases exec_sink_eq_or_running hx with e | ⟨hi, hr⟩
  · exact e.symm ▸ hI
  · exact (decRunning_grows hi hr hx).sink hI

/-- No chunk that a decode of `input` from `d` on may write covers the address, or the address is not below the output
length `n`. -/
def Unwritten (P : Params) (input : Bytes) (d : Dec) (n a : Nat) : Prop :=
  (∀ b, entryCovers b a → ¬ Origin P input d b) ∨ n ≤ a

/-- The end of a decode leaves SINK alone and the output length at least as large, however it answers (R334, R335). -/
theorem decEnd_closeDecode {P : Params} {p : DecPart} {s t : State} (h : decEnd (closeDecode P p) s = .next t)
    (hp : p.dec.outLen ≤ 2 ^ 63 - 1) : t.sink = p.sink ∧ p.dec.outLen ≤ t.dec.outLen := by
  rcases closeDecode_cases P p hp with ⟨-, hc⟩ | ⟨f, o, ev, -, ho, -, hc⟩
  · rw [hc] at h
    obtain rfl := next_inj h
    exact ⟨rfl, le_rfl⟩
  · rw [hc] at h
    obtain rfl := next_inj h
    exact ⟨rfl, ho ▸ (finalOutLen_bound f hp).1⟩

/-- DEC.FEED writes only what its parse loop writes (R303). -/
theorem decFeed_sink_frame {P : Params} {s t : State} (hd : DecInv s.dec s.input) (hr : decRunning s.dec = true)
    (h : decFeed P s = .next t) {a : Nat} (ha : Unwritten P t.input s.dec t.dec.outLen a) :
    Memory.get t.sink a = Memory.get s.sink a := by
  rcases decFeed_running P hd hr with ⟨q, hloop, -, -, -, e⟩ | ⟨c, -, e⟩
  · obtain rfl := next_inj (h.symm.trans e)
    exact (parseLoop_writes (decLoop_of_inv hd hr) hloop).mem a ha
  · obtain rfl := next_inj (h.symm.trans e)
    rfl

/-- DEC.FINAL writes only what its parse loop writes, and then what the chunks left in the batch cover (R330, R333). -/
theorem decFinal_sink_frame {P : Params} {s t : State} (hd : DecInv s.dec s.input) (hr : decRunning s.dec = true)
    (h : decFinal P s = .next t) {a : Nat} (ha : Unwritten P t.input s.dec t.dec.outLen a) :
    Memory.get t.sink a = Memory.get s.sink a := by
  rcases decFinal_running P hd hr with ⟨-, e⟩ | ⟨q, ev, n, m, -, hparse, hloop, -, -, -, hm, e⟩
  · obtain rfl := next_inj (h.symm.trans e)
    rfl
  · have hend := e.symm.trans h
    have hinput : t.input = s.input := by
      obtain ⟨p, rfl, -⟩ := decEnd_next hend
      rfl
    obtain ⟨hsink, hout⟩ := decEnd_closeDecode hend hloop.outLen_bound
    have hl : DecLoop s.dec s.input := by simpa using decLoop_of_inv (b := []) hd hr
    have hw := parseLoop_writes (p := decPart s) hl hparse
    rw [Unwritten, hinput] at ha
    calc Memory.get t.sink a
        = Memory.get m a := by rw [hsink]
      _ = Memory.get q.sink a := hm a (not_covers hw.origin hloop.batch_below hout ha)
      _ = Memory.get s.sink a := hw.mem a (ha.imp_right hout.trans)

/-- Settles O50: the chunks the statement excludes are those of `Origin`, and both commands write no other. -/
theorem decodeWritesOnlyChunkRanges : Obligations.DecodeWritesOnlyChunkRanges := by
  intro i s t _ hd h a ha
  have hu : Unwritten Config.params t.input s.dec t.dec.outLen a :=
    ha.imp_left fun hno b hcov horigin => horigin.elim (hno b hcov).1 (hno b hcov).2
  rcases exec_sink_eq_or_running h with e | ⟨rfl | rfl, hr⟩
  · rw [e]
  · exact decFeed_sink_frame hd hr h hu
  · exact decFinal_sink_frame hd hr h hu

end Sys2Proof.Machine

/-! ## The command words (spec/30_encoding.md R140 to R148)

`decode_eq_ok_iff` is the one fact about the decoder that the statements below use: the legal words are the commands'
own words, each decoding to its command. -/

namespace Sys2Proof.Machine

/-! ### Decoder and encoder -/

/-- The decoder answers with a row of the opcode map that matches the word (R143). -/
theorem decode_ok_row {w : BitVec 32} {i : Instr} (h : decode w = .ok i) :
    ∃ r ∈ opcodeMap, w &&& r.mask = r.word ∧ i = r.instr (wordCsra w) := by
  unfold decode at h
  split at h
  next r hr =>
    injection h with hi
    have hit := List.find?_some hr
    exact ⟨r, List.mem_of_find?_eq_some hr, beq_iff_eq.mp hit, hi.symm⟩
  next => cases h

/-- A row of the opcode map stands for its own word, or for that word with any CSR address in the bits its mask leaves
free (R142). -/
theorem opcodeMap_row {r : OpcodeRow} (hr : r ∈ opcodeMap) :
    (r.mask = 0xFFFFFFFF ∧ ∀ a, encode (r.instr a) = r.word) ∨
    (r.mask = 0xFFFFF000 ∧ ∀ a, encode (r.instr a) = r.word ||| a.zeroExtend 32) := by
  revert r
  simp [opcodeMap, encode]

/-- Settles O2: the row that matches the word leaves none of its bits out: those outside the mask are the CSR address,
which the command carries. -/
theorem encodeOfDecode : Obligations.EncodeOfDecode := by
  intro w i h
  obtain ⟨r, hr, hit, rfl⟩ := decode_ok_row h
  rcases opcodeMap_row hr with ⟨hmask, henc⟩ | ⟨hmask, henc⟩
  · rw [henc, ← hit, hmask, mask_full]
  · rw [henc]
    exact csr_bits (hmask ▸ hit)

/-- The row of CSR.RD is the first that matches its words (R142). -/
theorem decode_csrRd (a : CsrAddr) : decode (encode (.csrRd a)) = .ok (.csrRd a) := by
  have hnop : encode (.csrRd a) &&& 0xFFFFFFFF ≠ 0 := fun h => absurd
    ((or_mask a).symm.trans (congrArg (· &&& _) ((mask_full _).symm.trans h))) (by decide)
  have hrow : opcodeMap.find? (fun r => r.hits (encode (.csrRd a))) = some ⟨0x01000000, 0xFFFFF000, .csrRd⟩ := by
    rw [opcodeMap, List.find?_cons_of_neg, List.find?_cons_of_pos]
    · exact beq_iff_eq.mpr (or_mask a)
    · exact fun h => hnop (beq_iff_eq.mp h)
  simp only [decode, hrow]
  exact congrArg (fun c => Except.ok (Instr.csrRd c)) (or_csra a)

/-- The row of CSR.WR is the first that matches its words (R142). -/
theorem decode_csrWr (a : CsrAddr) : decode (encode (.csrWr a)) = .ok (.csrWr a) := by
  have hnop : encode (.csrWr a) &&& 0xFFFFFFFF ≠ 0 := fun h => absurd
    ((or_mask' a).symm.trans (congrArg (· &&& _) ((mask_full _).symm.trans h))) (by decide)
  have hrd : encode (.csrWr a) &&& 0xFFFFF000 ≠ 0x01000000 := fun h => absurd ((or_mask' a).symm.trans h) (by decide)
  have hrow : opcodeMap.find? (fun r => r.hits (encode (.csrWr a))) = some ⟨0x02000000, 0xFFFFF000, .csrWr⟩ := by
    rw [opcodeMap, List.find?_cons_of_neg, List.find?_cons_of_neg, List.find?_cons_of_pos]
    · exact beq_iff_eq.mpr (or_mask' a)
    · exact fun h => hrd (beq_iff_eq.mp h)
    · exact fun h => hnop (beq_iff_eq.mp h)
  simp only [decode, hrow]
  exact congrArg (fun c => Except.ok (Instr.csrWr c)) (or_csra' a)

/-- Settles O1: the two commands whose words vary by `decode_csrRd` and `decode_csrWr`, the 13 fixed words by running
the decoder. -/
theorem decodeOfEncode : Obligations.DecodeOfEncode := by
  intro i
  cases i with
  | csrRd a => exact decode_csrRd a
  | csrWr a => exact decode_csrWr a
  | _ => rfl

/-- A word decodes to a command exactly when it is the command's word. -/
theorem decode_eq_ok_iff {w : BitVec 32} {i : Instr} : decode w = .ok i ↔ encode i = w :=
  ⟨encodeOfDecode w i, fun h => h ▸ decodeOfEncode i⟩

/-- A word is illegal exactly when it is no command's word. -/
theorem decode_error_iff {w : BitVec 32} : (∃ r, decode w = .error r) ↔ ∀ i, encode i ≠ w := by
  simp only [ne_eq, ← decode_eq_ok_iff]
  cases decode w <;> simp

/-! ### The opcode map (R142) -/

/-- The 13 words that carry no CSR address (R142). -/
def fixedWords : List (BitVec 32) :=
  [0x00000000, 0x11000000, 0x12000000, 0x21000000, 0x22000000, 0x23000000, 0x24000000, 0x31000000, 0x32000000,
    0x33000000, 0x41000000, 0x42000000, 0x43000000]

/-- A command's word is a fixed one, or that of CSR.RD or CSR.WR under the mask of the opcode map. -/
theorem encode_word (i : Instr) : encode i ∈ fixedWords ∨
    encode i &&& 0xFFFFF000 = 0x01000000 ∨ encode i &&& 0xFFFFF000 = 0x02000000 := by
  cases i with
  | csrRd a => exact .inr (.inl (or_mask a))
  | csrWr a => exact .inr (.inr (or_mask' a))
  | _ => exact .inl (by decide)

/-- Settles O3: every row of the map is `decodeOfEncode` of its command, and a word that is no command's is illegal. -/
theorem opcodeMapWords : Obligations.OpcodeMapWords := by
  have dec := decodeOfEncode
  refine ⟨⟨dec .nop, dec .scEnc, dec .scDec, dec .frSerFirst, dec .frSerBlock, dec .frSerFinal, dec .frParse,
    dec .encInit, dec .encWrite, dec .encFinal, dec .decInit, dec .decFeed, dec .decFinal⟩,
    fun a => ⟨dec (.csrRd a), dec (.csrWr a), rfl, rfl⟩, by decide, fun w hfixed hrd hwr => ?_⟩
  refine decode_error_iff.mpr fun i hi => ?_
  subst hi
  rcases encode_word i with h | h | h
  · exact hfixed h
  · exact hrd h
  · exact hwr h

/-- Settles O4: each of the seven is the word of its command. -/
theorem decodeSampleWords : Obligations.DecodeSampleWords := by
  have dec := decodeOfEncode
  exact ⟨dec .nop, dec (.csrRd 0x037), dec (.csrWr 0x010), dec .scEnc, dec .frParse, dec .encWrite, dec .decFinal⟩

/-! ### Illegal words (R148) -/

/-- UNIT and OP together, bits 31..24 (R140). -/
def wordOpcode (w : BitVec 32) : BitVec 8 := w.extractLsb' 24 8

/-- The UNIT and OP of the 15 commands (R142). -/
def opcodes : List (BitVec 8) :=
  [0x00, 0x01, 0x02, 0x11, 0x12, 0x21, 0x22, 0x23, 0x24, 0x31, 0x32, 0x33, 0x41, 0x42, 0x43]

/-- A word is its UNIT and OP, its RSV and its CSRA (R140). -/
theorem word_ext {v w : BitVec 32} (hop : wordOpcode v = wordOpcode w) (hrsv : wordRsv v = wordRsv w)
    (hcsra : wordCsra v = wordCsra w) : v = w := by
  unfold wordOpcode at hop
  unfold wordRsv at hrsv
  unfold wordCsra at hcsra
  apply BitVec.eq_of_toNat_eq
  rw [word_fields v, word_fields w, hop, hrsv, hcsra]

/-- The fields of every command's word (R140, R147). -/
theorem encode_fields (i : Instr) : Laws.WordFields.Statement i := by
  cases i with
  | nop => exact Laws.WordFields.nop
  | csrRd a => exact Laws.WordFields.csrRd a
  | csrWr a => exact Laws.WordFields.csrWr a
  | scEnc => exact Laws.WordFields.scEnc
  | scDec => exact Laws.WordFields.scDec
  | frSerFirst => exact Laws.WordFields.frSerFirst
  | frSerBlock => exact Laws.WordFields.frSerBlock
  | frSerFinal => exact Laws.WordFields.frSerFinal
  | frParse => exact Laws.WordFields.frParse
  | encInit => exact Laws.WordFields.encInit
  | encWrite => exact Laws.WordFields.encWrite
  | encFinal => exact Laws.WordFields.encFinal
  | decInit => exact Laws.WordFields.decInit
  | decFeed => exact Laws.WordFields.decFeed
  | decFinal => exact Laws.WordFields.decFinal

theorem wordOpcode_csrRd (a : CsrAddr) : wordOpcode (encode (.csrRd a)) = 0x01 := extr_24 a

theorem wordOpcode_csrWr (a : CsrAddr) : wordOpcode (encode (.csrWr a)) = 0x02 := extr_24' a

/-- A command's word has an assigned UNIT and OP, and where that is neither CSR.RD's nor CSR.WR's the command names no
CSR address (R142, R146). -/
theorem encode_opcode (i : Instr) : wordOpcode (encode i) ∈ opcodes ∧
    (Laws.wordAddress i = 0 ∨ wordOpcode (encode i) ∈ [0x01#8, 0x02]) := by
  cases i with
  | csrRd a => rw [wordOpcode_csrRd]; exact ⟨by decide, .inr (by decide)⟩
  | csrWr a => rw [wordOpcode_csrWr]; exact ⟨by decide, .inr (by decide)⟩
  | _ => exact ⟨by decide, .inl rfl⟩

/-- A word with a command's UNIT and OP, RSV 0 and the CSR address the command names is the command's word. -/
theorem encode_eq_of_fields {w : BitVec 32} {i : Instr} (hop : wordOpcode (encode i) = wordOpcode w)
    (hrsv : wordRsv w = 0) (hcsra : wordCsra w = Laws.wordAddress i) : encode i = w := by
  obtain ⟨-, hrsv', hcsra'⟩ := encode_fields i
  exact word_ext hop (hrsv'.trans hrsv.symm) (hcsra'.trans hcsra.symm)

/-- A word with an assigned UNIT and OP, RSV 0, and CSRA 0 but for CSR.RD and CSR.WR is a command's word (R148). -/
theorem exists_encode_of_fields {w : BitVec 32} (hop : wordOpcode w ∈ opcodes) (hrsv : wordRsv w = 0)
    (hcsra : wordCsra w = 0 ∨ wordOpcode w ∈ [0x01#8, 0x02]) : ∃ i, encode i = w := by
  have fixed : ∀ i, wordOpcode (encode i) = wordOpcode w → wordOpcode (encode i) ∉ [0x01#8, 0x02] →
      Laws.wordAddress i = 0 → ∃ i, encode i = w := fun i h hne ha =>
    ⟨i, encode_eq_of_fields h hrsv ((hcsra.resolve_right (h ▸ hne)).trans ha.symm)⟩
  simp only [opcodes, List.mem_cons, List.not_mem_nil, or_false] at hop
  rcases hop with h | h | h | h | h | h | h | h | h | h | h | h | h | h | h
  · exact fixed .nop h.symm (by decide) rfl
  · exact ⟨.csrRd (wordCsra w), encode_eq_of_fields ((wordOpcode_csrRd _).trans h.symm) hrsv rfl⟩
  · exact ⟨.csrWr (wordCsra w), encode_eq_of_fields ((wordOpcode_csrWr _).trans h.symm) hrsv rfl⟩
  · exact fixed .scEnc h.symm (by decide) rfl
  · exact fixed .scDec h.symm (by decide) rfl
  · exact fixed .frSerFirst h.symm (by decide) rfl
  · exact fixed .frSerBlock h.symm (by decide) rfl
  · exact fixed .frSerFinal h.symm (by decide) rfl
  · exact fixed .frParse h.symm (by decide) rfl
  · exact fixed .encInit h.symm (by decide) rfl
  · exact fixed .encWrite h.symm (by decide) rfl
  · exact fixed .encFinal h.symm (by decide) rfl
  · exact fixed .decInit h.symm (by decide) rfl
  · exact fixed .decFeed h.symm (by decide) rfl
  · exact fixed .decFinal h.symm (by decide) rfl

/-- A step that takes an illegal word only answers it (R148, R355). -/
theorem step_illegal {s : State} {c : Command} {rest : List Command} (hs : s.cmds = c :: rest)
    (hc : ∃ r, decode c.word = .error r) : step s = .next (illegalCommand (acceptCommand c rest s)) := by
  obtain ⟨r, hr⟩ := hc
  simp only [step, hs, hr]

/-- Settles O5: a command's word has none of the four faults, and a word with none of them is a command's word. -/
theorem illegalWordsRefused : Obligations.IllegalWordsRefused := by
  refine ⟨fun w => ?_, fun s c rest hs hc => step_illegal hs hc⟩
  rw [decode_error_iff]
  constructor
  · intro hno
    by_contra hlegal
    push Not at hlegal
    obtain ⟨-, hop, hrsv, hcsra⟩ := hlegal
    obtain ⟨i, hi⟩ := exists_encode_of_fields hop hrsv (or_iff_not_imp_left.mpr hcsra)
    exact hno i hi
  · rintro hbad i rfl
    obtain ⟨hwf, hrsv, hcsra⟩ := encode_fields i
    obtain ⟨hop, haddr⟩ := encode_opcode i
    have hunit : wordUnitKnown (encode i) = true := (Bool.and_eq_true_iff.mp hwf).2
    rcases hbad with h | h | h | ⟨h, h'⟩
    · exact absurd (of_decide_eq_true hunit) (by omega)
    · exact h hop
    · exact h hrsv
    · exact haddr.elim (fun ha => h (hcsra.trans ha)) h'

end Sys2Proof.Machine

/-! ## The operands a command sees (spec/30_encoding.md R145)

The outcome of a command is the one it has with every operand its form does not name put at its default; only the bundle
itself stays in the next state. -/

namespace Sys2Proof.Machine

/-- A state with other operands in use. -/
def setOps (o : Operands) (s : State) : State := { s with ops := o }

@[simp] theorem setOps_ops (o : Operands) (s : State) : (setOps o s).ops = o := rfl
@[simp] theorem setOps_enc (o : Operands) (s : State) : (setOps o s).enc = s.enc := rfl
@[simp] theorem setOps_dec (o : Operands) (s : State) : (setOps o s).dec = s.dec := rfl
@[simp] theorem setOps_setOps (o o' : Operands) (s : State) : setOps o (setOps o' s) = setOps o s := rfl
@[simp] theorem encPart_setOps (o : Operands) (s : State) : encPart (setOps o s) = encPart s := rfl
@[simp] theorem decPart_setOps (o : Operands) (s : State) : decPart (setOps o s) = decPart s := rfl
@[simp] theorem completeStatus_setOps (st : Status) (o : Operands) (s : State) :
    completeStatus st (setOps o s) = setOps o (completeStatus st s) := rfl
@[simp] theorem takeInput_setOps (b : Bytes) (o : Operands) (s : State) :
    takeInput b (setOps o s) = setOps o (takeInput b s) := rfl
@[simp] theorem encEnd_setOps {α : Type} (r : Run EncFatal EncPart α) (f : α → Response) (o : Operands) (s : State) :
    encEnd r f (setOps o s) = setOps o (encEnd r f s) := encEnd_ops r f s o

/-- An outcome with the operands of its next state replaced. -/
def Outcome.setOps (o : Operands) : Host.Outcome State Fault Refusal → Host.Outcome State Fault Refusal
  | .next t => .next (Machine.setOps o t)
  | .fault f => .fault f
  | .refused r => .refused r

@[simp] theorem decEnd_setOps (r : Run DecStop DecPart Unit) (o : Operands) (s : State) :
    decEnd r (setOps o s) = Outcome.setOps o (decEnd r s) := by
  cases r with
  | ok a p => rfl
  | stop e p => cases e <;> rfl

theorem Outcome.setOps_setOps (o o' : Operands) (r : Host.Outcome State Fault Refusal) :
    Outcome.setOps o (Outcome.setOps o' r) = Outcome.setOps o r := by
  cases r <;> rfl

/-! A form keeps the operands it names. -/

@[simp] theorem operandValue_V (o : Operands) : operandValue (operandsOfForm .V o) = operandValue o := rfl
@[simp] theorem operandKey_K (o : Operands) : operandKey (operandsOfForm .K o) = operandKey o := rfl
@[simp] theorem operandSector_K (o : Operands) : operandSector (operandsOfForm .K o) = operandSector o := rfl
@[simp] theorem operandData_K (o : Operands) : operandData (operandsOfForm .K o) = operandData o := rfl
@[simp] theorem operandData_D (o : Operands) : operandData (operandsOfForm .D o) = operandData o := rfl
@[simp] theorem operandRecord_H (o : Operands) (k : Kind) :
    operandRecord (operandsOfForm .H o) k = operandRecord o k := by cases k <;> rfl

/-! Each command, with the operands its form names and with all of them. -/

theorem readCsr_setOps (o : Operands) (s : State) (c : Csr) : readCsr (setOps o s) c = readCsr s c := by
  cases c <;> rfl

theorem writeCsr_setOps (P : Params) (c : Csr) (v : U64) (o : Operands) (s : State) :
    writeCsr P c v (setOps o s) = setOps o (writeCsr P c v s) := by
  cases c with
  | ctrl => rw [writeCsr_ctrl, writeCsr_ctrl]; rfl
  | _ => rfl

/-- CSR.RD reads no operand (R361). -/
theorem execCsrRd_named (a : CsrAddr) (o : Operands) (s : State) :
    execCsrRd a (setOps o s) = Outcome.setOps o (execCsrRd a (setOps (operandsOfForm .N o) s)) := by
  simp only [execCsrRd, readCsr_setOps]
  split <;> rfl

/-- CSR.WR reads `value` (R362). -/
theorem csrWr_named (P : Params) (a : CsrAddr) (o : Operands) (s : State) :
    csrWr P a (setOps o s) = setOps o (csrWr P a (setOps (operandsOfForm .V o) s)) := by
  simp only [csrWr, setOps_ops, operandValue_V]
  split
  · rfl
  · split
    · rfl
    · simp only [writeCsr_setOps, completeStatus_setOps, setOps_setOps]

theorem cipherAnswer_setOps (r : Option Bytes) (o : Operands) (s : State) :
    cipherAnswer r (setOps o s) = setOps o (cipherAnswer r s) := by
  cases r <;> rfl

/-- SC.ENC reads `key`, `sector` and `data` (R203). -/
theorem scEnc_named (P : Params) (o : Operands) (s : State) :
    scEnc P (setOps o s) = setOps o (scEnc P (setOps (operandsOfForm .K o) s)) := by
  simp only [scEnc, setOps_ops, operandKey_K, operandSector_K, operandData_K]
  split
  · rfl
  · simp only [cipherAnswer_setOps, setOps_setOps]

/-- SC.DEC reads `key`, `sector` and `data` (R204). -/
theorem scDec_named (P : Params) (o : Operands) (s : State) :
    scDec P (setOps o s) = setOps o (scDec P (setOps (operandsOfForm .K o) s)) := by
  simp only [scDec, setOps_ops, operandKey_K, operandSector_K, operandData_K]
  split
  · rfl
  · simp only [cipherAnswer_setOps, setOps_setOps]

/-- A FR.SER command reads `hdr` (R226 to R228). -/
theorem frSer_named (P : Params) (k : Kind) (o : Operands) (s : State) :
    frSer P k (setOps o s) = setOps o (frSer P k (setOps (operandsOfForm .H o) s)) := by
  simp only [frSer, setOps_ops, operandRecord_H]
  split
  · rfl
  · split <;> rfl

/-- FR.PARSE of a frame's length answers with ParseFrame's verdict (R229). -/
theorem frParse_frame (P : Params) {s : State} (h : s.ops.data.length = frameSize) :
    frParse P s = complete { statusResponse .ok with
      kind := verdictCode (parseFrame P s.ops.data), hdr := verdictHdr (parseFrame P s.ops.data) } s :=
  if_neg (not_not.mpr h)

/-- FR.PARSE of another length is refused (R229). -/
theorem frParse_badLength (P : Params) {s : State} (h : s.ops.data.length ≠ frameSize) :
    frParse P s = completeStatus .badOperand s :=
  if_pos h

/-- FR.PARSE reads `data` (R229). -/
theorem frParse_named (P : Params) (o : Operands) (s : State) :
    frParse P (setOps o s) = setOps o (frParse P (setOps (operandsOfForm .D o) s)) := by
  by_cases h : o.data.length = frameSize
  · rw [frParse_frame P (s := setOps o s) h, frParse_frame P (s := setOps (operandsOfForm .D o) s) h]
    rfl
  · rw [frParse_badLength P (s := setOps o s) h, frParse_badLength P (s := setOps (operandsOfForm .D o) s) h]
    rfl

/-- ENC.INIT reads `data`, the password (R251). -/
theorem encInit_named (P : Params) (o : Operands) (s : State) :
    encInit P (setOps o s) = setOps o (encInit P (setOps (operandsOfForm .D o) s)) := by
  rcases encInit_shape P (setOps (operandsOfForm .D o) s) with ⟨hs, e⟩ | ⟨hs, ho, e⟩ | ⟨hs, ho, e⟩ <;> rw [e]
  · exact if_pos hs
  · exact (if_neg (not_not.mpr hs)).trans (if_neg (Bool.eq_false_iff.mp ho))
  · exact (if_neg (not_not.mpr hs)).trans (if_pos ho)

/-- ENC.WRITE reads `data`, the source bytes (R256). -/
theorem encWrite_named (P : Params) (o : Operands) (s : State) :
    encWrite P (setOps o s) = setOps o (encWrite P (setOps (operandsOfForm .D o) s)) := by
  rcases encWrite_shape P (setOps (operandsOfForm .D o) s) with ⟨hs, e⟩ | ⟨hs, hb, e⟩ | ⟨hs, hb, e⟩ <;> rw [e]
  · exact if_pos hs
  · exact (if_neg (not_not.mpr hs)).trans (if_pos hb)
  · rw [encEnd_setOps]
    exact ((if_neg (not_not.mpr hs)).trans (if_neg (not_lt.mpr hb))).trans (encEnd_setOps _ _ o s)

/-- ENC.FINAL reads no operand (R277). -/
theorem encFinal_named (P : Params) (o : Operands) (s : State) :
    encFinal P (setOps o s) = setOps o (encFinal P (setOps (operandsOfForm .N o) s)) := by
  simp only [encFinal, setOps_enc, encPart_setOps, encEnd_setOps]
  split <;> rfl

/-- DEC.INIT reads `data`, the password (R300). -/
theorem execDecInit_named (o : Operands) (s : State) :
    execDecInit (setOps o s) = Outcome.setOps o (execDecInit (setOps (operandsOfForm .D o) s)) := by
  rcases decInit_shape (setOps (operandsOfForm .D o) s) with ⟨hs, e⟩ | ⟨hs, e⟩ <;> rw [e]
  · exact if_pos hs
  · exact if_neg (not_not.mpr hs)

/-- DEC.FEED reads `data`, the fed bytes (R303). -/
theorem decFeed_named (P : Params) (o : Operands) (s : State) :
    decFeed P (setOps o s) = Outcome.setOps o (decFeed P (setOps (operandsOfForm .D o) s)) := by
  simp only [decFeed, setOps_ops, operandData_D, setOps_dec, takeInput_setOps, decPart_setOps, decEnd_setOps]
  split
  · rfl
  · exact (Outcome.setOps_setOps _ _ _).symm

/-- DEC.FINAL reads no operand (R330). -/
theorem decFinal_named (P : Params) (o : Operands) (s : State) :
    decFinal P (setOps o s) = Outcome.setOps o (decFinal P (setOps (operandsOfForm .N o) s)) := by
  simp only [decFinal, setOps_dec, decPart_setOps, decEnd_setOps]
  split
  · rfl
  · split
    · rfl
    · exact (Outcome.setOps_setOps _ _ _).symm

/-- A command does the same with only the operands its form names (R145). -/
theorem exec_named (i : Instr) (o : Operands) (s : State) :
    exec i (setOps o s) = Outcome.setOps o (exec i (setOps (operandsOfForm (formOf i) o) s)) := by
  have next : ∀ {t u : State}, t = setOps o u →
      (.next t : Host.Outcome State Fault Refusal) = Outcome.setOps o (.next u) := fun h => congrArg _ h
  cases i with
  | nop => rfl
  | csrRd a => exact execCsrRd_named a o s
  | csrWr a => exact next (csrWr_named _ a o s)
  | scEnc => exact next (scEnc_named _ o s)
  | scDec => exact next (scDec_named _ o s)
  | frSerFirst => exact next (frSer_named _ .first o s)
  | frSerBlock => exact next (frSer_named _ .block o s)
  | frSerFinal => exact next (frSer_named _ .final o s)
  | frParse => exact next (frParse_named _ o s)
  | encInit => exact next (encInit_named _ o s)
  | encWrite => exact next (encWrite_named _ o s)
  | encFinal => exact next (encFinal_named _ o s)
  | decInit => exact execDecInit_named o s
  | decFeed => exact decFeed_named _ o s
  | decFinal => exact decFinal_named _ o s

/-- Settles O11: by `exec_named` both bundles give the outcome of the operands they agree on. -/
theorem unnamedOperandsIgnored : Obligations.UnnamedOperandsIgnored := by
  intro i s o o' hag
  have hsame : exec i (setOps o' s) = Outcome.setOps o' (exec i (setOps o s)) := by
    rw [exec_named i o', exec_named i o, Outcome.setOps_setOps, hag]
  exact ⟨fun t h => hsame.trans (congrArg (Outcome.setOps o') h),
    fun f h => hsame.trans (congrArg (Outcome.setOps o') h)⟩

end Sys2Proof.Machine

/-! ## The reference body codec RC1 (spec/30_encoding.md R169, R170) -/

namespace Sys2Proof.Machine

/-- Settles O25: what is parsed was checked to serialise to the body, and the readers find the record in every body that
a record serialises to. -/
theorem rc1ParseExact : Obligations.Rc1ParseExact := by
  intro k b h
  unfold rc1Parse
  constructor
  · intro hp
    split at hp
    · split at hp
      next hb => exact Option.some.inj hp ▸ hb
      next => cases hp
    · cases hp
  · rintro rfl
    rw [readRecord_rc1]
    exact if_pos rfl

/-- R170: an RC1 body is printable ASCII. -/
theorem printable_rc1Ser (k : Kind) (h : k.Record) : printable (rc1Ser k h) := by
  cases k with
  | first => exact printable_first h
  | block => exact printable_block h
  | final => exact printable_final h

/-- Settles O26: a body is printable, which CR is not, and it parses to its record by `rc1ParseExact`. -/
theorem rc1MeetsBodyLaws : Obligations.Rc1MeetsBodyLaws := by
  intro k h
  have hprint := printable_rc1Ser k h
  exact ⟨hprint, fun hcr => absurd (hprint _ hcr).1 (by decide), (rc1ParseExact k _ h).mpr rfl⟩

end Sys2Proof.Machine

/-! ## The layout of a frame (spec/30_encoding.md R161) -/

namespace Sys2Proof.Machine

/-- Settles O21: the overflow bound and the parts of a frame, each cut out at its offsets. -/
theorem frameLayout : Obligations.FrameLayout := by
  intro P k h hP
  refine ⟨serFrame_eq_none, fun f hf => ?_⟩
  exact ⟨serFrame_length hP hf, parts_of_frame hP hf⟩

end Sys2Proof.Machine

/-! ## The header and payload of a chunk (spec/43_encoder.md R266, R267) -/

namespace Sys2Proof.Machine

/-- The pad that Transform appends fills the content up to the next multiple of PAD_ALIGN (R267). -/
theorem pad_length {c pad : Bytes} (h : pad.length = roundup c.length padAlign - c.length) :
    roundup c.length padAlign % 4096 = 0 ∧ roundup c.length padAlign = c.length + pad.length ∧ pad.length < 4096 := by
  obtain ⟨hle, hlt, hmod⟩ := roundup_spec c.length padAlign (by decide)
  exact ⟨hmod, by omega, by simp only [padAlign] at hlt h ⊢; omega⟩

/-- The payload of a chunk that is not all-zero: its content, the pad after it, and the draws the pad takes (R267). -/
theorem transform_payload {P : Params} (hP : P.Lawful) {cfg : EncCfg} {key : Option Key} {b d : Bytes} {pos idx : Int}
    {r r' : Nat} {h : BlockHeader} (hb : allZero b = false)
    (ht : transform P cfg key b pos idx r = (some (h, d), r')) :
    ∃ c pad : Bytes,
      h = ⟨toI64 P idx, toI64 P d.length, toI64 P c.length, toI64 P pos, toI64 P b.length, P.sha1 b, P.sha1 d,
        false, false, 0⟩ ∧
      (if cfg.compress then P.compress (P.compLevels cfg.level) b = some c else c = b) ∧
      d.length % 4096 = 0 ∧ d.length = c.length + pad.length ∧ pad.length < 4096 ∧
      if cfg.encrypt then
        pad = randBytes P r pad.length ∧ r' = r + pad.length ∧
          ∃ k, key = some k ∧ d = P.tcEnc k (toI64 P pos) (c ++ pad)
      else (∀ x ∈ pad, x = 0) ∧ r' = r ∧ d = c ++ pad := by
  obtain ⟨c, pad, hc, hpad, hd, hh, hbytes, hr⟩ := transform_draws hb ht
  obtain ⟨hmod, hsum, hlt⟩ := pad_length hpad
  have hdl := transform_data_length hP hpad hd
  refine ⟨c, pad, hh, ?_, hdl ▸ hmod, hdl.trans hsum, hlt, ?_⟩
  · cases hcomp : cfg.compress with
    | true => simpa [hcomp] using hc
    | false => simpa [hcomp] using hc.symm
  · cases henc : cfg.encrypt with
    | true =>
      simp only [henc, if_true] at hd hbytes hr ⊢
      obtain ⟨k, hk, hd⟩ := Option.bind_eq_some_iff.mp hd
      unfold tcEncrypt at hd
      split at hd
      · exact ⟨hbytes, hr, k, hk, (Option.some.inj hd).symm⟩
      · cases hd
    | false =>
      simp only [henc, Bool.false_eq_true, if_false] at hd hbytes hr ⊢
      exact ⟨(allZero_iff pad).mp (hbytes ▸ allZero_zeros _), hr, (Option.some.inj hd).symm⟩

/-- An i64 field holds a length below 2^63 as it is (R266). -/
theorem toI64_nat (P : Params) {n : Nat} (h : n < 2 ^ 63) : toI64 P n = BitVec.ofNat 64 n := by
  unfold toI64
  rw [if_pos ⟨by omega, by exact_mod_cast h⟩, BitVec.ofInt_natCast]

/-- Settles O32: an all-zero chunk by `transform_zero`; of the others, when they transform by `transform_total` and
`transform_fails`, and what they become by `transform_payload`, each i64 field holding its exact integer. -/
theorem transformHeaderFields : Obligations.TransformHeaderFields := by
  intro P cfg key b p i r hP hlen
  refine ⟨fun hz => ?_, fun hz hkey hcomp => ?_, fun hz hon hfail => ?_, fun h d r' hz hdl ht => ?_⟩
  · rw [transform_zero P cfg key b _ _ r ((allZero_iff b).mpr hz), toI64_toInt, toI64_toInt, toI64_nat P hlen]
  · have hc : ∃ c, (if cfg.compress then P.compress (P.compLevels cfg.level) b else some b) = some c := by
      split
      next hon => exact Option.isSome_iff_exists.mp (hcomp hon)
      next => exact ⟨b, rfl⟩
    obtain ⟨c, hc⟩ := hc
    exact transform_total hP _ _ r ((allZero_false_iff b).mpr hz) hkey hc
  · exact transform_fails key _ _ r ((allZero_false_iff b).mpr hz) ((if_pos hon).trans hfail)
  · obtain ⟨c, pad, rfl, hc, hmod, hsum, hlt, hpay⟩ := transform_payload hP ((allZero_false_iff b).mpr hz) ht
    rw [toI64_toInt] at hpay
    dsimp only
    exact ⟨toI64_toInt P i, toI64_toInt P p, toInt_toI64_nat P _ hlen, rfl, rfl, rfl, rfl, toInt_toI64_nat P _ hdl,
      c, pad, hc, toInt_toI64_nat P _ (by omega), hmod, hsum, hlt, hpay⟩

end Sys2Proof.Machine

/-! ## The sector cipher (spec/41_sector_cipher.md R200, R203, R204)

SC.ENC and SC.DEC are one command over the two directions of TC, so each clause about them is proved once, for a
direction. -/

namespace Sys2Proof.Machine

/-- A cipher command over one direction of TC: BAD_OPERAND without a 64-byte key or outside TC_DOMAIN. -/
def cipherCommand (P : Params) (tc : Key → U64 → Bytes → Bytes) (s : State) : State :=
  match operandKey s.ops with
  | none => completeStatus .badOperand s
  | some k => cipherAnswer (if P.tcDomain s.ops.data.length then some (tc k s.ops.sector s.ops.data) else none) s

/-- SC.ENC is the cipher command over TC_ENC (R203). -/
theorem exec_scEnc_eq (s : State) :
    exec .scEnc s = .next (cipherCommand Config.params Config.params.tcEnc s) := rfl

/-- SC.DEC is the cipher command over TC_DEC (R204). -/
theorem exec_scDec_eq (s : State) :
    exec .scDec s = .next (cipherCommand Config.params Config.params.tcDec s) := rfl

theorem operandKey_eq_some {o : Operands} {k : Key} (h : o.key = k.val) : operandKey o = some k := by
  rw [operandKey, h, fixedBytes_ofBytes_val]

theorem operandKey_eq_none {o : Operands} (h : o.key.length ≠ 64) : operandKey o = none := dif_neg h

theorem tcDomain_zero {P : Params} (hP : P.Lawful) : P.tcDomain 0 = true := hP.tcDomain_padAlign 0 rfl

section
variable {P : Params} {tc : Key → U64 → Bytes → Bytes} {s : State} {k : Key}

theorem cipherCommand_of_key (hk : s.ops.key = k.val) : cipherCommand P tc s =
    cipherAnswer (if P.tcDomain s.ops.data.length then some (tc k s.ops.sector s.ops.data) else none) s := by
  rw [cipherCommand, operandKey_eq_some hk]

/-- With a 64-byte key and a legal length the command answers OK with TC's bytes. -/
theorem cipherCommand_ok (hk : s.ops.key = k.val) (hd : P.tcDomain s.ops.data.length = true) :
    cipherCommand P tc s = complete ⟨.ok, 0, tc k s.ops.sector s.ops.data, 0, none⟩ s := by
  rw [cipherCommand_of_key hk, if_pos hd]
  rfl

/-- Data of no bytes has a legal length (T3) and gives as many bytes (T1). -/
theorem cipherCommand_noData (hP : P.Lawful)
    (hlen : ∀ k x d, P.tcDomain d.length = true → (tc k x d).length = d.length)
    (hk : s.ops.key.length = 64) (hd : s.ops.data = []) :
    cipherCommand P tc s = complete ⟨.ok, 0, [], 0, none⟩ s := by
  have hdom : P.tcDomain s.ops.data.length = true := hd ▸ tcDomain_zero hP
  have hnil : tc ⟨s.ops.key, hk⟩ s.ops.sector s.ops.data = [] :=
    List.length_eq_zero_iff.mp ((hlen _ _ _ hdom).trans (congrArg List.length hd))
  rw [cipherCommand_ok (k := ⟨s.ops.key, hk⟩) rfl hdom, hnil]

/-- With another key length or a length outside TC_DOMAIN the command answers BAD_OPERAND. -/
theorem cipherCommand_badOperand (h : s.ops.key.length ≠ 64 ∨ P.tcDomain s.ops.data.length = false) :
    cipherCommand P tc s = completeStatus .badOperand s := by
  by_cases hk : s.ops.key.length = 64
  · have hd : P.tcDomain s.ops.data.length = false := h.resolve_left (not_not_intro hk)
    rw [cipherCommand_of_key (k := ⟨s.ops.key, hk⟩) rfl, hd]
    rfl
  · rw [cipherCommand, operandKey_eq_none hk]

end

/-- Settles O19: a multiple of 4096 is a legal length (T3), the encrypted bytes have the same length (T1), and TC_DEC
undoes TC_ENC there (T2). -/
theorem scDecUndoesScEnc : Obligations.ScDecUndoesScEnc := by
  intro s k hk hmod
  have hdom : Config.params.tcDomain s.ops.data.length = true := Config.lawful.tcDomain_padAlign _ hmod
  have hlen := Config.lawful.tcEnc_length k s.ops.sector s.ops.data hdom
  refine ⟨_, Config.params.tcEnc k s.ops.sector s.ops.data,
    (exec_scEnc_eq s).trans (congrArg _ (cipherCommand_ok hk hdom)), rfl, hlen, _,
    (exec_scDec_eq _).trans (congrArg _ (cipherCommand_ok (k := k) hk (hlen ▸ hdom))), ?_⟩
  simp only [complete_rsp, complete_ops, Config.lawful.tcDec_tcEnc k s.ops.sector s.ops.data hdom]

/-- Settles O17: the cipher command's three answers, over TC_ENC, which keeps the length (T1). -/
theorem scEncEncrypts : Obligations.ScEncEncrypts := by
  intro s
  rw [exec_scEnc_eq]
  exact ⟨fun k hk hd => ⟨congrArg _ (cipherCommand_ok hk hd), Config.lawful.tcEnc_length k _ _ hd⟩,
    fun hk hd => congrArg _ (cipherCommand_noData Config.lawful Config.lawful.tcEnc_length hk hd),
    fun h => congrArg _ (cipherCommand_badOperand h)⟩

/-- Settles O18: the cipher command's three answers, over TC_DEC, which keeps the length (T1). -/
theorem scDecDecrypts : Obligations.ScDecDecrypts := by
  intro s
  rw [exec_scDec_eq]
  exact ⟨fun k hk hd => ⟨congrArg _ (cipherCommand_ok hk hd), Config.lawful.tcDec_length k _ _ hd⟩,
    fun hk hd => congrArg _ (cipherCommand_noData Config.lawful Config.lawful.tcDec_length hk hd),
    fun h => congrArg _ (cipherCommand_badOperand h)⟩

end Sys2Proof.Machine

/-! ## Reading a frame back (spec/42_frame_codec.md R222 to R225)

ParseFrame finds the end of a frame's body at its first CR. A changed byte that every check of ParseFrame lets pass lies
outside all the slices these checks pin down, and they are all of the frame but its body. -/

namespace Sys2Proof.Machine

/-- Where the body of a frame ends and CRLF CRLF begins (R161). -/
def bodyEnd (P : Params) (k : Kind) (h : k.Record) : Nat := P.sigLen + 2 + (P.bodySer k h).length

/-! A byte changed to another value lies outside every slice that the change keeps. -/

theorem set_outside_of_slice_eq {b : Bytes} {lo hi i : Nat} {x : Byte} (hlen : i < b.length) (hx : b[i]? ≠ some x)
    (h : slice (b.set i x) lo hi = slice b lo hi) : i < lo ∨ hi ≤ i := by
  by_contra hin
  push Not at hin
  obtain ⟨hlo, hhi⟩ := hin
  have hadd : lo + (i - lo) = i := by omega
  have hbyte := slice_byte h (i - lo) (by omega)
  rw [hadd, set_byte b i x hlen, slice_getElem?, hadd, if_pos hhi] at hbyte
  exact hx hbyte.symm

theorem eq_zeros_of_allZero {b : Bytes} (h : allZero b = true) : b = zeros b.length :=
  List.eq_replicate_of_mem ((allZero_iff b).mp h)

section
variable {P : Params} {k : Kind} {h : k.Record} {f : Bytes} {x : Byte}

/-- What follows the body of a frame, at its offsets from the body's end (R161, R172). -/
theorem tail_of_frame (hP : P.Lawful) (hf : serFrame P k h = some f) :
    bodyEnd P k h + 4 ≤ 4094 ∧ slice f (bodyEnd P k h) (bodyEnd P k h + 4) = crlf ++ crlf ∧
      slice f (bodyEnd P k h + 4) 4094 = zeros (4094 - (bodyEnd P k h + 4)) := by
  obtain ⟨hfits, -⟩ := serFrame_eq_some hf
  obtain ⟨-, -, -, hterm, hzeros, -⟩ := parts_of_frame hP hf
  have hshort := hP.sig_short
  have hoff : P.sigLen + 6 + (P.bodySer k h).length = bodyEnd P k h + 4 := by simp only [bodyEnd]; omega
  have hpad : maxBody P - (P.bodySer k h).length = 4094 - (bodyEnd P k h + 4) := by
    simp only [maxBody, bodyEnd]; omega
  rw [hoff] at hterm hzeros
  rw [hpad] at hzeros
  simp only [maxBody] at hfits
  exact ⟨by simp only [bodyEnd]; omega, hterm, hzeros⟩

/-- B2 (R162), at the offsets of the body in its frame. -/
theorem body_byte_ne_cr (hP : P.Lawful) (hf : serFrame P k h = some f) {i : Nat} (hlo : P.sigLen + 2 ≤ i)
    (hhi : i < bodyEnd P k h) : f[i]? ≠ some 0x0D := by
  obtain ⟨-, -, hbody, -⟩ := parts_of_frame hP hf
  have hbyte := slice_byte hbody (i - (P.sigLen + 2)) (by rw [bodyEnd] at hhi; omega)
  rw [show P.sigLen + 2 + (i - (P.sigLen + 2)) = i by omega] at hbyte
  intro hcr
  exact hP.body_no_cr k h (List.mem_of_getElem? (hbyte.symm.trans hcr))

/-- A change after the first CR of the frame leaves it the first. -/
theorem firstCr_set_after_bodyEnd (hP : P.Lawful) (hf : serFrame P k h = some f) {i : Nat} (hi : bodyEnd P k h < i) :
    firstCr (f.set i x) (P.sigLen + 2) = some (bodyEnd P k h) := by
  obtain ⟨hfits, hterm, -⟩ := tail_of_frame hP hf
  have hlen := serFrame_length hP hf
  refine firstCr_eq_some (Nat.le_add_right _ _) (by omega) ?_ (fun j hlo hhi => ?_) (by simp [hlen, frameSize])
  · rw [List.getElem?_set_ne (by omega)]
    exact slice_byte hterm 0 (by omega)
  · rw [List.getElem?_set_ne (by omega)]
    exact body_byte_ne_cr hP hf hlo hhi

/-- Where the first CR of the frame is overwritten, the CR of the second CRLF is the first. -/
theorem firstCr_set_bodyEnd (hP : P.Lawful) (hf : serFrame P k h = some f) (hx : x ≠ 0x0D) :
    firstCr (f.set (bodyEnd P k h) x) (P.sigLen + 2) = some (bodyEnd P k h + 2) := by
  obtain ⟨hfits, hterm, -⟩ := tail_of_frame hP hf
  have hlen := serFrame_length hP hf
  have hlo : P.sigLen + 2 ≤ bodyEnd P k h := Nat.le_add_right _ _
  refine firstCr_eq_some (by omega) (by omega) ?_ (fun j hj hhi => ?_) (by simp [hlen, frameSize])
  · rw [List.getElem?_set_ne (by omega)]
    exact slice_byte hterm 2 (by omega)
  · rcases Nat.lt_trichotomy j (bodyEnd P k h) with hbefore | rfl | hafter
    · rw [List.getElem?_set_ne (by omega)]
      exact body_byte_ne_cr hP hf hj hbefore
    · rw [set_byte _ _ _ (by rw [hlen, frameSize]; omega)]
      exact fun hcr => hx (Option.some.inj hcr)
    · obtain rfl : j = bodyEnd P k h + 1 := by omega
      rw [List.getElem?_set_ne (by omega), slice_byte hterm 1 (by omega)]
      decide

/-- Where the first CR of the frame is overwritten, no CRLF CRLF that ends before 4094 begins at the next one: its second
CR would stand on the zeros. -/
theorem no_terminator_of_set_bodyEnd (hP : P.Lawful) (hf : serFrame P k h = some f)
    (hlate : bodyEnd P k h + 2 + 4 ≤ 4094) :
    slice (f.set (bodyEnd P k h) x) (bodyEnd P k h + 2) (bodyEnd P k h + 2 + 4) ≠ crlf ++ crlf := by
  intro hterm
  obtain ⟨-, -, hzeros⟩ := tail_of_frame hP hf
  have hcr := slice_byte hterm 2 (by omega)
  have hzero := slice_byte hzeros 0 (by omega)
  rw [List.getElem?_set_ne (by omega)] at hcr
  rw [Nat.add_zero, hcr, zeros, List.getElem?_replicate, if_pos (by omega)] at hzero
  cases hzero

/-- A change that keeps CRLF CRLF behind the body and the zeros up to 4094 is outside both. -/
theorem set_outside_tail (hP : P.Lawful) (hf : serFrame P k h = some f) {i : Nat} (hi : i < 4096)
    (hx : f[i]? ≠ some x)
    (hterm : slice (f.set i x) (bodyEnd P k h) (bodyEnd P k h + 4) = crlf ++ crlf)
    (hzeros : allZero (slice (f.set i x) (bodyEnd P k h + 4) 4094) = true) : i < bodyEnd P k h ∨ 4094 ≤ i := by
  obtain ⟨-, hterm', hzeros'⟩ := tail_of_frame hP hf
  have hlen : f.length = 4096 := serFrame_length hP hf
  have hpad : slice (f.set i x) (bodyEnd P k h + 4) 4094 = slice f (bodyEnd P k h + 4) 4094 := by
    rw [eq_zeros_of_allZero hzeros, slice_length _ _ _ (by simp [hlen]), hzeros']
  have outTerm := set_outside_of_slice_eq (hlen ▸ hi) hx (hterm.trans hterm'.symm)
  have outPad := set_outside_of_slice_eq (hlen ▸ hi) hx hpad
  omega

end

/-- Settles O22: the parts of a frame pass every check of ParseFrame, and the body parses to its record (B1). -/
theorem frameRoundTrip : Obligations.FrameRoundTrip := by
  intro P k h f hP hf
  obtain ⟨hsig, hline, hbody, -, -, hlast⟩ := parts_of_frame hP hf
  obtain ⟨hfits, hterm, hzeros⟩ := tail_of_frame hP hf
  refine parseFrame_of_parts (signatureKind_of_slice hP hsig) hline hlast (firstCr_frame hP hf) hfits hterm ?_ ?_
  · exact hzeros ▸ allZero_zeros _
  · rw [hbody]
    exact hP.body_roundtrip k h

/-- Settles O23: were the changed frame accepted with its own signature, `set_outside_of_slice_eq` would put the change
outside the signature, its CRLF and the last CRLF, `no_terminator_of_set_bodyEnd` not on the first CR, and
`set_outside_tail` not behind it. -/
theorem frameChangeDetected : Obligations.FrameChangeDetected := by
  intro P k h f i x hP hf hi hx hout
  by_contra hnot
  push Not at hnot
  obtain ⟨hrec, hval, hother⟩ := hnot
  obtain ⟨k', j, h', hk', hline', hlast', hj, hfits, hterm', hzeros', -⟩ := parseFrame_valid hrec hval
  have hsig' := signatureKind_eq_some hk'
  obtain rfl : k' = k := by_contra fun hne => hother k' hne hsig'
  obtain ⟨hsig, hline, -, -, -, hlast⟩ := parts_of_frame hP hf
  have hlen : i < f.length := (serFrame_length hP hf).symm ▸ hi
  have outSig := set_outside_of_slice_eq hlen hx (hsig'.trans hsig.symm)
  have outLine := set_outside_of_slice_eq hlen hx (hline'.trans hline.symm)
  have outLast := set_outside_of_slice_eq hlen hx (hlast'.trans hlast.symm)
  have hafter : bodyEnd P k' h ≤ i := by rw [bodyEnd]; omega
  rcases Nat.eq_or_lt_of_le hafter with rfl | hlt
  · obtain ⟨-, hterm, -⟩ := tail_of_frame hP hf
    have hcr : x ≠ 0x0D := fun hcr => hx (hcr ▸ slice_byte hterm 0 (by omega))
    obtain rfl := Option.some.inj (hj.symm.trans (firstCr_set_bodyEnd hP hf hcr))
    exact no_terminator_of_set_bodyEnd hP hf hfits hterm'
  · obtain rfl := Option.some.inj (hj.symm.trans (firstCr_set_after_bodyEnd hP hf hlt))
    have outTail := set_outside_tail hP hf hi hx hterm' hzeros'
    omega

end Sys2Proof.Machine

/-! ## The frame codec's commands (spec/42_frame_codec.md R226 to R229) -/

namespace Sys2Proof.Machine

/-- A record as the header operand that carries it (R145). -/
def headerOf : (k : Kind) → k.Record → Header
  | .first, h => .first h
  | .block, h => .block h
  | .final, h => .final h

theorem operandRecord_eq_some (o : Operands) (k : Kind) (h : k.Record) :
    operandRecord o k = some h ↔ o.hdr = some (headerOf k h) := by
  rcases o with ⟨v, key, sec, d, _ | hdr⟩
  · cases k <;> simp [operandRecord]
  · cases k <;> cases hdr <;> simp [operandRecord, headerOf]

/-- FR.SER of a record of its kind answers its frame where the body fits, else SER_OVERFLOW (R221, R226 to R228). -/
theorem frSer_record (P : Params) {k : Kind} {h : k.Record} {s : State} (hh : s.ops.hdr = some (headerOf k h)) :
    frSer P k s = if (P.bodySer k h).length ≤ maxBody P then
        complete ⟨.ok, 0, (serFrame P k h).getD [], 0, none⟩ s
      else completeStatus .serOverflow s := by
  simp only [frSer, (operandRecord_eq_some s.ops k h).mpr hh]
  cases hf : serFrame P k h with
  | none => rw [if_neg (not_le.mpr (serFrame_eq_none.mp hf))]
  | some f => rw [if_pos (serFrame_eq_some hf).1]; rfl

/-- FR.SER without a record of its kind is refused (R230). -/
theorem frSer_noRecord (P : Params) {k : Kind} {s : State} (hh : ∀ h, s.ops.hdr ≠ some (headerOf k h)) :
    frSer P k s = completeStatus .badOperand s := by
  have hnone : operandRecord s.ops k = none :=
    Option.eq_none_iff_forall_ne_some.mpr fun h hr => hh h ((operandRecord_eq_some s.ops k h).mp hr)
  simp only [frSer, hnone]

/-- Settles O20: the three commands are FR.SER at their kinds. -/
theorem frSerSerialises : Obligations.FrSerSerialises := by
  intro s
  exact ⟨fun h hh => congrArg Host.Outcome.next (frSer_record _ (k := .first) (h := h) hh),
    fun h hh => congrArg Host.Outcome.next (frSer_record _ (k := .block) (h := h) hh),
    fun h hh => congrArg Host.Outcome.next (frSer_record _ (k := .final) (h := h) hh),
    fun hh => congrArg Host.Outcome.next (frSer_noRecord _ (k := .first) hh),
    fun hh => congrArg Host.Outcome.next (frSer_noRecord _ (k := .block) hh),
    fun hh => congrArg Host.Outcome.next (frSer_noRecord _ (k := .final) hh)⟩

/-- Bytes that begin with a control character begin with no signature (R14). -/
theorem parseFrame_unrecognized_of_head {P : Params} (hP : P.Lawful) {f : Bytes} {x : Byte} (hx : f[0]? = some x)
    (hctl : x.toNat < 0x20) : parseFrame P f = .unrecognized := by
  have hnone : signatureKind P f = none := by
    by_contra hsome
    obtain ⟨k, hk⟩ := Option.ne_none_iff_exists'.mp hsome
    have hbyte := slice_byte (signatureKind_eq_some hk) 0 (Nat.zero_add 0 ▸ sigLen_pos hP)
    have hascii := hP.sig_ascii k x (List.mem_of_getElem? (hbyte.symm.trans hx))
    omega
  simp only [parseFrame, hnone]

/-- Settles O24: FR.PARSE answers the code and record of ParseFrame's verdict, which on zeros is UNRECOGNIZED. -/
theorem frParseClassifies : Obligations.FrParseClassifies := by
  intro s
  have hexec : exec .frParse s = .next (frParse Config.params s) := rfl
  rw [hexec]
  refine ⟨fun hlen => ?_, fun hdata => ?_, fun hlen => congrArg Host.Outcome.next (frParse_badLength _ hlen)⟩
  · rw [frParse_frame _ hlen]
    cases parseFrame Config.params s.ops.data <;> rfl
  · have hhead : s.ops.data[0]? = some 0 := hdata ▸ rfl
    rw [frParse_frame _ (by rw [hdata, List.length_replicate, frameSize]),
      parseFrame_unrecognized_of_head Config.lawful hhead (by decide)]
    rfl

end Sys2Proof.Machine

/-! ## Slices and framing (spec/43_encoder.md R260, R269, R272, R275) -/

namespace Sys2Proof.Machine

/-- A slice starts inside the source, so it holds a byte, and it ends a chunk later at most (R260). -/
theorem slices_bounds {P : Params} (hP : 0 < P.chunkSize) {b c : Bytes} (hc : c ∈ slices P b) :
    c ≠ [] ∧ c.length ≤ P.chunkSize := by
  obtain ⟨i, hi, rfl⟩ := List.mem_map.mp hc
  have hstart : i * P.chunkSize < b.length := (ceilDiv_spec _ _ hP i).mp (List.mem_range.mp hi)
  have hend : (i + 1) * P.chunkSize = i * P.chunkSize + P.chunkSize := Nat.succ_mul _ _
  have hlen := slice_len b (i * P.chunkSize) ((i + 1) * P.chunkSize)
  exact ⟨List.ne_nil_of_length_pos (by omega), by omega⟩

/-- Settles O31: the slices joined and their lengths by `slices_facts`, each one's bounds by `slices_bounds`. -/
theorem slicesPartitionSource : Obligations.SlicesPartitionSource := by
  intro P b hP
  obtain ⟨hjoin, hfull⟩ := slices_facts P b hP
  exact ⟨hjoin, fun _ hc => slices_bounds hP hc, hfull⟩

section
variable {P : Params} {h : BlockHeader} {p : EncPart}

/-- A chunk that the elision predicate takes is counted and noted, and gives no bytes (R269, R272). -/
theorem frameChunk_elided (d : Bytes) (he : elide h (P.now p.nowDraws) p.enc = true) :
    frameChunk P h d p = .ok [] { nowDrawn p with
      enc := noteChunk P h { p.enc with elided := p.enc.elided + 1 } } :=
  if_pos he

/-- A chunk that is not elided gives its frame, at the time drawn, and its payload (R269). -/
theorem frameChunk_framed (d : Bytes) {fb : Bytes} (he : elide h (P.now p.nowDraws) p.enc ≠ true)
    (hf : serFrame P .block { h with timestamp := P.now p.nowDraws } = some fb) :
    frameChunk P h d p = .ok (fb ++ d) { nowDrawn p with
      enc := noteChunk P h { p.enc with lastFrameTime := P.now p.nowDraws } } := by
  simp only [frameChunk, nowDrawn_enc, if_neg he, hf]

/-- A chunk whose frame does not fit leaves only the draw of its time (R268, R269). -/
theorem frameChunk_overflow (d : Bytes) (he : elide h (P.now p.nowDraws) p.enc ≠ true)
    (hf : serFrame P .block { h with timestamp := P.now p.nowDraws } = none) :
    frameChunk P h d p = .stop .hdrOverflow (nowDrawn p) := by
  simp only [frameChunk, nowDrawn_enc, if_neg he, hf]

end

/-- Settles O34: the three ends of FrameChunk, told apart by the elision predicate and by whether the frame fits. -/
theorem frameChunkElidesOrEmits : Obligations.FrameChunkElidesOrEmits := by
  intro P h d p
  refine ⟨fun he => ?_, fun he => ?_⟩
  · rw [frameChunk_elided d ((elide_iff _ _ _).mpr he), noteChunk, he.1]
    rfl
  · have he' := mt (elide_iff h (P.now p.nowDraws) p.enc).mp he
    exact ⟨fun _ hf => frameChunk_framed d he' hf, fun hf => frameChunk_overflow d he' hf⟩

/-- Settles O35: by induction on the run. Its first chunk is elided, which leaves the time of the last frame and the
options as they were and notes an all-zero chunk, so the rest of the run is a run again. -/
theorem zeroRunElided : Obligations.ZeroRunElided := by
  intro P cs
  induction cs with
  | nil => exact fun acc p _ _ _ => ⟨p, rfl, rfl, rfl, rfl⟩
  | cons c cs ih =>
    intro acc p hzero hprev hnow
    obtain ⟨hc, hcs⟩ := List.forall_mem_cons.mp hzero
    have helide := frameChunk_elided (P := P) c.2 ((elide_iff c.1 _ p.enc).mpr ⟨hc, hprev, hnow p.nowDraws⟩)
    obtain ⟨q, hq, hout, hlog, hcount⟩ := ih acc
      { nowDrawn p with enc := noteChunk P c.1 { p.enc with elided := p.enc.elided + 1 } } hcs hc hnow
    refine ⟨q, ?_, hout, hlog, ?_⟩
    · rw [frameAll, helide, run_bind_ok, List.append_nil]
      exact hq
    · rw [hcount, List.length_cons]
      show p.enc.elided + 1 + cs.length = _
      omega

end Sys2Proof.Machine

/-! ## The transforms of a batch and the Flush (spec/43_encoder.md R258, R259, R262, R267, R268) -/

namespace Sys2Proof.Machine

/-- Transform fails exactly where COMPRESS is on and fails for a chunk that is not all-zero (R267, R268). -/
theorem transform_eq_none_iff {P : Params} (hP : P.Lawful) {cfg : EncCfg} {key : Option Key}
    (hkey : cfg.encrypt = true → key.isSome) (b : Bytes) (pos idx : Int) (r : Nat) :
    (transform P cfg key b pos idx r).1 = none ↔
      cfg.compress = true ∧ (∃ x ∈ b, x ≠ 0) ∧ P.compress (P.compLevels cfg.level) b = none := by
  cases hz : allZero b with
  | true =>
    rw [transform_zero P cfg key b pos idx r hz]
    refine iff_of_false (by simp) fun ⟨_, hne, _⟩ => ?_
    exact Bool.false_ne_true (((allZero_false_iff b).mpr hne).symm.trans hz)
  | false =>
    have hne := (allZero_false_iff b).mp hz
    cases hc : (if cfg.compress then P.compress (P.compLevels cfg.level) b else some b) with
    | none =>
      rw [transform_fails key pos idx r hz hc]
      split at hc
      next hon => exact iff_of_true rfl ⟨hon, hne, hc⟩
      next => cases hc
    | some c =>
      obtain ⟨h, d, r', ht⟩ := transform_total hP pos idx r hz hkey hc
      rw [ht]
      refine iff_of_false (by simp) fun ⟨hon, _, hfail⟩ => ?_
      rw [if_pos hon, hfail] at hc
      cases hc

/-- Some transform of a batch fails exactly where COMPRESS is on and fails for one of its slices (R268). -/
theorem none_mem_transformAll_iff {P : Params} (hP : P.Lawful) {cfg : EncCfg} {key : Option Key}
    (hkey : cfg.encrypt = true → key.isSome) (ss : List Bytes) (pos idx : Int) (r : Nat) :
    none ∈ (transformAll P cfg key ss pos idx r).1 ↔ cfg.compress = true ∧
      ∃ b ∈ ss, (∃ x ∈ b, x ≠ 0) ∧ P.compress (P.compLevels cfg.level) b = none := by
  induction ss generalizing pos idx r with
  | nil => simp [transformAll]
  | cons s ss ih =>
    rw [transformAll, List.mem_cons, eq_comm, transform_eq_none_iff hP hkey, ih, List.exists_mem_cons_iff, and_or_left]

/-- The transforms a Flush makes of the buffer of `p`, and the RAND byte after them (R258). -/
def batchTransforms (P : Params) (p : EncPart) : List (Option (BlockHeader × Bytes)) × Nat :=
  transformAll P p.enc.cfg p.enc.key (slices P p.enc.inBuf) p.enc.srcPos.toInt p.enc.nextIdx.toInt p.randDraws

/-- A batch with a failed transform puts nothing out and moves only the draws (R268). -/
theorem flushBatch_failed {P : Params} {p : EncPart} (h : none ∈ (batchTransforms P p).1) :
    flushBatch P p = .stop .primitiveFail { p with randDraws := (batchTransforms P p).2 } := by
  unfold batchTransforms at h ⊢
  simp only [flushBatch, collectSome_none h]

/-- A batch whose transforms all have a result is framed, and goes out once every chunk is framed (R258). -/
theorem flushBatch_transformed {P : Params} {p : EncPart} {cs : List (BlockHeader × Bytes)}
    (h : (batchTransforms P p).1 = cs.map some) :
    flushBatch P p = (frameAll P cs [] { p with randDraws := (batchTransforms P p).2 }).bind fun out u =>
      .ok () (batchDone P (slices P p.enc.inBuf).length (outAppend out u)) := by
  unfold batchTransforms at h ⊢
  simp only [flushBatch, h, collectSome_map]

section
variable {P : Params} {p q : EncPart}

/-- The FirstHeader frames leave all that the transforms of a batch read (R259). -/
theorem FirstOut.batchTransforms_eq (h : FirstOut P p q) : batchTransforms P q = batchTransforms P p := by
  rcases h with ⟨-, rfl⟩ | ⟨-, _, _, -, -, rfl⟩ <;> rfl

/-- The FirstHeader frames leave the buffer and the counters of the archive (R259). -/
theorem FirstOut.position_eq (h : FirstOut P p q) :
    q.enc.inBuf = p.enc.inBuf ∧ q.enc.srcPos = p.enc.srcPos ∧ q.enc.nextIdx = p.enc.nextIdx := by
  rcases h with ⟨-, rfl⟩ | ⟨-, _, _, -, -, rfl⟩ <;> exact ⟨rfl, rfl, rfl⟩

/-- A Flush is its block part, once the FirstHeader frames are out (R258, R259). -/
theorem FirstOut.flush_eq (h : FirstOut P p q) : flush P p = flushBatch P q := by
  have hemit : emitFirst P p = .ok () q := by
    rcases h with ⟨hout, rfl⟩ | ⟨hout, h, ff, hfirst, hser, rfl⟩
    · exact if_pos hout
    · simp only [emitFirst, hout, Bool.false_eq_true, if_false, hfirst, Option.bind_some, hser, outAppend]
  rw [flush, hemit, run_bind_ok]

/-- A FirstHeader frame that does not fit ends the Flush before it has changed anything (R259). -/
theorem flush_first_overflow {h : FirstHeader} (hout : p.enc.firstEmitted = false) (hfirst : p.enc.first = some h)
    (hser : serFrame P .first h = none) : flush P p = .stop .hdrOverflow p := by
  simp only [flush, emitFirst, hout, hfirst, Option.bind_some, hser]
  rfl

/-- A Flush whose transforms do not all have a result is PRIMITIVE_FAIL (R268). -/
theorem FirstOut.flush_failed (h : FirstOut P p q) (hnone : none ∈ (batchTransforms P p).1) :
    flush P p = .stop .primitiveFail { q with randDraws := (batchTransforms P p).2 } := by
  rw [h.flush_eq, flushBatch_failed (h.batchTransforms_eq ▸ hnone), h.batchTransforms_eq]

/-- A Flush whose transforms all have a result frames them; what is framed goes out as a whole (R258). -/
theorem FirstOut.flush_transformed (h : FirstOut P p q) {cs : List (BlockHeader × Bytes)}
    (hcs : (batchTransforms P p).1 = cs.map some) :
    flush P p = (frameAll P cs [] { q with randDraws := (batchTransforms P p).2 }).bind fun out u =>
      .ok () (batchDone P (slices P p.enc.inBuf).length (outAppend out u)) := by
  rw [h.flush_eq, flushBatch_transformed (h.batchTransforms_eq ▸ hcs), h.batchTransforms_eq, h.position_eq.1]

/-- A Flush in which a frame does not fit is HDR_OVERFLOW, with nothing of the batch on OUT (R268). -/
theorem FirstOut.flush_frame_overflow (h : FirstOut P p q) {cs : List (BlockHeader × Bytes)}
    (hcs : (batchTransforms P p).1 = cs.map some) {c : EncFatal} {u : EncPart}
    (hu : frameAll P cs [] { q with randDraws := (batchTransforms P p).2 } = .stop c u) :
    c = .hdrOverflow ∧ flush P p = .stop c u ∧ u.out = q.out ∧ u.enc.outLog = q.enc.outLog := by
  have hkeep := frameAll_keeps P cs [] { q with randDraws := (batchTransforms P p).2 }
  rw [hu] at hkeep
  exact ⟨frameAll_stop P cs [] _ u c hu, by rw [h.flush_transformed hcs, hu, run_bind_stop], hkeep.out, hkeep.outLog⟩

/-- A Flush in which every frame fits puts the batch on OUT; framing had kept OUT, the buffer and the counters as they
were, so these move on from where the archive stood (R258). -/
theorem FirstOut.flush_framed (h : FirstOut P p q) {cs : List (BlockHeader × Bytes)}
    (hcs : (batchTransforms P p).1 = cs.map some) {batch : Bytes} {u : EncPart}
    (hu : frameAll P cs [] { q with randDraws := (batchTransforms P p).2 } = .ok batch u) :
    flush P p = .ok () { u with
      out := q.out ++ batch
      enc := { u.enc with
        outLog := q.enc.outLog ++ batch
        srcPos := toI64 P (p.enc.srcPos.toInt + p.enc.inBuf.length)
        nextIdx := toI64 P (p.enc.nextIdx.toInt + (slices P p.enc.inBuf).length)
        inBuf := [] } } := by
  have hkeep := frameAll_keeps P cs [] { q with randDraws := (batchTransforms P p).2 }
  rw [hu, Run.state_ok] at hkeep
  obtain ⟨hbuf, hpos, hidx⟩ := h.position_eq
  rw [h.flush_transformed hcs, hu, run_bind_ok]
  simp only [batchDone, outAppend, hkeep.out, hkeep.outLog, hkeep.srcPos, hkeep.nextIdx, hkeep.inBuf, hbuf, hpos, hidx]

end

/-- Settles O36: the FirstHeader frames and then the block part, in each way a Flush can end. -/
theorem flushOutput : Obligations.FlushOutput := by
  intro P p
  exact ⟨fun _ hout hfirst hser => flush_first_overflow hout hfirst hser, transformAll_length P _ _ _ _ _ _,
    fun i b hb => transformAll_getElem? P _ _ _ _ _ _ i b hb,
    fun hP hkey => none_mem_transformAll_iff hP hkey _ _ _ _,
    fun _ hq => ⟨hq.flush_failed, fun _ hcs =>
      ⟨fun _ _ hu => hq.flush_frame_overflow hcs hu, fun _ _ hu => hq.flush_framed hcs hu⟩⟩⟩

end Sys2Proof.Machine

/-! ## The commands of ENC (spec/43_encoder.md R250, R251, R256, R277) -/

namespace Sys2Proof.Machine

/-- The options ENC.INIT accepts, as DOC's invariant says them (R251). -/
theorem optionsLegal_iff (cfg : EncCfg) : optionsLegal cfg = true ↔
    (cfg.encrypt || cfg.compress) = true ∧ ¬ (cfg.compress = true ∧ cfg.level = 0) := by
  cases hc : cfg.compress <;> simp [optionsLegal, hc]

/-- Settles O27: the two ends of ENC.INIT in IDLE, told apart by `optionsLegal_iff`. -/
theorem encInitOpensArchive : Obligations.EncInitOpensArchive := by
  intro s hs
  have hlegal := optionsLegal_iff (sampleOptions s.csr)
  rcases encInit_shape Config.params s with ⟨hne, -⟩ | ⟨-, hopt, hq⟩ | ⟨-, hopt, hq⟩
  · exact absurd hs hne
  · refine ⟨fun hok => ?_, fun _ => congrArg Host.Outcome.next hq⟩
    exact absurd (hlegal.mpr hok) (by simp [hopt])
  · refine ⟨fun _ => congrArg Host.Outcome.next hq, fun hbad => ?_⟩
    obtain ⟨hsome, hlevel⟩ := hlegal.mp hopt
    rcases hbad with hnone | hzero
    · exact absurd (hsome.symm.trans hnone) (by decide)
    · exact absurd hzero hlevel

section
variable {P : Params} {s : State}

/-- ENC.WRITE in ACTIVE, within the size limit, is the byte loop (R256). -/
theorem encWrite_active (hs : s.enc.state = .active) (hb : s.enc.srcLog.length + s.ops.data.length ≤ maxSource) :
    encWrite P s = encEnd (acceptBytes P s.ops.data (encPart s)) (fun _ => statusResponse .ok) s := by
  rcases encWrite_shape P s with ⟨hne, -⟩ | ⟨-, hbig, -⟩ | ⟨-, -, hq⟩
  · exact absurd hs hne
  · omega
  · exact hq

/-- ENC.WRITE in ACTIVE, beyond the size limit, is refused (R256). -/
theorem encWrite_tooLong (hs : s.enc.state = .active) (hb : maxSource < s.enc.srcLog.length + s.ops.data.length) :
    encWrite P s = completeStatus .badOperand s := by
  rcases encWrite_shape P s with ⟨hne, -⟩ | ⟨-, -, hq⟩ | ⟨-, hle, -⟩
  · exact absurd hs hne
  · exact hq
  · omega

end

/-- Settles O28: the byte loop only buffers a short string (`acceptBytes_short`); a string too long is refused. -/
theorem encWriteBuffers : Obligations.EncWriteBuffers := by
  intro s hs
  refine ⟨fun hshort hb => congrArg Host.Outcome.next ?_,
    fun hb => congrArg Host.Outcome.next (encWrite_tooLong hs hb)⟩
  rw [encWrite_active hs hb, acceptBytes_short Config.params s.ops.data (encPart s) hshort]
  rfl

/-- The byte loop on two strings joined is the loop on one and then on the other: each byte depends only on what the
bytes before it left (R256). -/
theorem acceptBytes_append (P : Params) (a b : Bytes) (p : EncPart) :
    acceptBytes P (a ++ b) p = (acceptBytes P a p).bind fun _ q => acceptBytes P b q := by
  induction a generalizing p with
  | nil => rfl
  | cons x a ih =>
    rw [List.cons_append, acceptBytes_cons, acceptBytes_cons]
    split
    · simp only [ih, run_bind_assoc]
    · exact ih _

/-- Settles O30, by `acceptBytes_append`. -/
theorem sourceSplitIrrelevant : Obligations.SourceSplitIrrelevant :=
  acceptBytes_append

/-- Bytes that fill the batch exactly are buffered, and then there is one Flush (R256). -/
theorem acceptBytes_fill {P : Params} {p : EncPart} {d : Bytes} (hd : d ≠ [])
    (hfull : p.enc.inBuf.length + d.length = p.enc.cfg.par * P.chunkSize) :
    acceptBytes P d p =
      flush P { p with enc := { p.enc with inBuf := p.enc.inBuf ++ d, srcLog := p.enc.srcLog ++ d } } := by
  obtain ⟨a, x, rfl⟩ := (List.eq_nil_or_concat' d).resolve_left hd
  rw [List.length_append, List.length_singleton] at hfull
  rw [acceptBytes_append, acceptBytes_short P a p (by omega), run_bind_ok, acceptBytes_cons,
    if_pos (by simpa [Nat.add_assoc] using hfull), bufferByte]
  simp only [List.append_assoc]
  cases flush P _ <;> rfl

/-- Settles O29: the byte loop by `acceptBytes_fill` and `acceptBytes_append`, the command by `encWrite_active`; a loop
that is OK keeps the archive's state. -/
theorem encWriteFlushesFullBatch : Obligations.EncWriteFlushesFullBatch := by
  refine ⟨fun P p d d' hd hfull => ?_, fun s hs hb => ?_⟩
  · intro q
    have hloop : ∀ r, flush P q = r → acceptBytes P (d ++ d') p = r.bind fun _ u => acceptBytes P d' u := by
      rintro _ rfl
      rw [acceptBytes_append, acceptBytes_fill hd hfull]
    exact ⟨fun u hu => hloop _ hu, fun c u hu => hloop _ hu⟩
  · have hexec : exec .encWrite s = .next (encWrite Config.params s) := rfl
    rw [hexec, encWrite_active hs hb]
    refine ⟨fun u hu => ⟨(acceptBytes_archive _ hu).state.trans hs, ?_⟩, fun c u hu => ?_⟩ <;>
      rw [hu] <;> rfl

section
variable {P : Params} {p : EncPart}

/-- The archive is closed when the EoF frame and the FinalHeader frame fit (R277). -/
theorem closeArchive_fits {fe fz : Bytes} {first : FirstHeader}
    (hfe : serFrame P .block (eofHeader P p.enc (P.now p.nowDraws)) = some fe) (hfirst : p.enc.first = some first)
    (hfz : serFrame P .final (finalHeader P p.enc first fe (P.now p.nowDraws)) = some fz) :
    closeArchive P p = .ok (finalHeader P p.enc first fe (P.now p.nowDraws)) { p with
      enc := { p.enc with
        outLog := p.enc.outLog ++ fe ++ fz ++ fz
        final := some (finalHeader P p.enc first fe (P.now p.nowDraws))
        state := .finalized }
      out := p.out ++ fe ++ fz ++ fz
      nowDraws := p.nowDraws + 1 } := by
  simp only [closeArchive, nowDrawn, hfe, hfirst, hfz, outAppend]

/-- Where one of the closing frames is missing, nothing is put out (R277). -/
theorem closeArchive_overflow
    (hmiss : ∀ fe first, serFrame P .block (eofHeader P p.enc (P.now p.nowDraws)) = some fe →
      p.enc.first = some first → serFrame P .final (finalHeader P p.enc first fe (P.now p.nowDraws)) = none) :
    closeArchive P p = .stop .hdrOverflow (nowDrawn p) := by
  rcases closeArchive_cases P p with hstop | ⟨first, fe, fz, hfe, hfirst, hfz, -⟩
  · exact hstop
  · exact absurd ((hmiss fe first hfe hfirst).symm.trans hfz) (by simp)

end

/-- ENC.FINAL in ACTIVE is a Flush and then the closing of the archive (R277). -/
theorem exec_encFinal_active {s : State} (hs : s.enc.state = .active) :
    exec .encFinal s = .next (encEnd ((flush Config.params (encPart s)).bind fun _ p => closeArchive Config.params p)
      (fun h => finalResponse (some h)) s) := by
  have hexec : exec .encFinal s = .next (encFinal Config.params s) := rfl
  rw [hexec, encFinal, hs]
  rfl

/-- Settles O37: the Flush fails, or one of the closing frames is missing, or both are put out. -/
theorem encFinalClosesArchive : Obligations.EncFinalClosesArchive := by
  intro s hs P
  have hexec := exec_encFinal_active hs
  cases hflush : flush P (encPart s) with
  | stop c p =>
    rw [hflush] at hexec
    exact hexec
  | ok _ p =>
    rw [hflush, run_bind_ok] at hexec
    dsimp only
    split
    next fe first hfe hfirst =>
      split
      next fz hfz =>
        rw [hexec, closeArchive_fits hfe hfirst hfz]
        rfl
      next hfz =>
        rw [hexec, closeArchive_overflow]
        · rfl
        · intro fe' first' hfe' hfirst'
          cases hfe.symm.trans hfe'
          cases hfirst.symm.trans hfirst'
          exact hfz
    next hmiss =>
      rw [hexec, closeArchive_overflow fun fe first hfe hfirst => (hmiss fe first hfe hfirst).elim]
      rfl

/-- A fatal condition in a procedure of ENC ends it in FAILED (R410). -/
theorem encEnd_state {α : Type} (r : Run EncFatal EncPart α) (f : α → Response) (s : State) :
    (encEnd r f s).enc.state = .failed ∨ ∃ a p, r = .ok a p ∧ (encEnd r f s).enc.state = p.enc.state := by
  cases r with
  | ok a p => exact .inr ⟨a, p, rfl, rfl⟩
  | stop c p => exact .inl rfl

/-- A procedure of ENC.FINAL that is OK leaves ENC FINALIZED (R277). -/
theorem finishArchive_finalized {P : Params} {p q : EncPart} {fin : FinalHeader}
    (h : finishArchive P p = .ok fin q) : q.enc.state = .finalized := by
  obtain ⟨_, u, -, hclose⟩ := run_bind_eq_ok.mp h
  rcases closeArchive_cases P u with hc | ⟨_, _, _, -, -, -, hc⟩ <;> rw [hc] at hclose <;> cases hclose
  rfl

/-- Settles O38: by `exec_cases`. A command of ENC that runs ends in FAILED or as its procedure leaves ENC; every other
one leaves ENC, but for the CTRL write that resets it. -/
theorem encLifeCycle : Obligations.EncLifeCycle := by
  intro i s t h
  have other : isEncCommand i = false → resetsEnc s i = false → t.enc.state = s.enc.state := fun hi hr =>
    congrArg Enc.state ((exec_leaves_encSide h hi).1 hr)
  cases exec_cases h with
  | answers _ q ht => rcases ht with rfl | rfl <;> exact .inl rfl
  | csrWr c hc ht =>
    cases hr : resetsEnc s (.csrWr (csrAddress c)) with
    | false => exact .inl (other rfl hr)
    | true =>
      subst ht
      rcases writeCsr_enc Config.params c s.ops.value s with he | he
      · exact .inl (congrArg Enc.state he)
      · exact .inr (.inr (.inr (.inr ⟨rfl, congrArg Enc.state he⟩)))
  | encInit hs _ ht => subst ht; exact .inr (.inl ⟨rfl, hs, rfl⟩)
  | encWrite hs _ ht =>
    subst ht
    rcases encEnd_state (acceptBytes Config.params s.ops.data (encPart s)) (fun _ => statusResponse .ok) s
      with hf | ⟨_, p, hp, hst⟩
    · exact .inr (.inr (.inl ⟨.inl rfl, hs, hf⟩))
    · exact .inl (hst.trans (acceptBytes_archive _ hp).state)
  | encFinal hs ht =>
    subst ht
    rcases encEnd_state (finishArchive Config.params (encPart s)) (fun h => finalResponse (some h)) s
      with hf | ⟨_, p, hp, hst⟩
    · exact .inr (.inr (.inl ⟨.inr rfl, hs, hf⟩))
    · exact .inr (.inr (.inr (.inl ⟨rfl, hs, hst.trans (finishArchive_finalized hp)⟩)))
  | decInit _ _ => exact .inl (other rfl rfl)
  | decFeed _ _ => exact .inl (other rfl rfl)
  | decFinal _ _ => exact .inl (other rfl rfl)

end Sys2Proof.Machine

/-! ## One chunk decoded (spec/44_decoder.md R316, R317, R320, R321, R339) -/

namespace Sys2Proof.Machine

/-- DecodeChunk of an EoF header: nothing to write and no event (R321). -/
theorem decodeChunk_eof (P : Params) (e c : Bool) (key : Option Key) {h : BlockHeader} (p : Bytes)
    (heof : h.isEoF = true) : decodeChunk P e c key h p = (none, []) :=
  if_pos heof

/-- DecodeChunk of an all-zero header: zeros and no event, whatever the payload (R320). -/
theorem decodeChunk_allZero (P : Params) (e c : Bool) (key : Option Key) {h : BlockHeader} (p : Bytes)
    (heof : h.isEoF = false) (hz : h.isAllZero = true) :
    decodeChunk P e c key h p = (some (zeros h.srcDataLength.toInt.toNat), []) := by
  simp only [decodeChunk, heof, hz, if_true, Bool.false_eq_true, if_false]

/-- DecodeChunk where every step succeeds and both hashes agree: the source bytes and no event (R316). -/
theorem decodeChunk_clean {P : Params} {e c : Bool} {key : Option Key} {h : BlockHeader} {p content pad out : Bytes}
    (heof : h.isEoF = false) (hz : h.isAllZero = false) (hdest : P.sha1 p = h.destSha1)
    (hplain : (if e then key.bind fun k => tcDecrypt P k h.srcDataPosition p else some p) = some (content ++ pad))
    (hsize : h.destDataSizeWithoutPadding.toInt = content.length)
    (hout : (if c then P.decompress content else some content) = some out)
    (hlen : h.srcDataLength.toInt = out.length) (hsrc : P.sha1 out = h.srcSha1) :
    decodeChunk P e c key h p = (some out, []) := by
  have hfits : ¬ ((content ++ pad).length : Int) < content.length := by
    rw [List.length_append]; omega
  simp only [decodeChunk, heof, hz, Bool.false_eq_true, if_false, hplain, hsize, if_neg hfits, Int.toNat_natCast,
    List.take_left, hout, hlen, hdest, hsrc, ne_eq, not_true, List.append_nil]

/-- Settles O47: `decodeChunk_written` for what is written, and the two headers that read no payload. -/
theorem decodedChunkFillsItsRange : Obligations.DecodedChunkFillsItsRange := by
  intro P e c key h p
  exact ⟨fun _ hv => (decodeChunk_written hv).2, decodeChunk_eof P e c key p, decodeChunk_allZero P e c key p⟩

section
variable {P : Params} {cfg : EncCfg} {key : Option Key} {pos : I64} {c pad d : Bytes}

/-- Undoing the encryption of a padded content gives it back: its length is a multiple of 4096, so TC_DEC undoes TC_ENC
there (T2, T3). -/
theorem decrypt_padded (hP : P.Lawful) (hmod : d.length % 4096 = 0) (hlen : d.length = c.length + pad.length)
    {k : Key} (hd : d = P.tcEnc k pos (c ++ pad)) : tcDecrypt P k pos d = some (c ++ pad) := by
  have hdom : P.tcDomain d.length = true := hP.tcDomain_padAlign _ hmod
  have hdom' : P.tcDomain (c ++ pad).length = true := by rw [List.length_append, ← hlen]; exact hdom
  rw [tcDecrypt, if_pos hdom, hd, hP.tcDec_tcEnc k pos _ hdom']

end

/-- Settles O33: an all-zero chunk is written as zeros, which it is; of the others, each step of Transform is undone,
the encryption by T2 and the compression by C1, and what is left has the hashes the header holds. -/
theorem decodeUndoesTransform : Obligations.DecodeUndoesTransform := by
  intro P cfg key b p i r r' h d hP hb hd _ ht
  have hlen : (toI64 P b.length).toInt = b.length := toInt_toI64_nat P _ hb
  cases hz : allZero b with
  | true =>
    rw [transform_zero P cfg key b _ _ r hz] at ht
    cases ht
    rw [decodeChunk_allZero _ _ _ _ _ rfl rfl, hlen, Int.toNat_natCast, ← eq_zeros_of_allZero hz]
  | false =>
    obtain ⟨c, pad, rfl, hcomp, hmod, hsum, -, hpay⟩ := transform_payload hP hz ht
    have hsize : (toI64 P c.length).toInt = c.length := toInt_toI64_nat P _ (by omega)
    apply decodeChunk_clean (content := c) (pad := pad)
    case hplain =>
      cases henc : cfg.encrypt with
      | true =>
        rw [henc, if_pos rfl] at hpay
        obtain ⟨-, -, k, rfl, hdk⟩ := hpay
        exact decrypt_padded hP hmod hsum hdk
      | false =>
        rw [henc, if_neg Bool.false_ne_true] at hpay
        exact congrArg some hpay.2.2
    case hout =>
      cases hc : cfg.compress with
      | true =>
        rw [hc, if_pos rfl] at hcomp
        exact hP.decompress_compress _ _ _ hcomp
      | false =>
        rw [hc, if_neg Bool.false_ne_true] at hcomp
        exact congrArg some hcomp
    case hsize => dsimp only; exact hsize
    case hlen => dsimp only; exact hlen
    all_goals rfl

end Sys2Proof.Machine

/-! ## The parse loop (spec/44_decoder.md R303 to R314, R318, R331, R471) -/

namespace Sys2Proof.Machine

/-! ### The frame at offset 0 (R305) -/

section
variable {P : Params} {h : FirstHeader} {pw : Bytes}

/-- A sealed key unwraps to `k` where UNSEAL gives the 64 bytes of `k` (R305). -/
theorem unsealed_eq_some {o : Option Bytes} {k : Key} (ho : o = some k.val) :
    o.bind (FixedBytes.ofBytes 64) = some k := by
  rw [ho, Option.bind_some, fixedBytes_ofBytes_val]

/-- A sealed key does not unwrap where UNSEAL fails or gives another length than 64 bytes (R305). -/
theorem unsealed_eq_none {o : Option Bytes} (ho : ∀ k : Key, o ≠ some k.val) :
    o.bind (FixedBytes.ofBytes 64) = none := by
  cases o with
  | none => rfl
  | some b => exact dif_neg fun hlen => ho ⟨b, hlen⟩ rfl

/-- An archive that is not encrypted has no key (R305). -/
theorem unwrapKey_plain (P : Params) (pw : Bytes) (he : h.encrypted = false) : unwrapKey P h pw = .ok none := by
  simp only [unwrapKey, he, Bool.false_eq_true, if_false]

theorem unwrapKey_badPassword (he : h.encrypted = true) (hv : P.pwVerify h.saltedPassword pw = false) :
    unwrapKey P h pw = .error .badPassword := by
  simp only [unwrapKey, he, if_true, hv, Bool.false_eq_true, not_false_iff]

theorem unwrapKey_ok (he : h.encrypted = true) (hv : P.pwVerify h.saltedPassword pw = true) {k : Key}
    (hk : P.pwUnseal h.wrappedMasterKey pw = some k.val) : unwrapKey P h pw = .ok (some k) := by
  simp only [unwrapKey, he, if_true, hv, not_true, if_false, unsealed_eq_some hk]

theorem unwrapKey_fail (he : h.encrypted = true) (hv : P.pwVerify h.saltedPassword pw = true)
    (hk : ∀ k : Key, P.pwUnseal h.wrappedMasterKey pw ≠ some k.val) : unwrapKey P h pw = .error .unwrapFail := by
  simp only [unwrapKey, he, if_true, hv, not_true, if_false, unsealed_eq_none hk]

variable {d : Dec}

theorem acceptFirst_badVersion (hver : h.version ≠ 1) : acceptFirst P (.first h) d = .error .badVersion :=
  if_pos hver

/-- With the version right, the key checks decide (R305). -/
theorem acceptFirst_refused (hver : h.version = 1) {c : DecFatal} (hk : unwrapKey P h d.password = .error c) :
    acceptFirst P (.first h) d = .error c := by
  simp only [acceptFirst, hver, formatVersion, ne_eq, not_true, if_false, hk]

theorem acceptFirst_accepted (hver : h.version = 1) {k : Option Key} (hk : unwrapKey P h d.password = .ok k) :
    acceptFirst P (.first h) d = .ok (accepted h (if h.encrypted then k else d.key) d) := by
  simp only [acceptFirst, hver, formatVersion, ne_eq, not_true, if_false, hk, accepted]

/-- AcceptFirst fails with the code of the first check that does not pass (R305). -/
theorem acceptFirst_of_fails {f : Bytes} {c : DecFatal} (hf : FirstFrameFails P f d.password c) :
    acceptFirst P (parseFrame P f) d = .error c := by
  unfold FirstFrameFails at hf
  cases hv : parseFrame P f with
  | first h =>
    rw [hv] at hf
    rcases hf with ⟨hver, rfl⟩ | ⟨hver, he, hp, rfl⟩ | ⟨hver, he, hp, hk, rfl⟩
    · exact acceptFirst_badVersion hver
    · exact acceptFirst_refused hver (unwrapKey_badPassword he hp)
    · exact acceptFirst_refused hver (unwrapKey_fail he hp hk)
  | unrecognized => rw [hv] at hf; cases hf; rfl
  | block _ => rw [hv] at hf; cases hf; rfl
  | final _ => rw [hv] at hf; cases hf; rfl
  | invalid => rw [hv] at hf; cases hf; rfl

end

section
variable {P : Params} {final : Bool} {p : DecPart}

/-- A turn in AWAIT_FIRST stops where AcceptFirst fails, with DEC as it was (R305). -/
theorem parseTurn_refused (hs : p.dec.state = .awaitFirst) {c : DecFatal}
    (ha : acceptFirst P (parseFrame P (p.dec.inBuf.take 4096)) p.dec = .error c) :
    parseTurn P final p = .stop (.fatal c) p := by
  simp only [parseTurn, frameSize, hs, if_true, ha]

/-- A turn in AWAIT_FIRST goes on where AcceptFirst passes (R305). -/
theorem parseTurn_accepted (hs : p.dec.state = .awaitFirst) {d : Dec}
    (ha : acceptFirst P (parseFrame P (p.dec.inBuf.take 4096)) p.dec = .ok d) :
    parseTurn P final p = .ok true { p with dec := d } := by
  simp only [parseTurn, frameSize, hs, if_true, ha]

/-- A frame at offset 0 that fails a check of R305 stops the turn with that check's code. -/
theorem parseTurn_fails (hs : p.dec.state = .awaitFirst) {c : DecFatal}
    (hf : FirstFrameFails P (p.dec.inBuf.take 4096) p.dec.password c) : parseTurn P final p = .stop (.fatal c) p :=
  parseTurn_refused hs (acceptFirst_of_fails hf)

/-- A FirstHeader at offset 0 that passes every check is recorded with the key, and DEC is STREAMING (R305). -/
theorem parseTurn_passes (hs : p.dec.state = .awaitFirst) {h : FirstHeader}
    (hv : parseFrame P (p.dec.inBuf.take 4096) = .first h) (hver : h.version = 1) {k : Option Key}
    (hk : unwrapKey P h p.dec.password = .ok k) :
    parseTurn P final p = .ok true { p with dec := accepted h (if h.encrypted then k else p.dec.key) p.dec } :=
  parseTurn_accepted hs (hv ▸ acceptFirst_accepted hver hk)

end

/-! ### The frames of STREAMING (R306 to R311, R314, R318, R331) -/

/-- Settles O43: the turn is by the frame's verdict, and recording CORRUPT_FRAME counts one error. -/
theorem streamingFramesConsumed : Obligations.StreamingFramesConsumed := by
  intro P final p hs
  refine ⟨fun hv => ?_, fun h hv => ?_, fun h hv => ?_⟩ <;> rw [parseTurn_streaming P final p hs]
  · rcases hv with hv | hv <;> rw [hv] <;> rfl
  · rw [hv]; rfl
  · have hfinal : some (p.dec.final.getD h) = if p.dec.final.isSome then p.dec.final else some h := by
      cases p.dec.final <;> rfl
    rw [hv, ← hfinal]; rfl

section
variable {P : Params} {final : Bool} {p : DecPart} {h : BlockHeader}

/-- A BlockHeader that fails the sanity check is one error and is skipped (R309). -/
theorem parseBlock_insane (P : Params) (final : Bool) (p : DecPart) (hs : sane h = false) :
    parseBlock P final h p = .ok true { p with dec := skipFrame .insaneHeader p.dec } := by
  simp only [parseBlock, hs, Bool.false_eq_true, not_false_iff, if_true]

/-- A sane BlockHeader whose payload is not complete waits, or at DEC.FINAL is one error and is skipped (R310, R331). -/
theorem parseBlock_short (P : Params) (final : Bool) (hs : sane h = true)
    (hl : p.dec.inBuf.length < 4096 + h.destDataSize.toInt.toNat) :
    parseBlock P final h p =
      if final then .ok true { p with dec := skipFrame .incompletePayload (raiseOutLen h p.dec) }
      else .ok false { p with dec := raiseOutLen h p.dec } := by
  have hl' : (raiseOutLen h p.dec).inBuf.length < frameSize + h.destDataSize.toInt.toNat := hl
  simp only [parseBlock, hs, not_true, if_false, if_pos hl']
  cases final <;> rfl

/-- A sane BlockHeader whose payload is complete joins the batch, which runs when that fills it (R311, R314). -/
theorem parseBlock_complete (P : Params) (final : Bool) (hs : sane h = true)
    (hl : 4096 + h.destDataSize.toInt.toNat ≤ p.dec.inBuf.length) :
    parseBlock P final h p =
      if p.dec.batch.length + 1 = p.dec.par then
        (runBatch P { p with dec := enqueue h (raiseOutLen h p.dec) }).bind fun _ q => .ok true q
      else .ok true { p with dec := enqueue h (raiseOutLen h p.dec) } := by
  simp only [parseBlock, hs, not_true, if_false, raiseOutLen_inBuf, frameSize, if_neg (not_lt.mpr hl), enqueue_batch,
    raiseOutLen_batch, List.length_append, List.length_singleton, enqueue_par, raiseOutLen_par]

end

/-- Settles O44: the turn is that of the BlockHeader, in each of its ends. -/
theorem blockFrameWaitsOrEnqueues : Obligations.BlockFrameWaitsOrEnqueues := by
  intro P p h hs hv
  have hturn : ∀ final, parseTurn P final p = parseBlock P final h p := fun final => by
    rw [parseTurn_streaming P final p hs, hv]; rfl
  refine ⟨fun hi final => ?_, fun hh hl => ?_, fun hh hl => ?_, fun hh hl hb final => ?_, fun hh hl hb final => ?_⟩ <;>
    rw [hturn]
  · rw [parseBlock_insane P final p hi]; rfl
  · rw [parseBlock_short P false hh hl]; rfl
  · rw [parseBlock_short P true hh hl]; rfl
  · rw [parseBlock_complete P final hh hl, if_neg hb]; rfl
  · rw [parseBlock_complete P final hh hl, if_pos hb]; rfl

/-! ### The loop (R303, R304, R310, R471) -/

section
variable {P : Params} {final : Bool} {p q : DecPart}

/-- With less than a frame buffered the loop ends at once (R304). -/
theorem parseLoop_short (P : Params) (final : Bool) (hl : p.dec.inBuf.length < 4096) :
    parseLoop P final p = .ok () p := by
  rw [parseLoop_eq]; exact if_pos hl

/-- With a frame buffered the loop is a turn, and the loop again where the turn asks for another frame (R304). -/
theorem parseLoop_frame (P : Params) (final : Bool) (hl : 4096 ≤ p.dec.inBuf.length) : parseLoop P final p =
    (parseTurn P final p).bind fun more q => if more then parseLoop P final q else .ok () q := by
  rw [parseLoop_eq]; exact if_neg (not_lt.mpr hl)

/-- Induction along a parse loop that returns at `q`: from its end, back over the turns that asked for another frame. -/
theorem parseLoop_ok_induction {motive : DecPart → Prop} (short : q.dec.inBuf.length < 4096 → motive q)
    (wait : ∀ p, 4096 ≤ p.dec.inBuf.length → parseTurn P final p = .ok false q → motive p)
    (turn : ∀ p u, 4096 ≤ p.dec.inBuf.length → parseTurn P final p = .ok true u → parseLoop P final u = .ok () q →
      motive u → motive p) :
    ∀ p, parseLoop P final p = .ok () q → motive p := by
  intro p
  induction hn : p.dec.inBuf.length using Nat.strong_induction_on generalizing p with
  | _ n ih =>
    intro hp
    rcases Nat.lt_or_ge p.dec.inBuf.length 4096 with hl | hl
    · rw [parseLoop_short P final hl] at hp
      cases hp
      exact short hl
    · rw [parseLoop_frame P final hl] at hp
      obtain ⟨more, u, ht, hu⟩ := run_bind_eq_ok.mp hp
      cases more with
      | false => cases hu; exact wait p hl ht
      | true =>
        have hprogress := parseTurn_progress hl ht
        simp only [frameSize] at hprogress
        exact turn p u hl ht hu (ih _ (by omega) u rfl hu)

/-- A turn that asks for no further frame is DEC.FEED's and stands at a sane BlockHeader whose payload is not yet there;
it has only raised the output length (R310, R318). -/
theorem parseTurn_waits (ht : parseTurn P final p = .ok false q) :
    ∃ h, final = false ∧ p.dec.state ≠ .awaitFirst ∧ parseFrame P (p.dec.inBuf.take 4096) = .block h ∧
      sane h = true ∧ p.dec.inBuf.length < 4096 + h.destDataSize.toInt.toNat ∧
      q = { p with dec := raiseOutLen h p.dec } := by
  have hc := parseTurn_cases P final p
  rw [ht] at hc
  generalize hr : (Run.ok false q : Run DecStop DecPart Bool) = r at hc
  cases hc with
  | wait h hs hfin hv hh hl => cases hr; exact ⟨h, hfin, hs, hv, hh, hl, rfl⟩
  | ran h =>
    obtain ⟨_, _, -, hq⟩ := run_bind_eq_ok.mp hr.symm
    cases hq
  | _ => cases hr

end

/-- Settles O45: how the loop runs by `parseLoop_short` and `parseLoop_frame`; where it ends by induction along it, a
turn that waits being `parseTurn_waits`. -/
theorem parseLoopEnds : Obligations.ParseLoopEnds := by
  intro P final p
  refine ⟨parseLoop_short P final, parseLoop_frame P final, fun q hq => ?_⟩
  refine parseLoop_ok_induction (motive := fun _ => _) .inl (fun p hl ht => ?_) (fun _ _ _ _ _ ih => ih) p hq
  obtain ⟨h, hfin, hs, hv, hh, hshort, rfl⟩ := parseTurn_waits ht
  exact .inr ⟨hfin, hs, h, hv, hh, hshort⟩

/-- Settles O46: by induction along the first loop. Its turns go the same way with more input behind them
(`parseTurn_feed`), and where it waits, the turn at its header is the same from `q` (`parseTurn_wait`). -/
theorem inputSplitIrrelevant : Obligations.InputSplitIrrelevant := by
  intro P p q b hq
  refine parseLoop_ok_induction (motive := fun p => parseLoop P false (feedPart b p) = parseLoop P false (feedPart b q))
    (fun _ => rfl) (fun p hl ht => ?_) (fun p u hl ht _ ih => ?_) p hq
  · obtain ⟨hsame, hbuf⟩ := parseTurn_wait b hl ht
    rw [parseLoop_frame, parseLoop_frame, hsame]
    · rw [feedPart, hbuf, List.length_append]; omega
    · rw [feedPart, List.length_append]; omega
  · have hfed := parseTurn_feed b hl (by rw [ht]; intro _ h; cases h)
    rw [ht] at hfed
    rw [← ih]
    refine parseLoop_turn ?_ hfed
    rw [feedPart, List.length_append]
    exact Nat.le_add_right_of_le hl

end Sys2Proof.Machine

/-! ## RunBatch (spec/44_decoder.md R315, R317, R319; spec/20_memory.md R121) -/

namespace Sys2Proof.Machine

/-- The chunks of a batch, each with what DecodeChunk gives for it under DEC's options and key (R315). -/
def decodedBatch (P : Params) (d : Dec) : List (BatchEntry × (Option Bytes × List SoftCause)) :=
  d.batch.map fun b => (b, decodeEntry P d b)

section
variable {P : Params} {p q : DecPart}

/-- A RunBatch that ends has written out the decoded batch and then emptied it (R315). -/
theorem runBatch_writeAll (h : runBatch P p = .ok () q) :
    ∃ u, writeAll (decodedBatch P p.dec) p = .ok () u ∧ q = { u with dec := { u.dec with batch := [] } } := by
  obtain ⟨_, u, hu, hq⟩ := run_bind_eq_ok.mp h
  cases hq
  exact ⟨u, hu, rfl⟩

/-- What RunBatch makes of DEC: the events and bytes of the decoded batch are noted, and the batch is emptied (R315). -/
theorem runBatch_dec (h : runBatch P p = .ok () q) :
    q.dec = { noteEvents (chunkEvents (decodedBatch P p.dec)) (chunkBytes (decodedBatch P p.dec)) p.dec with
      batch := [] } := by
  obtain ⟨u, hu, rfl⟩ := runBatch_writeAll h
  rw [writeAll_dec hu]

/-- A byte of a decoded chunk that no later chunk of the batch covers reads as decoded (R317, R121). -/
theorem runBatch_get (h : runBatch P p = .ok () q) (hw : Memory.wf p.sink = true) {before after : List BatchEntry}
    {b : BatchEntry} {v : Bytes} {i : Nat} {x : Byte} (hb : p.dec.batch = before ++ b :: after)
    (hv : (decodeEntry P p.dec b).1 = some v) (hx : v[i]? = some x)
    (hlater : ∀ b' ∈ after, ¬ entryCovers b' (b.hdr.srcDataPosition.toInt.toNat + i)) :
    Memory.get q.sink (b.hdr.srcDataPosition.toInt.toNat + i) = x := by
  obtain ⟨u, hu, rfl⟩ := runBatch_writeAll h
  have hsplit : decodedBatch P p.dec = before.map (fun b => (b, decodeEntry P p.dec b)) ++
      (b, decodeEntry P p.dec b) :: after.map fun b => (b, decodeEntry P p.dec b) := by
    rw [decodedBatch, hb, List.map_append, List.map_cons]
  refine writeAll_get hu hw hsplit hv hx fun c hc v' hv' => ?_
  obtain ⟨b', hb', rfl⟩ := List.mem_map.mp hc
  obtain ⟨heof, hlen⟩ := decodeChunk_written hv'
  have hout := hlater b' hb'
  simp only [entryCovers, heof, true_and, not_and, not_lt] at hout
  dsimp only
  omega

end

/-- DecodeChunk of a chunk of the batch reads the options of DEC.first and DEC.key (R316). -/
theorem decodeEntry_of_first (P : Params) {d : Dec} {f : FirstHeader} (hf : d.first = some f) (b : BatchEntry) :
    decodeEntry P d b = decodeChunk P f.encrypted f.compressed d.key b.hdr b.payload := by
  rw [decodeEntry, archiveFlags, hf]

/-- Settles O49: it always runs on sane headers by `runBatch_total`; what it leaves alone by `runBatch_ok`, what it
makes of DEC by `runBatch_dec`, and what it writes by `runBatch_get`. -/
theorem runBatchWritesOnlyItsRanges : Obligations.RunBatchWritesOnlyItsRanges := by
  intro P p
  refine ⟨runBatch_total P p, fun q h => ?_⟩
  have hdec := runBatch_dec h
  refine ⟨(runBatch_ok h).2.2, (congrArg Dec.batch hdec :), (congrArg Dec.inBuf hdec :),
    (congrArg Dec.cursor hdec :), (congrArg Dec.state hdec :), fun f hf => ⟨?_, ?_⟩⟩
  · rw [hdec]
    simp only [noteEvents, chunkEvents, chunkBytes, decodedBatch, List.flatMap_map, List.map_map, Function.comp_def,
      decodeEntry_of_first P hf]
  · intro hw before b after v i x hb hv hx a hlater
    exact runBatch_get h hw hb (decodeEntry_of_first P hf b ▸ hv) hx hlater

end Sys2Proof.Machine

/-! ## The commands of DEC (spec/44_decoder.md R300, R301, R303, R305, R330 to R335) -/

namespace Sys2Proof.Machine

/-! ### DEC.INIT and DEC.FEED -/

/-- Settles O39: the one way DEC.INIT ends in IDLE. -/
theorem decInitOpensDecode : Obligations.DecInitOpensDecode := by
  intro s hs
  rcases decInit_shape s with ⟨hne, -⟩ | ⟨-, hq⟩
  · exact absurd hs hne
  · exact hq

/-- DEC takes input in AWAIT_FIRST and in STREAMING (R303, R364). -/
theorem decRunning_iff (d : Dec) : decRunning d = true ↔ d.state = .awaitFirst ∨ d.state = .streaming := by
  simp [decRunning]

/-- Settles O40: with less than a frame buffered the parse loop ends at once. -/
theorem decFeedBuffersShortInput : Obligations.DecFeedBuffersShortInput := by
  intro s hs hl
  rw [decFeed_run ((decRunning_iff _).mpr hs), parseLoop_short]
  · rfl
  · rw [feedPart, List.length_append]; exact hl

/-- DEC.FEED in STREAMING: the loop ends, and DEC is still in STREAMING (R303, R313). -/
theorem decFeed_streaming {s : State} (hs : s.dec.state = .streaming) (hd : DecInv s.dec s.input) :
    ∃ q, parseLoop Config.params false (feedPart s.ops.data (decPart s)) = .ok () q ∧ q.dec.state = .streaming := by
  rcases decFeed_running Config.params hd ((decRunning_iff _).mpr (.inr hs)) with ⟨q, hq, -, hkeep, -⟩ | ⟨_, hawait, -⟩
  · refine ⟨q, hq, ?_⟩
    rcases hkeep.state with hst | ⟨hawait, -⟩
    · exact hst.trans hs
    · cases hs.symm.trans hawait
  · cases hs.symm.trans hawait

/-- Settles O41: the command is the parse loop (`decFeed_run`), and in STREAMING the loop ends (`decFeed_streaming`). -/
theorem decFeedInStreamingAnswersOk : Obligations.DecFeedInStreamingAnswersOk := by
  intro s run
  refine ⟨fun hs => ⟨fun q hq => ?_, fun c q hq => ?_⟩, fun hs hd => ?_⟩
  · rw [decFeed_run ((decRunning_iff _).mpr hs), show parseLoop _ _ _ = _ from hq]; rfl
  · rw [decFeed_run ((decRunning_iff _).mpr hs), show parseLoop _ _ _ = _ from hq]; rfl
  · obtain ⟨q, hq, hst⟩ := decFeed_streaming hs hd
    refine ⟨⟨q, hq⟩, completeStatus .ok (setDecPart q (takeInput s.ops.data s)), ?_, rfl, hst, rfl, rfl, rfl⟩
    rw [decFeed_run ((decRunning_iff _).mpr (.inr hs)), hq]; rfl

/-! ### The frame at offset 0, at the command (R305, R313, R330) -/

section
variable {P : Params} {p : DecPart}

/-- A frame at offset 0 that fails a check of R305 stops the parse loop, with DEC as it was. -/
theorem parseLoop_fails {final : Bool} (hs : p.dec.state = .awaitFirst) (hl : 4096 ≤ p.dec.inBuf.length) {c : DecFatal}
    (hf : FirstFrameFails P (p.dec.inBuf.take 4096) p.dec.password c) : parseLoop P final p = .stop (.fatal c) p := by
  rw [parseLoop_frame P final hl, parseTurn_fails hs hf, run_bind_stop]

/-- DEC.FINAL's procedure in AWAIT_FIRST with less than a frame buffered is NO_FIRST_HEADER (R330, R336). -/
theorem finishDecode_noFrame (hs : p.dec.state = .awaitFirst) (hl : p.dec.inBuf.length < 4096) :
    finishDecode P p = .stop (.fatal .noFirstHeader) p := by
  rw [finishDecode, parseLoop_short P true hl, run_bind_ok]
  exact if_pos hs

end

/-- Settles O42: the turn is by AcceptFirst (`parseTurn_refused`, `parseTurn_passes`); at both commands the loop stops
at its first turn, or DEC.FINAL finds no frame. -/
theorem firstFrameChecks : Obligations.FirstFrameChecks := by
  refine ⟨fun P final p hs => ?_, fun s hs => ⟨fun hl c hf => ?_, fun c hc => ?_⟩⟩
  · cases hv : parseFrame P (p.dec.inBuf.take 4096) with
    | first h =>
      have refused : ∀ c, acceptFirst P (.first h) p.dec = .error c → parseTurn P final p = .stop (.fatal c) p :=
        fun c ha => parseTurn_refused hs (hv ▸ ha)
      refine ⟨fun hver => refused _ (acceptFirst_badVersion hver), fun hver he => ?_,
        fun hver he hp => refused _ (acceptFirst_refused hver (unwrapKey_badPassword he hp)),
        fun hver he hp => ⟨fun k hk => ?_, fun hk => refused _ (acceptFirst_refused hver (unwrapKey_fail he hp hk))⟩⟩
      · rw [parseTurn_passes hs hv hver (unwrapKey_plain P _ he), he]; rfl
      · rw [parseTurn_passes hs hv hver (unwrapKey_ok he hp hk), he]; rfl
    | _ => exact parseTurn_refused hs (hv ▸ rfl)
  · rw [decFeed_run ((decRunning_iff _).mpr (.inl hs)), parseLoop_fails (c := c)]
    · rfl
    · exact hs
    · rw [feedPart, List.length_append]; exact hl
    · exact hf
  · have hstop : finishDecode Config.params (decPart s) = .stop (.fatal c) (decPart s) := by
      rcases hc with ⟨hl, hf⟩ | ⟨hl, rfl⟩
      · rw [finishDecode, parseLoop_fails (p := decPart s) hs hl hf, run_bind_stop]
      · exact finishDecode_noFrame hs hl
    rw [decFinal_run ((decRunning_iff _).mpr (.inl hs)), hstop]
    rfl

/-! ### DEC.FINAL -/

/-- DEC.FINAL in STREAMING answers with nothing left in the buffer and the batch: the decode is finished with a
FinalHeader, the one recorded before if there was one, or it is TRUNCATED (R330, R334, R335). -/
theorem decFinal_streaming {s : State} (hs : s.dec.state = .streaming) (hd : DecInv s.dec s.input) :
    ∃ t, exec .decFinal s = .next t ∧ t.dec.batch = [] ∧ t.dec.inBuf = [] ∧
      ((∃ f, t.dec.final = some f ∧ t.dec.state = .finalized ∧ t.dec.fatal = s.dec.fatal ∧
          f.totalSourceSize.toInt ≤ t.dec.outLen ∧ t.rsp = some ⟨.ok, 0, [], 0, none⟩) ∨
        (t.dec.final = none ∧ t.dec.state = .failed ∧ t.dec.fatal = some .truncated ∧
          t.rsp = some ⟨.fatal, 0, [], 0, none⟩)) ∧
      (s.dec.final.isSome → t.dec.final = s.dec.final) := by
  rcases decFinal_running Config.params hd ((decRunning_iff _).mpr (.inr hs)) with
    ⟨hawait, -⟩ | ⟨q, ev, n, m, -, -, hloop, hkeep, -, -, -, e⟩
  · cases hs.symm.trans hawait
  rcases closeDecode_cases Config.params ⟨{ noteEvents ev n q.dec with inBuf := [], batch := [] }, m⟩ hloop.outLen_bound
    with ⟨hf, hc⟩ | ⟨f, o, ev', hf, ho, -, hc⟩
  · exact ⟨_, e.trans (congrArg (decEnd · s) hc), rfl, rfl, .inr ⟨hf, rfl, rfl, rfl⟩, hkeep.final⟩
  · have hsize : f.totalSourceSize.toInt ≤ o := by
      rw [ho]
      split <;> omega
    exact ⟨_, e.trans (congrArg (decEnd · s) hc), rfl, rfl, .inl ⟨f, hf, rfl, hkeep.fatal, hsize, rfl⟩, hkeep.final⟩

/-- Settles O51: the command is its procedure (`decFinal_run`), and in STREAMING it ends as `decFinal_streaming`
says. -/
theorem decFinalEndsDecode : Obligations.DecFinalEndsDecode := by
  intro s
  refine ⟨fun hs => ⟨fun q hq => ?_, fun c q hq => ?_⟩, decFinal_streaming⟩ <;>
    rw [decFinal_run ((decRunning_iff _).mpr hs), hq] <;> rfl

/-- Soft events that are all errors count as errors, one each (R413, R414). -/
theorem noteEvents_errors {ev : List SoftEvent} (h : ∀ e ∈ ev, severity e.cause = .error) (d : Dec) :
    noteEvents ev 0 d = { d with errors := d.errors + ev.length, trace := d.trace ++ ev } := by
  have herr : countSeverity .error ev = ev.length :=
    List.countP_eq_length.mpr fun e he => beq_iff_eq.mpr (h e he)
  have hwarn : countSeverity .warning ev = 0 :=
    List.countP_eq_zero.mpr fun e he => by rw [h e he]; decide
  simp only [noteEvents, herr, hwarn, Nat.add_zero]

/-- The one event of a check that does not hold is of its cause's severity. -/
theorem severity_of_mem_ite {holds : Prop} [Decidable holds] {cause : SoftCause} {o : Nat} {sev : Severity}
    (h : severity cause = sev) :
    ∀ e ∈ (if holds then [] else [⟨cause, o⟩] : List SoftEvent), severity e.cause = sev := by
  split
  · exact fun _ he => absurd he List.not_mem_nil
  · exact fun _ he => List.mem_singleton.mp he ▸ h

/-- DEC.FINAL's procedure with less than a frame buffered and no pending chunk drops the tail and ends the decode (R330,
R332). -/
theorem finishDecode_drained (P : Params) {p : DecPart} (hs : p.dec.state = .streaming) (hb : p.dec.batch = [])
    (hl : p.dec.inBuf.length < 4096) : finishDecode P p = closeDecode P { p with dec := dropTail p.dec } := by
  rw [finishDecode, parseLoop_short P true hl, run_bind_ok, drainDecode, if_neg (by rw [hs]; decide)]
  exact if_pos (by rw [dropTail_batch, hb]; rfl)

/-- Settles O52: what is left to do is to drop the tail (`dropTail_eq`) and to end the decode (`closeDecode_cases`),
each with at most one event, an error. -/
theorem finalHashIsAnError : Obligations.FinalHashIsAnError := by
  intro s f hs hb hl hf hlen n tail hash
  have htail : ∀ e ∈ tail, severity e.cause = .error := severity_of_mem_ite rfl
  have hhash : ∀ e ∈ hash, severity e.cause = .error := severity_of_mem_ite rfl
  have hend : finishDecode Config.params (decPart s) = .ok ()
      ⟨{ noteEvents hash 0 (noteEvents tail 0 s.dec) with inBuf := [], outLen := n, state := .finalized }, s.sink⟩ := by
    obtain ⟨_, hdrop, rfl⟩ := dropTail_eq s.dec
    rw [finishDecode_drained Config.params (p := decPart s) hs hb hl, show dropTail (decPart s).dec = _ from hdrop]
    rcases closeDecode_cases Config.params ⟨{ noteEvents tail 0 s.dec with inBuf := [] }, s.sink⟩ hlen with
      ⟨hnone, -⟩ | ⟨f', _, _, hf', rfl, rfl, hc⟩
    · cases hf.symm.trans hnone
    · cases hf.symm.trans hf'
      exact hc
  rw [decFinal_run ((decRunning_iff _).mpr (.inr hs)), hend, noteEvents_errors htail, noteEvents_errors hhash]
  rfl

/-! ### The life cycle (R301) -/

/-- Settles O55: by `exec_cases`. DEC.FEED and DEC.FINAL by what they do in AWAIT_FIRST and in STREAMING; every other
command leaves DEC's state, but for DEC.INIT and the CTRL write that resets it. -/
theorem decLifeCycle : Obligations.DecLifeCycle := by
  intro i s t hd h
  have other : i ≠ .decInit → resetsDec s i = false → i ≠ .decFeed → i ≠ .decFinal → t.dec.state = s.dec.state := by
    intro hinit hreset hfeed hfinal
    rcases exec_dec_eq_or_running h hinit hreset with e | ⟨hi | hi, -⟩
    · rw [e]
    · exact absurd hi hfeed
    · exact absurd hi hfinal
  cases exec_cases h with
  | answers _ q ht => rcases ht with rfl | rfl <;> exact .inl rfl
  | csrWr c hc ht =>
    cases hr : resetsDec s (.csrWr (csrAddress c)) with
    | false => exact .inl (other nofun hr nofun nofun)
    | true =>
      subst ht
      rcases writeCsr_dec Config.params c s.ops.value s with he | he
      · exact .inl (congrArg Dec.state he)
      · exact .inr (.inr (.inr (.inr (.inr (.inr ⟨rfl, congrArg Dec.state he⟩)))))
  | encInit _ _ _ => exact .inl (other nofun rfl nofun nofun)
  | encWrite _ _ _ => exact .inl (other nofun rfl nofun nofun)
  | encFinal _ _ => exact .inl (other nofun rfl nofun nofun)
  | decInit hs ht => subst ht; exact .inr (.inl ⟨rfl, hs, rfl⟩)
  | decFeed hr ht =>
    rcases decFeed_running Config.params hd hr with ⟨q, -, -, hkeep, -, e⟩ | ⟨c, hs, e⟩
    · obtain rfl := next_inj (ht.symm.trans e)
      rcases hkeep.state with hst | ⟨hs, hst⟩
      · exact .inl hst
      · exact .inr (.inr (.inl ⟨rfl, hs, .inl hst⟩))
    · obtain rfl := next_inj (ht.symm.trans e)
      exact .inr (.inr (.inl ⟨rfl, hs, .inr rfl⟩))
  | decFinal hr ht =>
    rcases (decRunning_iff _).mp hr with hs | hs
    · obtain ⟨-, hfinal⟩ := firstFrameChecks.2 s hs
      obtain rfl := next_inj (h.symm.trans (hfinal .noFirstHeader (.inr ⟨hd.await_short hs, rfl⟩)))
      exact .inr (.inr (.inr (.inl ⟨rfl, hs, rfl, rfl⟩)))
    · obtain ⟨u, e, -, -, hend, -⟩ := decFinal_streaming hs hd
      obtain rfl := next_inj (h.symm.trans e)
      rcases hend with ⟨f, hf, hst, -⟩ | ⟨hf, hst, hfatal, -⟩
      · exact .inr (.inr (.inr (.inr (.inl ⟨rfl, hs, hst, Option.isSome_iff_exists.mpr ⟨f, hf⟩⟩))))
      · exact .inr (.inr (.inr (.inr (.inr (.inl ⟨rfl, hs, hst, hfatal, hf⟩)))))

end Sys2Proof.Machine

/-! ## The round trip (spec/44_decoder.md R339, R340)

The encode procedures leave an archive as a list of chunks (`Trace`); the parse loop follows it frame by frame
(`Follows`). What is between them: the archive's bytes as a whole, the EoF frame and the FinalHeader frames, and the
pieces it is fed in. -/

namespace Sys2Proof.Machine

/-! ### The pieces an archive is fed in (R303) -/

/-- Feeding no bytes changes nothing. -/
theorem feedPart_nil (p : DecPart) : feedPart [] p = p := by
  rw [feedPart, List.append_nil]

/-- Feeding two strings one after the other is feeding them joined. -/
theorem feedPart_append (a b : Bytes) (p : DecPart) : feedPart (a ++ b) p = feedPart b (feedPart a p) := by
  simp only [feedPart, List.append_assoc]

/-- Where a parse loop returned there is nothing more to parse (R304). -/
theorem parseLoop_idempotent {P : Params} {p q : DecPart} (h : parseLoop P false p = .ok () q) :
    parseLoop P false q = .ok () q := by
  have hsame := inputSplitIrrelevant P p q [] h
  rw [feedPart_nil, feedPart_nil] at hsame
  exact hsame.symm.trans h

/-- An archive that parses whole parses the same in any pieces: the loop over the first piece returns, since one that
stops would stop with the rest behind it, and the rest does not see the split (R303). -/
theorem feedAll_of_parseLoop {P : Params} {q : DecPart} (pieces : List Bytes) {p : DecPart}
    (hp : parseLoop P false p = .ok () p) (h : parseLoop P false (feedPart pieces.flatten p) = .ok () q) :
    feedAll P pieces p = .ok () q := by
  induction pieces generalizing p with
  | nil =>
    rw [List.flatten_nil, feedPart_nil, hp] at h
    exact h
  | cons b pieces ih =>
    rw [List.flatten_cons, feedPart_append] at h
    cases hb : parseLoop P false (feedPart b p) with
    | stop e u =>
      rw [parseLoop_feed_stop pieces.flatten _ _ u (Nat.lt_succ_self _) hb] at h
      cases h
    | ok _ u =>
      rw [feedAll, hb, run_bind_ok]
      exact ih (parseLoop_idempotent hb) ((inputSplitIrrelevant P _ u _ hb).symm.trans h)

/-! ### The archive that ENC.INIT, ENC.WRITE and ENC.FINAL make (R251, R256, R277) -/

/-- The parts of an archive: its chunks, the headers that close it, and the frames around the chunks (R259, R277). -/
structure Archive where
  items : List Item
  eof : BlockHeader
  fin : FinalHeader
  firstFrame : Bytes
  eofFrame : Bytes
  finalFrame : Bytes

/-- The bytes of an archive: the FirstHeader frame twice, what its chunks put out, the EoF frame, and the FinalHeader
frame twice (R259, R277). -/
def Archive.bytes (a : Archive) : Bytes :=
  a.firstFrame ++ a.firstFrame ++ (itemsOut a.items ++ (a.eofFrame ++ (a.finalFrame ++ a.finalFrame)))

/-- The archive is one of the source `X`, made with these options, key and FirstHeader. -/
structure Archive.Of (P : Params) (cfg : EncCfg) (key : Option Key) (first : FirstHeader) (X : Bytes) (a : Archive) :
    Prop where
  made : ItemsMade P cfg key 0 a.items
  src : itemsSrc a.items = X
  firstFrame : serFrame P .first first = some a.firstFrame
  eofFrame : serFrame P .block a.eof = some a.eofFrame
  finalFrame : serFrame P .final a.fin = some a.finalFrame
  eof_isEoF : a.eof.isEoF = true
  eof_sane : sane a.eof = true
  eof_size : a.eof.destDataSize.toInt = 0
  eof_length : a.eof.srcDataLength.toInt = 0
  eof_position : a.eof.srcDataPosition.toInt = X.length
  total : a.fin.totalSourceSize.toInt = X.length
  hash : a.fin.sourceSha1 = P.sha1 X

/-- ENC between the last Flush of an archive of `X` and its closing frames (R258, R277). -/
structure Flushed (P : Params) (X : Bytes) (p : EncPart) : Prop where
  trace : Trace P p
  firstEmitted : p.enc.firstEmitted = true
  inBuf : p.enc.inBuf = []
  srcLog : p.enc.srcLog = X
  srcPos : p.enc.srcPos.toInt = X.length
  nextIdx : 0 ≤ p.enc.nextIdx.toInt

section
variable {P : Params} {cfg : EncCfg} {pw X : Bytes} {p₀ p q : EncPart}

/-- No chunk is made yet when ENC.INIT has opened the archive (R251). -/
theorem openArchive_trace (P : Params) (cfg : EncCfg) (pw : Bytes) (p : EncPart) :
    Trace P (openArchive P cfg pw p) where
  made := ⟨[], trivial, rfl, fun _ => ⟨rfl, rfl⟩, nofun⟩

/-- Accepting the source and flushing what is left of it makes chunks of all of it (R256, R258). -/
theorem flush_flushedAll (hP : P.Lawful) (hpar : 1 ≤ cfg.par) (hX : X.length < 2 ^ 63)
    (hacc : acceptBytes P X (openArchive P cfg pw p₀) = .ok () p) (hf : flush P p = .ok () q) :
    Flushed P X q ∧ ArchiveKeeps (openArchive P cfg pw p₀) q := by
  have hinv := openArchive_inv hP hpar pw p₀
  have hopen := encLoop_of_inv hinv rfl
  have hbound : (openArchive P cfg pw p₀).enc.srcLog.length + X.length ≤ maxSource := by
    rw [show (openArchive P cfg pw p₀).enc.srcLog = [] from rfl, List.length_nil, maxSource]
    omega
  obtain ⟨hloop, -, hkeep⟩ := (acceptBytes_loop hP X _ hopen (hinv.active_buffer rfl) hbound).1 p hacc
  obtain ⟨htrace, hlog⟩ := acceptBytes_trace hP X _ p hopen (hinv.active_buffer rfl) hbound
    (openArchive_trace P cfg pw p₀) hacc
  have hlog : p.enc.srcLog = X := hlog
  obtain ⟨htrace', hemitted⟩ := flush_trace hP hloop htrace hf
  obtain ⟨hkeep', hbuf, hlog', hpos, hidx, -, -⟩ := flush_ok hP hloop hf
  rw [hlog] at hlog' hpos
  exact ⟨⟨htrace', hemitted, hbuf, hlog', hpos, hidx ▸ Int.natCast_nonneg _⟩, hkeep.trans hkeep'⟩

/-- The EoF header of an archive of `X` is sane and stands at the end of the source (R277). -/
theorem Flushed.eof_sane (h : Flushed P X p) (hX : X.length < 2 ^ 63) (t : I64) :
    sane (eofHeader P p.enc t) = true := by
  have hidx := h.nextIdx
  have hpos := h.srcPos
  have hzero : (0 : I64).toInt = 0 := rfl
  simp only [sane_iff, eofHeader, hpos, hzero]
  omega

/-- The closing frames make the archive whole (R277, R279). -/
theorem Flushed.closeArchive_of (h : Flushed P X p) (hX : X.length < 2 ^ 63) {first : FirstHeader} {fin : FinalHeader}
    (hfirst : p.enc.first = some first) (hclose : closeArchive P p = .ok fin q) :
    ∃ a : Archive, a.Of P p.enc.cfg p.enc.key first X ∧ q.enc.outLog = a.bytes := by
  obtain ⟨items, hmade, hsrc, -, hlog⟩ := h.trace.made
  obtain ⟨first', ff, hfirst', hff, hlog⟩ := hlog h.firstEmitted
  cases hfirst.symm.trans hfirst'
  rcases closeArchive_cases P p with hc | ⟨_, fe, fz, hfe, hf, hfz, hc⟩
  · cases hclose.symm.trans hc
  cases hfirst.symm.trans hf
  cases hclose.symm.trans hc
  rw [h.inBuf, List.append_nil, h.srcLog] at hsrc
  refine ⟨⟨items, _, _, ff, fe, fz⟩, ⟨hmade, hsrc, hff, hfe, hfz, rfl, h.eof_sane hX _, rfl, rfl, h.srcPos, h.srcPos,
    congrArg P.sha1 h.srcLog⟩, ?_⟩
  simp only [hlog, Archive.bytes, List.append_assoc]

/-- What DEC reads of the FirstHeader that ENC.INIT builds: the version, the options, and under the same password the
key that encrypts the chunks (P1, P2, R251, R305). -/
theorem openArchive_first (hP : P.Lawful) {first : FirstHeader} (h : (openArchive P cfg pw p).enc.first = some first) :
    first.version = formatVersion ∧ first.encrypted = cfg.encrypt ∧ first.compressed = cfg.compress ∧
      ∃ key, unwrapKey P first pw = .ok key ∧ (cfg.encrypt = true → key = (openArchive P cfg pw p).enc.key) := by
  cases h
  refine ⟨rfl, rfl, rfl, ?_⟩
  cases he : cfg.encrypt with
  | false => exact ⟨none, unwrapKey_plain P pw he, nofun⟩
  | true =>
    refine ⟨some (randKey P p.randDraws), unwrapKey_ok he ?_ ?_, fun _ => rfl⟩
    · simp only [buildFirst, if_true, hP.pwVerify_pwToken]
    · simp only [buildFirst, if_true, hP.pwUnseal_pwSeal]

end

/-! ### The archive parsed -/

section
variable {P : Params} {cfg : EncCfg} {key key' : Option Key} {X pw : Bytes} {first : FirstHeader} {a : Archive}
  {p : DecPart}

/-- The frames that close an archive: the EoF frame writes nothing, and the FinalHeader is recorded once (R307, R308,
R321). -/
theorem follows_closing (hP : P.Lawful) (ha : a.Of P cfg key first X) (hX : X.length < 2 ^ 63) {e c : Bool}
    (hp : Follows P e c key' X X.length p) (hin : p.dec.inBuf = a.eofFrame ++ (a.finalFrame ++ a.finalFrame))
    (hfin : p.dec.final = none) :
    ∃ q, parseLoop P false p = .ok () q ∧ Follows P e c key' X X.length q ∧ q.dec.inBuf = [] ∧
      q.dec.final = some a.fin := by
  have hfe := serFrame_length hP ha.eofFrame
  have hfz := serFrame_length hP ha.finalFrame
  have hparse : parseFrame P a.finalFrame = .final a.fin := frameRoundTrip P .final a.fin _ hP ha.finalFrame
  obtain ⟨q₁, ht₁, hq₁, hin₁, hfin₁⟩ := follows_block (b := []) (d := [])
    (rest := a.finalFrame ++ a.finalFrame) hp (by rw [hin, List.append_nil]) hfe
    (frameRoundTrip P .block a.eof _ hP ha.eofFrame) ha.eof_sane ha.eof_size ha.eof_position ha.eof_length le_rfl nofun
    (.inl ⟨rfl, decodeChunk_eof P e c key' [] ha.eof_isEoF⟩) hX
  obtain ⟨q₂, ht₂, hq₂, hin₂, hfin₂⟩ := follows_final hq₁ hin₁ hfz hparse (.inl (hfin₁.trans hfin))
  obtain ⟨q₃, ht₃, hq₃, hin₃, hfin₃⟩ := follows_final (rest := []) hq₂ (by rw [hin₂, List.append_nil]) hfz hparse
    (.inr hfin₂)
  refine ⟨q₃, ?_, hq₃, hin₃, hfin₃⟩
  rw [parseLoop_turn _ ht₁, parseLoop_turn _ ht₂, parseLoop_turn _ ht₃, parseLoop_short P false (by rw [hin₃]; decide)]
  · rw [hin₂, hfz]
  · rw [hin₁, List.length_append, hfz]; exact Nat.le_add_right _ _
  · rw [hin, List.length_append, hfe]; exact Nat.le_add_right _ _

/-- An archive of `X` fed whole to an opened DEC with its password parses with no event, and all of `X` is decoded. -/
theorem archive_parses (hP : P.Lawful) {par : Nat} (hpar : 1 ≤ par) (ha : a.Of P cfg key first X)
    (hX : X.length < 2 ^ 63) (hlen : a.bytes.length < 2 ^ 63) (hver : first.version = formatVersion)
    (henc : first.encrypted = cfg.encrypt) (hcomp : first.compressed = cfg.compress)
    (hunwrap : unwrapKey P first pw = .ok key') (hkey : cfg.encrypt = true → key' = key) :
    ∃ q, parseLoop P false (feedPart a.bytes ⟨openDecode par pw, []⟩) = .ok () q ∧
      Follows P cfg.encrypt cfg.compress key' X X.length q ∧ q.dec.inBuf = [] ∧ q.dec.final = some a.fin := by
  have hframe : ∀ (k : Kind) (h : k.Record) (f : Bytes), serFrame P k h = some f → parseFrame P f = verdictOf k h :=
    fun k h f => frameRoundTrip P k h f hP
  obtain ⟨q₁, hrun₁, hq₁, hin₁, hfin₁⟩ := follows_start (X := X)
    (rest := itemsOut a.items ++ (a.eofFrame ++ (a.finalFrame ++ a.finalFrame))) hP hframe hpar ha.firstFrame hver
    hunwrap
  rw [henc, hcomp] at hq₁
  have hout : (itemsOut a.items).length < 2 ^ 63 := by
    simp only [Archive.bytes, List.length_append] at hlen
    omega
  obtain ⟨q₂, hrun₂, hq₂, hin₂, hfin₂⟩ := follows_items hP decodeUndoesTransform hframe hX hkey a.items 0 q₁ _ hq₁ hin₁
    hout ha.made ha.src.symm (Nat.zero_le _)
  obtain ⟨q₃, hrun₃, hq₃⟩ := follows_closing hP ha hX hq₂ hin₂ (hfin₂.trans hfin₁)
  exact ⟨q₃, hrun₁.trans (hrun₂.trans hrun₃), hq₃⟩

end

/-- Settles O53: the encode procedures leave an archive of `X` (`flush_flushedAll`, `Flushed.closeArchive_of`), which
fed whole is parsed with no event (`archive_parses`), fed in pieces the same (`feedAll_of_parseLoop`); the end of the
decode is `follows_end`. -/
theorem roundTrip : Obligations.RoundTrip := by
  intro P cfg pw X p₀ p₁ p₂ fin par pieces hP hcpar hpar hX hlog hacc hfinish hpieces
  obtain ⟨_, u, hflush, hclose⟩ := run_bind_eq_ok.mp hfinish
  obtain ⟨hflushed, hkeep⟩ := flush_flushedAll hP hcpar hX hacc hflush
  obtain ⟨first, hfirst⟩ : ∃ first, (openArchive P cfg pw p₀).enc.first = some first := ⟨_, rfl⟩
  obtain ⟨a, ha, hbytes⟩ := hflushed.closeArchive_of hX (hkeep.first.trans hfirst) hclose
  rw [hkeep.cfg, hkeep.key] at ha
  obtain ⟨hver, henc, hcomp, key, hunwrap, hkey⟩ := openArchive_first hP hfirst
  rw [hbytes] at hlog hpieces
  obtain ⟨q, hparse, hq, hin, hfin⟩ := archive_parses hP hpar ha hX hlog hver henc hcomp hunwrap hkey
  obtain ⟨r, hend⟩ := follows_end hX hq hin hfin ha.total ha.hash
  exact ⟨q, r, feedAll_of_parseLoop pieces (parseLoop_short P false (Nat.succ_pos _)) (hpieces ▸ hparse), hend⟩

end Sys2Proof.Machine

/-! ## How a command answers (spec/45_control.md R355, R356, R364)

`exec_notAllowed` says what a command answers in a unit state that refuses it, and `exec_answerCase` how every other
answer is related to the state before: the statements about responses and CMD_STATUS are read off these two. -/

namespace Sys2Proof.Machine

/-- Settles O6: the step takes the command from the port and runs what its word decodes to. -/
theorem stepRunsDecodedCommand : Obligations.StepRunsDecodedCommand := by
  intro s c rest i hs hc
  have hstep : step s = exec i (acceptCommand c rest s) := by simp only [step, hs, hc]
  exact hstep

/-- Settles O12: NOP only answers. -/
theorem nopOnlyAnswers : Obligations.NopOnlyAnswers := fun _ => rfl

/-- A command that its unit's state does not allow is refused with BAD_STATE (R364). -/
theorem exec_notAllowed {i : Instr} {s : State} (hi : commandAllowed s i = false) :
    exec i s = .next (completeStatus .badState s) := by
  cases i with
  | encInit =>
    have hs : s.enc.state ≠ .idle := beq_eq_false_iff_ne.mp hi
    exact congrArg Host.Outcome.next (if_pos hs)
  | encWrite =>
    have hs : s.enc.state ≠ .active := beq_eq_false_iff_ne.mp hi
    exact congrArg Host.Outcome.next (if_pos hs)
  | encFinal =>
    obtain ⟨hactive, hfinal⟩ := Bool.or_eq_false_iff.mp hi
    rcases encFinal_shape Config.params s with ⟨hs, -⟩ | ⟨hs, -⟩ | ⟨-, hq⟩
    · exact absurd hs (beq_eq_false_iff_ne.mp hfinal)
    · exact absurd hs (beq_eq_false_iff_ne.mp hactive)
    · exact congrArg Host.Outcome.next hq
  | decInit =>
    have hs : s.dec.state ≠ .idle := beq_eq_false_iff_ne.mp hi
    exact if_pos hs
  | decFeed =>
    have hr : ¬ decRunning s.dec = true := Bool.eq_false_iff.mp hi
    exact if_pos hr
  | decFinal =>
    obtain ⟨hr, hfinal⟩ := Bool.or_eq_false_iff.mp hi
    exact (if_neg (beq_eq_false_iff_ne.mp hfinal)).trans (if_pos (Bool.eq_false_iff.mp hr))
  | _ => cases hi

/-- How the next state of a command that answers is related to its response: the command only returns it (NOP and
CSR.RD), or returns it and stores its status with nothing else changed, or it has run and ends with OK or FATAL. A
command that has not run answers BAD_STATE only where its unit's state does not allow it. -/
inductive AnswerCase (s t : State) (i : Instr) : Prop
  | returns (q : Response) (hi : leavesCmdStatus i = true) (hq : q.status ≠ .badState) (ht : t = answer q s)
  | answers (q : Response) (hi : leavesCmdStatus i = false) (hq : q.status = .badState → commandAllowed s i = false)
      (ht : t = complete q s)
  | runs (q : Response) (u : State) (hi : leavesCmdStatus i = false) (hq : q.status = .ok ∨ q.status = .fatal)
      (ht : t = complete q u)

/-- A procedure of ENC ends with the response of an OK command, or with FATAL (R410). -/
theorem encEnd_answerCase {α : Type} {i : Instr} (hi : leavesCmdStatus i = false) (r : Run EncFatal EncPart α)
    {f : α → Response} (hf : ∀ a, (f a).status = .ok) (s : State) : AnswerCase s (encEnd r f s) i := by
  obtain ⟨q, p, ht, ⟨a, -, rfl⟩ | ⟨_, _, -, rfl, -⟩⟩ := encEnd_shape r f s
  · exact .runs _ _ hi (.inl (hf a)) ht
  · exact .runs _ _ hi (.inr rfl) ht

/-- A procedure of DEC that answers ends with OK, or with FATAL (R410). -/
theorem decEnd_answerCase {i : Instr} (hi : leavesCmdStatus i = false) {r : Run DecStop DecPart Unit} {s u t : State}
    (h : decEnd r u = .next t) : AnswerCase s t i := by
  obtain ⟨p, ht, -⟩ := decEnd_next h
  refine .runs _ _ hi ?_ ht
  cases r with
  | ok => exact .inl rfl
  | stop => exact .inr rfl

/-- A response that is OK, BAD_OPERAND or SER_OVERFLOW is not BAD_STATE (R400). -/
theorem status_ne_badState {q : Response}
    (h : q.status = .ok ∨ q = statusResponse .badOperand ∨ q = statusResponse .serOverflow) :
    q.status ≠ .badState := by
  rcases h with h | rfl | rfl
  · rw [h]; decide
  · decide
  · decide

/-- A command that answers does so in one of the ways of `AnswerCase`. -/
theorem exec_answerCase {i : Instr} {s t : State} (h : exec i s = .next t) : AnswerCase s t i := by
  have answered : ∀ {u : State} {q : Response},
      exec i s = .next u → leavesCmdStatus i = false → u = complete q s →
      (q.status = .ok ∨ q = statusResponse .badOperand ∨ q = statusResponse .serOverflow) → AnswerCase s t i :=
    fun hu hi hq hst => .answers _ hi (fun hb => absurd hb (status_ne_badState hst))
      ((next_inj (h.symm.trans hu)).trans hq)
  cases i with
  | nop => exact .returns _ rfl (by decide) (next_inj h.symm)
  | csrRd a =>
    obtain ⟨q, hq, hst⟩ := csrRd_shape a s
    exact .returns q rfl (status_ne_badState (hst.imp_right .inl)) (next_inj (h.symm.trans hq))
  | csrWr a =>
    rcases csrWr_shape Config.params a s with hq | ⟨c, -, -, hq⟩
    · exact answered rfl rfl hq (.inr (.inl rfl))
    · exact .runs _ _ rfl (.inl rfl) ((next_inj h).symm.trans hq)
  | scEnc => obtain ⟨q, hq, hst⟩ := scEnc_shape Config.params s; exact answered rfl rfl hq (hst.imp_right .inl)
  | scDec => obtain ⟨q, hq, hst⟩ := scDec_shape Config.params s; exact answered rfl rfl hq (hst.imp_right .inl)
  | frSerFirst => obtain ⟨q, hq, hst⟩ := frSer_shape Config.params .first s; exact answered rfl rfl hq hst
  | frSerBlock => obtain ⟨q, hq, hst⟩ := frSer_shape Config.params .block s; exact answered rfl rfl hq hst
  | frSerFinal => obtain ⟨q, hq, hst⟩ := frSer_shape Config.params .final s; exact answered rfl rfl hq hst
  | frParse => obtain ⟨q, hq, hst⟩ := frParse_shape Config.params s; exact answered rfl rfl hq (hst.imp_right .inl)
  | encInit =>
    rcases encInit_shape Config.params s with ⟨hs, hq⟩ | ⟨-, -, hq⟩ | ⟨-, -, hq⟩
    · exact .answers _ rfl (fun _ => beq_eq_false_iff_ne.mpr hs) ((next_inj h).symm.trans hq)
    · exact answered rfl rfl hq (.inr (.inl rfl))
    · exact .runs _ _ rfl (.inl rfl) ((next_inj h).symm.trans hq)
  | encWrite =>
    rcases encWrite_shape Config.params s with ⟨hs, hq⟩ | ⟨-, -, hq⟩ | ⟨-, -, hq⟩
    · exact .answers _ rfl (fun _ => beq_eq_false_iff_ne.mpr hs) ((next_inj h).symm.trans hq)
    · exact answered rfl rfl hq (.inr (.inl rfl))
    · exact ((next_inj h).symm.trans hq) ▸ encEnd_answerCase rfl _ (fun _ => rfl) s
  | encFinal =>
    rcases encFinal_shape Config.params s with ⟨-, hq⟩ | ⟨-, hq⟩ | ⟨hs, hq⟩
    · exact answered rfl rfl hq (.inl rfl)
    · exact ((next_inj h).symm.trans hq) ▸ encEnd_answerCase rfl _ (fun _ => rfl) s
    · refine .answers _ rfl (fun _ => ?_) ((next_inj h).symm.trans hq)
      rcases hs with hs | hs <;> simp [commandAllowed, hs]
  | decInit =>
    rcases decInit_shape s with ⟨hs, hq⟩ | ⟨-, hq⟩
    · exact .answers _ rfl (fun _ => beq_eq_false_iff_ne.mpr hs) (next_inj (h.symm.trans hq))
    · exact .runs _ _ rfl (.inl rfl) (next_inj (h.symm.trans hq))
  | decFeed =>
    rcases decFeed_shape Config.params s with ⟨hr, hq⟩ | ⟨-, hq⟩
    · exact .answers _ rfl (fun _ => hr) (next_inj (h.symm.trans hq))
    · exact decEnd_answerCase rfl (hq.symm.trans h)
  | decFinal =>
    rcases decFinal_shape Config.params s with ⟨-, hq⟩ | ⟨hs, hr, hq⟩ | ⟨-, -, hq⟩
    · exact answered hq rfl rfl (.inl rfl)
    · exact .answers _ rfl (fun _ => Bool.or_eq_false_iff.mpr ⟨hr, beq_eq_false_iff_ne.mpr hs⟩)
        (next_inj (h.symm.trans hq))
    · exact decEnd_answerCase rfl (hq.symm.trans h)

/-- Settles O7: by `exec_answerCase`. NOP and CSR.RD only return their response; every other command stores its status
with it. -/
theorem cmdStatusFollowsResponse : Obligations.CmdStatusFollowsResponse := by
  intro i s t h
  cases exec_answerCase h with
  | returns q hi _ ht => subst ht; exact ⟨q, rfl, (if_pos hi).symm⟩
  | answers q hi _ ht => subst ht; exact ⟨q, rfl, by rw [hi]; rfl⟩
  | runs q u hi _ ht => subst ht; exact ⟨q, rfl, by rw [hi]; rfl⟩

/-- Settles O8: by `exec_answerCase`. A command that has run ends with OK or FATAL, so one that is refused has only
answered. -/
theorem refusedCommandsChangeNothing : Obligations.RefusedCommandsChangeNothing := by
  intro i s t r h hr hst
  cases exec_answerCase h with
  | returns q hi _ ht =>
    subst ht
    obtain rfl : q = r := Option.some.inj hr
    rw [hi]; rfl
  | answers q hi _ ht =>
    subst ht
    obtain rfl : q = r := Option.some.inj hr
    rw [hi]; rfl
  | runs q u _ hq ht =>
    subst ht
    obtain rfl : q = r := Option.some.inj hr
    rcases hq with hq | hq <;> rw [hq] at hst <;> simp at hst

/-- A command that its unit's state allows does not answer BAD_STATE (R364). -/
theorem exec_allowed_status {i : Instr} {s t : State} {r : Response} (ha : commandAllowed s i = true)
    (h : exec i s = .next t) (hr : t.rsp = some r) : r.status ≠ .badState := by
  cases exec_answerCase h with
  | returns q _ hq ht => subst ht; exact Option.some.inj hr ▸ hq
  | answers q _ hq ht =>
    subst ht
    obtain rfl : q = r := Option.some.inj hr
    exact fun hb => Bool.false_ne_true ((hq hb).symm.trans ha)
  | runs q u _ hq ht =>
    subst ht
    obtain rfl : q = r := Option.some.inj hr
    rcases hq with hq | hq <;> rw [hq] <;> decide

/-- ENC.FINAL in FINALIZED returns the recorded FinalHeader again (R277, R364). -/
theorem exec_encFinal_finalized {s : State} (hs : s.enc.state = .finalized) :
    exec .encFinal s = .next (complete (finalResponse s.enc.final) s) := by
  rcases encFinal_shape Config.params s with ⟨-, hq⟩ | ⟨hs', -⟩ | ⟨hs' | hs', -⟩
  · exact congrArg Host.Outcome.next hq
  all_goals cases hs.symm.trans hs'

/-- Settles O9: the refused commands by `exec_notAllowed`, the allowed ones by `exec_allowed_status`, and the two that
FINALIZED allows. -/
theorem commandStatesEnforced : Obligations.CommandStatesEnforced :=
  ⟨fun _ _ ha => exec_notAllowed ha, fun _ _ _ _ ha h hr => exec_allowed_status ha h hr,
    fun _ hs => exec_encFinal_finalized hs, fun _ hs => if_pos hs⟩

end Sys2Proof.Machine

/-! ## The CSR commands (spec/45_control.md R361, R362)

The two tables of the statements are the CSR file's own reads and writes, by address: each is said once for the address
of a CSR and once for an unmapped one. -/

namespace Sys2Proof.Machine

/-- An unmapped address is none of the 21 of the CSR map (R64). -/
theorem csrAt_none_forall {a : CsrAddr} (h : csrAt a = none) : ∀ c ∈ mappedCsrs, a ≠ csrAddress c :=
  fun c _ => csrAt_none h c

/-- The table of R361 at the address of a CSR is that CSR's value. -/
theorem csrReadTable_address (s : State) (c : Csr) : csrReadTable s (csrAddress c) = some (readCsr s c) := by
  cases c <;> rfl

/-- The table of R361 has no other address. -/
theorem csrReadTable_unmapped (s : State) {a : CsrAddr} (h : csrAt a = none) : csrReadTable s a = none := by
  have hne := csrAt_none_forall h
  simp only [mappedCsrs, List.forall_mem_cons, csrAddress, List.not_mem_nil] at hne
  simp only [csrReadTable, hne, if_false]

/-- The cases of R362 at the address of a CSR: nothing for a read-only one, else the write of that CSR. -/
theorem csrWriteTable_address (P : Params) (v : U64) (s : State) (c : Csr) :
    csrWriteTable P v s (csrAddress c) = if csrAccess c = .ro then none else some (writeCsr P c v s) := by
  cases c with
  | ctrl => rw [writeCsr_ctrl]; rfl
  | _ => rfl

/-- The cases of R362 name no other address. -/
theorem csrWriteTable_unmapped (P : Params) (v : U64) (s : State) {a : CsrAddr} (h : csrAt a = none) :
    csrWriteTable P v s a = none := by
  have hne := csrAt_none_forall h
  simp only [mappedCsrs, List.forall_mem_cons, csrAddress, List.not_mem_nil] at hne
  simp only [csrWriteTable, hne, if_false]

/-- CSR.RD of an unmapped address is refused (R361). -/
theorem execCsrRd_unmapped {a : CsrAddr} (h : csrAt a = none) (s : State) :
    execCsrRd a s = .next (answer (statusResponse .badOperand) s) := by
  simp only [execCsrRd, h]

/-- Settles O13: the address is a CSR's or it is unmapped, and the table follows `readCsr` in both. -/
theorem csrReadReturnsValue : Obligations.CsrReadReturnsValue := by
  intro s a
  cases h : csrAt a with
  | none =>
    rw [csrReadTable_unmapped s h]
    exact execCsrRd_unmapped h s
  | some c =>
    obtain rfl := csrAt_some h
    rw [csrReadTable_address]
    exact execCsrRd_address c s

/-- CSR.WR to an unmapped address is refused (R362). -/
theorem csrWr_unmapped (P : Params) {a : CsrAddr} (h : csrAt a = none) (s : State) :
    csrWr P a s = completeStatus .badOperand s := by
  simp only [csrWr, h]

/-- CSR.WR to the address of a read-only CSR is refused (R362). -/
theorem csrWr_readOnly (P : Params) {c : Csr} (hc : csrAccess c = .ro) (s : State) :
    csrWr P (csrAddress c) s = completeStatus .badOperand s := by
  simp only [csrWr, csrAt_address, if_pos hc]

/-- Settles O14: the address is unmapped, a read-only CSR's, or that of a CSR that may be written, and `csrWr` and the
cases of R362 agree in each. -/
theorem csrWriteStores : Obligations.CsrWriteStores := by
  intro s a
  have hexec : exec (.csrWr a) s = .next (csrWr Config.params a s) := rfl
  rw [hexec]
  cases h : csrAt a with
  | none => rw [csrWr_unmapped _ h, csrWriteTable_unmapped _ _ _ h]; rfl
  | some c =>
    obtain rfl := csrAt_some h
    rw [csrWriteTable_address]
    by_cases hc : csrAccess c = .ro
    · rw [csrWr_readOnly _ hc, if_pos hc]; rfl
    · rw [csrWr_address _ hc, if_neg hc]; rfl

end Sys2Proof.Machine

/-! ## The soft events of one chunk (spec/44_decoder.md R316, R322 to R329; spec/60_exceptions.md R415)

DecodeChunk of a data chunk is said once for each way it can end: three errors in four places, and the chunk as it comes
out. The order of the events and the rule of each follow from these five. -/

namespace Sys2Proof.Machine

/-- What DecodeChunk goes on with after the decryption of R323, if any: none when it failed. -/
def decrypted (P : Params) (e : Bool) (key : Option Key) (h : BlockHeader) (p : Bytes) : Option Bytes :=
  if e then key.bind fun k => tcDecrypt P k h.srcDataPosition p else some p

/-- What DecodeChunk goes on with after the decompression of R325, if any: none when it failed. -/
def decompressed (P : Params) (c : Bool) (content : Bytes) : Option Bytes :=
  if c then P.decompress content else some content

/-- The event of the payload's hash (R322). -/
def destEvents (P : Params) (h : BlockHeader) (p : Bytes) : List SoftCause :=
  if P.sha1 p = h.destSha1 then [] else [.destHashMismatch]

section
variable {P : Params} {e c : Bool} {key : Option Key} {h : BlockHeader} {p d out : Bytes}

/-- With the key there, the decryption gives the plain payload where the length is in TC_DOMAIN (R204). -/
theorem decrypted_eq_some {k : Key} (hkey : e = true → key = some k) (hdom : e = true → P.tcDomain p.length = true) :
    decrypted P e key h p = some (if e then P.tcDec k h.srcDataPosition p else p) := by
  cases e with
  | false => rfl
  | true => simp [decrypted, hkey rfl, tcDecrypt, hdom rfl]

/-- With the key there, the decryption fails where the length is outside TC_DOMAIN (R204, R323). -/
theorem decrypted_eq_none {k : Key} (he : e = true) (hkey : key = some k) (hdom : P.tcDomain p.length = false) :
    decrypted P e key h p = none := by
  simp [decrypted, he, hkey, tcDecrypt, hdom]

/-- What comes out of the decompression, as the two cases of R325. -/
theorem decompressed_eq_some_iff :
    decompressed P c d = some out ↔ if c then P.decompress d = some out else out = d := by
  cases c <;> simp [decompressed, eq_comm]

section
variable (heof : h.isEoF = false) (hz : h.isAllZero = false)
include heof hz

/-- A data chunk whose decryption fails: TRANSFORM_FAIL, written as zeros (R323, R326). -/
theorem decodeChunk_decryptFail (hd : decrypted P e key h p = none) : decodeChunk P e c key h p =
    (some (zeros h.srcDataLength.toInt.toNat), destEvents P h p ++ [.transformFail]) := by
  unfold decrypted at hd
  simp [decodeChunk, heof, hz, hd, destEvents]

/-- A data chunk shorter than its content: PAYLOAD_BOUNDS, written as zeros (R327). -/
theorem decodeChunk_bounds (hd : decrypted P e key h p = some d)
    (hshort : (d.length : Int) < h.destDataSizeWithoutPadding.toInt) : decodeChunk P e c key h p =
      (some (zeros h.srcDataLength.toInt.toNat), destEvents P h p ++ [.payloadBounds]) := by
  unfold decrypted at hd
  simp [decodeChunk, heof, hz, hd, hshort, destEvents]

/-- A data chunk whose content does not decompress: TRANSFORM_FAIL, written as zeros (R326). -/
theorem decodeChunk_decompressFail (hd : decrypted P e key h p = some d)
    (hfits : h.destDataSizeWithoutPadding.toInt ≤ d.length)
    (hout : decompressed P c (d.take h.destDataSizeWithoutPadding.toInt.toNat) = none) : decodeChunk P e c key h p =
      (some (zeros h.srcDataLength.toInt.toNat), destEvents P h p ++ [.transformFail]) := by
  unfold decrypted at hd
  unfold decompressed at hout
  simp only [decodeChunk, heof, hz, hd, not_lt.mpr hfits, hout, destEvents, Bool.false_eq_true, if_false, ne_eq, ite_not]

/-- A data chunk that comes out with another length than srcDataLength: LENGTH_MISMATCH, written as zeros (R329). -/
theorem decodeChunk_badLength (hd : decrypted P e key h p = some d)
    (hfits : h.destDataSizeWithoutPadding.toInt ≤ d.length)
    (hout : decompressed P c (d.take h.destDataSizeWithoutPadding.toInt.toNat) = some out)
    (hlen : (out.length : Int) ≠ h.srcDataLength.toInt) : decodeChunk P e c key h p =
      (some (zeros h.srcDataLength.toInt.toNat), destEvents P h p ++ [.lengthMismatch]) := by
  unfold decrypted at hd
  unfold decompressed at hout
  simp only [decodeChunk, heof, hz, hd, not_lt.mpr hfits, hout, if_pos hlen, destEvents, Bool.false_eq_true, if_false,
    ne_eq, ite_not]

/-- A data chunk that comes out with srcDataLength bytes is written so, with the event of its hash (R328). -/
theorem decodeChunk_comesOut (hd : decrypted P e key h p = some d)
    (hfits : h.destDataSizeWithoutPadding.toInt ≤ d.length)
    (hout : decompressed P c (d.take h.destDataSizeWithoutPadding.toInt.toNat) = some out)
    (hlen : (out.length : Int) = h.srcDataLength.toInt) : decodeChunk P e c key h p =
      (some out, destEvents P h p ++ if P.sha1 out = h.srcSha1 then [] else [.srcHashMismatch]) := by
  unfold decrypted at hd
  unfold decompressed at hout
  simp only [decodeChunk, heof, hz, hd, not_lt.mpr hfits, hout, not_not.mpr hlen, destEvents, Bool.false_eq_true, if_false,
    ne_eq, ite_not]

/-- After the event of the payload's hash a data chunk has at most one, and with an error it is written as zeros (R415):
the five ways it can end. -/
theorem decodeChunk_lastEvent : ∃ last : Option SoftCause,
    (decodeChunk P e c key h p).2 = destEvents P h p ++ last.toList ∧
      (last = none ∨ last = some .srcHashMismatch ∨
        ((last = some .transformFail ∨ last = some .payloadBounds ∨ last = some .lengthMismatch) ∧
          (decodeChunk P e c key h p).1 = some (zeros h.srcDataLength.toInt.toNat))) := by
  cases hd : decrypted P e key h p with
  | none => rw [decodeChunk_decryptFail heof hz hd]; exact ⟨some .transformFail, by simp⟩
  | some d =>
    rcases lt_or_ge (d.length : Int) h.destDataSizeWithoutPadding.toInt with hshort | hfits
    · rw [decodeChunk_bounds heof hz hd hshort]; exact ⟨some .payloadBounds, by simp⟩
    cases hout : decompressed P c (d.take h.destDataSizeWithoutPadding.toInt.toNat) with
    | none => rw [decodeChunk_decompressFail heof hz hd hfits hout]; exact ⟨some .transformFail, by simp⟩
    | some out =>
      by_cases hlen : (out.length : Int) = h.srcDataLength.toInt
      · rw [decodeChunk_comesOut heof hz hd hfits hout hlen]
        by_cases hsrc : P.sha1 out = h.srcSha1
        · exact ⟨none, by simp [hsrc]⟩
        · exact ⟨some .srcHashMismatch, by simp [hsrc]⟩
      · rw [decodeChunk_badLength heof hz hd hfits hout hlen]; exact ⟨some .lengthMismatch, by simp⟩

end
end

/-- Settles O48: `decodeChunk_lastEvent`, and each rule is one of the five ways a data chunk can end, at the payload that
the key decrypts. -/
theorem chunkEventOrder : Obligations.ChunkEventOrder := by
  intro P e c key h p heof hz dest zero
  refine ⟨decodeChunk_lastEvent heof hz, fun k _ hkey => ?_⟩
  intro plain content
  refine ⟨fun he hdom => decodeChunk_decryptFail heof hz (decrypted_eq_none he (hkey he) hdom), fun hdom => ?_⟩
  have hplain : decrypted P e key h p = some plain := decrypted_eq_some hkey hdom
  refine ⟨decodeChunk_bounds heof hz hplain, fun hfits => ⟨fun hc hnone => ?_, fun out hcomes => ?_⟩⟩
  · exact decodeChunk_decompressFail heof hz hplain hfits ((if_pos hc).trans hnone)
  · have hout : decompressed P c content = some out := decompressed_eq_some_iff.mpr hcomes
    exact ⟨decodeChunk_badLength heof hz hplain hfits hout, decodeChunk_comesOut heof hz hplain hfits hout⟩

end Sys2Proof.Machine

/-! ## No state that meets the invariant stops (spec/20_memory.md R105; spec/70_reset_and_hazards.md R471)

Only RunBatch and the end of a decode access SINK, so only DEC.FEED and DEC.FINAL can fault. DEC's invariant rules it
out: batched headers are sane (R309) and the output ends inside SINK (R318, R335). -/

namespace Sys2Proof.Machine

/-- DEC.FEED answers from every state that meets DEC's invariant: its parse loop never leaves SINK (R303, R309). -/
theorem decFeed_answers {P : Params} {s : State} (hd : DecInv s.dec s.input) : ∃ t, decFeed P s = .next t := by
  rcases decFeed_shape P s with ⟨-, hbad⟩ | ⟨hr, -⟩
  · exact ⟨_, hbad⟩
  · rcases decFeed_running P hd hr with ⟨_, -, -, -, -, hok⟩ | ⟨_, -, hfatal⟩
    · exact ⟨_, hok⟩
    · exact ⟨_, hfatal⟩

/-- The end of a decode answers where the output ends inside SINK: reading the whole output does not fault (R335). -/
theorem decEnd_closeDecode_answers (P : Params) (p : DecPart) (s : State) (hp : p.dec.outLen ≤ 2 ^ 63 - 1) :
    ∃ t, decEnd (closeDecode P p) s = .next t := by
  rcases closeDecode_cases P p hp with ⟨-, htrunc⟩ | ⟨_, _, _, -, -, -, hdone⟩
  · exact ⟨_, congrArg (decEnd · s) htrunc⟩
  · exact ⟨_, congrArg (decEnd · s) hdone⟩

/-- DEC.FINAL answers from every state that meets DEC's invariant: neither its parse loop and its last batch nor the
end of the decode leaves SINK (R330, R333, R335). -/
theorem decFinal_answers {P : Params} {s : State} (hd : DecInv s.dec s.input) : ∃ t, decFinal P s = .next t := by
  rcases decFinal_shape P s with ⟨-, hdone⟩ | ⟨-, -, hbad⟩ | ⟨-, hr, -⟩
  · exact ⟨_, hdone⟩
  · exact ⟨_, hbad⟩
  · rcases decFinal_running P hd hr with ⟨-, hfatal⟩ | ⟨_, _, _, _, -, -, hloop, -, -, -, -, hend⟩
    · exact ⟨_, hfatal⟩
    · rw [hend]
      exact decEnd_closeDecode_answers P _ s hloop.outLen_bound

/-- Every command answers from a state that meets DEC's invariant. Each other command's meaning is a next state in
every state. -/
theorem exec_answers (i : Instr) {s : State} (hd : DecInv s.dec s.input) : ∃ t, exec i s = .next t := by
  cases i with
  | csrRd a => obtain ⟨_, hq, -⟩ := csrRd_shape a s; exact ⟨_, hq⟩
  | decInit => rcases decInit_shape s with ⟨-, hq⟩ | ⟨-, hq⟩ <;> exact ⟨_, hq⟩
  | decFeed => exact decFeed_answers hd
  | decFinal => exact decFinal_answers hd
  | _ => exact ⟨_, rfl⟩

/-- Settles O60: with no command, or an illegal word, the step is a next state by definition; a command that decodes
answers by `exec_answers`, since taking it from the port leaves DEC and the IN stream alone. -/
theorem invariantStatesNeverStop : Obligations.InvariantStatesNeverStop := by
  intro s hs
  unfold step
  split
  · exact ⟨_, rfl⟩
  · rename_i c rest _
    split
    · exact ⟨_, rfl⟩
    · exact exec_answers _ (s := acceptCommand c rest s) hs.dec

end Sys2Proof.Machine
